-- ==== Sys2Proof/Word.lean ====
section
/-! DEFINITION. The bit-vector types of the block: the 64-bit register word, the byte (a symbol is one byte)
and the 9-bit node index. Source: `00_scope.md` rules R8, R9, R11, R12. -/

namespace Sys2Proof

/-- A register, a counter, a command word: 64 bits (R9, CNT_W and BUS_W). -/
abbrev Word := BitVec 64

/-- A stream byte, which is also a symbol (R8, SYM_W). -/
abbrev Byte := BitVec 8

/-- An index of the node table (R9, IDX_W). -/
abbrev Idx := BitVec 9

end Sys2Proof
end

