-- ==== Sys2Proof/Config.lean ====
section
/-! DEFINITION. What an implementation fixes: the parameters of `00_scope.md` rule R9 (values), the open
parameters of R10 (constants with no body) and the free value of `20_memory.md` rule R61. -/

namespace Sys2Proof

/-- The capacity of a byte queue (R10: "natural number or unbounded", "at least 1"). `upTo m` is a capacity of
`m + 1` bytes, so a capacity of 0 cannot be written. -/
inductive Depth where
  | unbounded
  | upTo (m : Nat)
deriving DecidableEq, Repr, Inhabited

/-- The byte order of the frame header's two 8-byte fields (R10, HDR_ENDIAN; firmware only). -/
inductive Endian where
  | little
  | big
deriving DecidableEq, Repr

namespace Config

/-- R10, IN_DEPTH: left open, so a constant with no body (log entry 2). -/
opaque inDepth : Depth

/-- R10, OUT_DEPTH: left open, so a constant with no body (log entry 2). -/
opaque outDepth : Depth

/-- R61 and `93_implementation_defined.md` item 15: what the n-th read of a table made while BUSY returns,
"any value (a fresh draw per read)" (log entry 1). -/
opaque freeRead : Nat → Word

/-- R9, ID_VALUE. -/
def idValue : Word := 0x0000000148554646

/-- R9, TAG_INTERNAL. -/
def tagInternal : Byte := 0x00

/-- R9, TAG_LEAF. -/
def tagLeaf : Byte := 0x01

/-- R9, NODE_CAP: entries of the node table. -/
abbrev nodeCap : Nat := 511

/-- R181: bytes of a frame header (firmware). -/
def headerBytes : Nat := 17

end Config

/-- R9, NIL: the "no child" sentinel. -/
def NIL : Idx := 0x1FF

end Sys2Proof
end

