-- ==== Sys2Proof/Syntax.lean ====
section
/-! DEFINITION. The command set: one constructor per row of `spec/opcode_table.json` (`30_encoding.md` rule R91).
A command carries no field: its operands are the registers LEN and COUNT (R92). -/

namespace Sys2Proof

/-- The eight commands (R3, R91). -/
inductive Instr where
  /-- op 0x01, R111: clear the frequency table. -/
  | clrf
  /-- op 0x02, R112: count LEN bytes of IN into the frequency table. -/
  | hist
  /-- op 0x03, R121: build the tree from the frequency table. -/
  | build
  /-- op 0x04, R131: derive the code table from the tree. -/
  | gencode
  /-- op 0x05, R141: encode LEN bytes of IN through the code table. -/
  | pack
  /-- op 0x06, R151: decode COUNT symbols from LEN payload bytes. -/
  | unpack
  /-- op 0x07, R161: push the serialized tree. -/
  | ser
  /-- op 0x08, R166: rebuild the tree from LEN serialized bytes. -/
  | deser
deriving DecidableEq, Repr

/-- The eight commands in opcode order. -/
def Instr.all : List Instr := [.clrf, .hist, .build, .gencode, .pack, .unpack, .ser, .deser]

end Sys2Proof
end

