-- ==== Sys2Proof/WellFormed.lean ====
section
/-! DEFINITION. What makes a command word and a command well formed (`30_encoding.md` rules R90, R91, R94). -/

namespace Sys2Proof

/-- R90: `rsvd`, bits 63:8, is 0. -/
def CommandWord.reservedIsZero (w : Word) : Bool := w.extractLsb' 8 56 == 0

/-- R91, R94: `op`, bits 7:0, is one of 0x01 to 0x08. -/
def CommandWord.opcodeIsListed (w : Word) : Bool :=
  let op := (w.extractLsb' 0 8).toNat
  decide (1 ≤ op) && decide (op ≤ 8)

/-- A legal word of the command format (R94 calls every other word illegal). -/
def CommandWord.wellFormed (w : Word) : Bool :=
  CommandWord.reservedIsZero w && CommandWord.opcodeIsListed w

/-- R92: a command has no operand field, so no operand of it can be out of range. -/
def Instr.wellFormed (_ : Instr) : Bool := true

end Sys2Proof
end

