-- ==== Sys2Proof/Decode.lean ====
section
/-! DEFINITION. From a 64-bit command word, or its eight byte lanes, to a command or a named rejection, and back
(`30_encoding.md` rules R90, R91, R94; byte lanes: `20_memory.md` rule R71). -/

namespace Sys2Proof

/-- Why a word is no command (R94), or why bytes are no word (R63: only whole 64-bit accesses exist). -/
inductive DecodeReject where
  /-- A nonzero bit in 63:8 (R90). -/
  | reservedBits
  /-- Opcode 0x00 (R94: "illegal on purpose"). -/
  | opcodeZero
  /-- Opcode 0x09 to 0xFF (R94). -/
  | opcodeUnlisted
  /-- Not the eight bytes of one aligned 64-bit write (R63). -/
  | notEightBytes
deriving DecidableEq, Repr

/-- R90: the opcode field, bits 7:0. -/
def opField (w : Word) : Byte := w.extractLsb' 0 8

/-- R90: the reserved field, bits 63:8. -/
def rsvdField (w : Word) : BitVec 56 := w.extractLsb' 8 56

/-- R91's table, read by opcode. -/
def commandOfOp (op : Byte) : Option Instr :=
  if op = 0x01 then some .clrf
  else if op = 0x02 then some .hist
  else if op = 0x03 then some .build
  else if op = 0x04 then some .gencode
  else if op = 0x05 then some .pack
  else if op = 0x06 then some .unpack
  else if op = 0x07 then some .ser
  else if op = 0x08 then some .deser
  else none

/-- R91: "`if word[63:8] != 0 or word[7:0] not in 1..8 then illegal else the row with op = word[7:0]`". -/
def decode (w : Word) : Except DecodeReject Instr :=
  if rsvdField w ≠ 0 then .error .reservedBits
  else if opField w = 0 then .error .opcodeZero
  else match commandOfOp (opField w) with
    | some i => .ok i
    | none => .error .opcodeUnlisted

/-- R91: the opcode of a command. -/
def opcode : Instr → Byte
  | .clrf => 0x01
  | .hist => 0x02
  | .build => 0x03
  | .gencode => 0x04
  | .pack => 0x05
  | .unpack => 0x06
  | .ser => 0x07
  | .deser => 0x08

/-- R90, R91: the 64-bit word of a command: `op` in bits 7:0, zeros above. -/
def encode (i : Instr) : Word := 0#56 ++ opcode i

/-- R71: byte lane `k` of a 64-bit word carries bits `8k+7 : 8k`. -/
def laneOf (w : Word) (k : Nat) : Byte := w.extractLsb' (8 * k) 8

/-- R71: the eight lanes of a word, lane 0 first. -/
def lanesOf (w : Word) : List Byte := (List.range 8).map (laneOf w)

/-- R71: the number whose byte lanes are `bs`, lane 0 first. -/
def natOfLanes : List Byte → Nat
  | [] => 0
  | b :: bs => b.toNat + 256 * natOfLanes bs

/-- Decoding of bytes: eight lanes make a word (R63, R71), any other number of bytes is rejected. -/
def decodeLanes (bs : List Byte) : Except DecodeReject Instr :=
  if bs.length = 8 then decode (BitVec.ofNat 64 (natOfLanes bs)) else .error .notEightBytes

/-- The bytes of a command as the bus carries them. -/
def encodeLanes (i : Instr) : List Byte := lanesOf (encode i)

/-- The command that the decoder reads from a table word: bit 0 is the word's least significant bit and the bits
from `nbits` up are 0. The word is laid out in its byte lanes and decoded from them. -/
def decodeTableWord (nbits w : Nat) : Option Instr :=
  match decodeLanes (lanesOf (BitVec.ofNat 64 (w % 2 ^ nbits))) with
  | .ok i => some i
  | .error _ => none

end Sys2Proof
end

