-- ==== Sys2Proof/Machine/State.lean ====
section
/-! DEFINITION. The state of the block and of the host side a step needs, as plain data (`10_state.md` rules R20 to
R43), the reset state, and the two reasons a step could stop. -/

namespace Sys2Proof.Machine

/-- R32: an entry of the node table. -/
structure Node where
  valid : Bool
  leaf : Bool
  value : Byte
  left : Idx
  right : Idx
  freq : Word
deriving DecidableEq, Repr

/-- R32: "An entry with `valid = 0` has all other fields 0." -/
def Node.invalid : Node :=
  { valid := false, leaf := false, value := 0, left := 0, right := 0, freq := 0 }

/-- R36: an entry of the code table. -/
structure CodeEntry where
  valid : Bool
  len : BitVec 8
  bits : BitVec 256
deriving DecidableEq, Repr

/-- R36: "An entry with `valid = 0` has `len = 0`, `bits = 0`." -/
def CodeEntry.invalid : CodeEntry := { valid := false, len := 0, bits := 0 }

/-- R30: the 256 frequency counters. -/
abbrev FreqTable := Vector Word 256

/-- R32: the 511 node entries. -/
abbrev NodeTable := Vector Node 511

/-- R36: the 256 code entries. -/
abbrev CodeTable := Vector CodeEntry 256

/-- One transaction on the register bus: its byte offset, its size in bytes and, for a write, its byte strobes
(`20_memory.md` rule R63 says which are legal). -/
structure Access where
  off : Nat
  size : Nat
  strobes : BitVec 8
deriving DecidableEq, Repr

/-- What the host does in one step (`00_scope.md` rule R17; the script lines of `30_encoding.md` rule R99). -/
inductive HostAction where
  /-- A read transaction of the register bus (R61, R63). -/
  | rd (a : Access)
  /-- A write transaction of the register bus (R62, R63). -/
  | wr (a : Access) (v : Word)
  /-- Offer one byte on the IN port until it is taken (R64). -/
  | push (b : Byte)
  /-- Take one byte from the OUT port, waiting for one (R65). -/
  | pop
  /-- R99, WAIT: read STATUS again and again until BUSY reads 0. -/
  | wait
  /-- Drive the `rst` input to a level (`70_reset_and_hazards.md` rule R241). -/
  | rst (level : Bool)
deriving DecidableEq, Repr

/-- One move of the engine while BUSY (R17, R70): pop one byte of IN, push one byte to OUT, complete. -/
inductive EngineMove where
  | pop
  | push
  | complete
deriving DecidableEq, Repr

/-- What the register bus answered to the latest transaction (R61, R62, R63). -/
inductive BusResp where
  | none
  | data (v : Word)
  | written
  | busError
deriving DecidableEq, Repr

/-- The whole state. The first groups are the block's (R20, R40), the last two are the model's own: the build
parameters of R10, and the host side and its schedule (log entries 1 to 5). -/
structure State where
  /-- R22, CTRL bit 1. -/
  ieDone : Bool
  /-- R22, CTRL bit 2. -/
  ieErr : Bool
  /-- R23, STATUS bit 0. -/
  busy : Bool
  /-- R23, STATUS bit 1. -/
  done : Bool
  /-- R23, STATUS bit 2. -/
  err : Bool
  /-- R23, STATUS bit 3. -/
  ovr : Bool
  /-- R23, STATUS bits 11:8. -/
  errCode : BitVec 4
  /-- R23, STATUS bits 15:12. -/
  errSub : BitVec 4
  /-- R24, CUR_CMD: the last accepted command word. -/
  curCmd : Word
  /-- R25, operand register x[0]. -/
  len : Word
  /-- R25, operand register x[1]. -/
  count : Word
  /-- R26, LEN_L. -/
  lenL : Word
  /-- R26, COUNT_L. -/
  countL : Word
  /-- R28, OUT_COUNT. -/
  outCount : Word
  /-- R29, ERRINFO. -/
  errInfo : Word
  /-- R30, FREQ[0..255]. -/
  freq : FreqTable
  /-- R31, TOTAL. -/
  total : Word
  /-- R32, NODE[0..510]. -/
  node : NodeTable
  /-- R34, ROOT. -/
  root : Idx
  /-- R34, NNODES. -/
  nnodes : Idx
  /-- R36, CODE[0..255]. -/
  code : CodeTable
  /-- R39, IN, head first. -/
  inq : List Byte
  /-- R39, OUT, head first. -/
  outq : List Byte
  /-- R40: the bytes the running command has popped so far, in order; [] while idle. -/
  got : List Byte
  /-- R40: how many bytes the running command has pushed so far; 0 while idle. -/
  sent : Nat
  /-- R66, R241: the level of the `rst` input. -/
  rst : Bool
  /-- R10, IN_DEPTH: fixed for a block, changed by no step. -/
  inDepth : Depth
  /-- R10, OUT_DEPTH: fixed for a block, changed by no step. -/
  outDepth : Depth
  /-- The host's coming actions, the next one first. -/
  script : List HostAction
  /-- The engine's coming turns, one per step while BUSY: which moves it makes in each. An exhausted list means
  that the engine goes on in every turn until it waits or completes. -/
  turns : List (List EngineMove)
  /-- The bus's answer to the latest register transaction. -/
  resp : BusResp
  /-- The bytes the host has taken from OUT, oldest first. -/
  taken : List Byte
  /-- How many free values were drawn so far (R61). -/
  draws : Nat
deriving DecidableEq, Repr

/-- R43: every element of the block's state at its reset value; the host side at rest. -/
def State.reset : State where
  ieDone := false
  ieErr := false
  busy := false
  done := false
  err := false
  ovr := false
  errCode := 0
  errSub := 0
  curCmd := 0
  len := 0
  count := 0
  lenL := 0
  countL := 0
  outCount := 0
  errInfo := 0
  freq := Vector.replicate 256 0
  total := 0
  node := Vector.replicate 511 Node.invalid
  root := NIL
  nnodes := 0
  code := Vector.replicate 256 CodeEntry.invalid
  inq := []
  outq := []
  got := []
  sent := 0
  rst := false
  inDepth := Config.inDepth
  outDepth := Config.outDepth
  script := []
  turns := []
  resp := .none
  taken := []
  draws := 0

/-- The faults of a step. There are none: "every input to the block in every state has a stated outcome, a stated
draw (item 15) or a stated hang (item 17)" (`93_implementation_defined.md` section 2). The block's errors (R211) are next
states with STATUS.ERR set, a bus error (R63) is a next state with that response, a hang (R253) is a next state that
waits. -/
inductive Fault
deriving DecidableEq, Repr

/-- The refusals of a step. -/
inductive Refusal where
  /-- Raised by the dispatcher for an instruction that has no meaning yet (safe); no arm of this model raises it. -/
  | notModelled (mnemonic : String)
deriving DecidableEq, Repr

end Sys2Proof.Machine
end

