-- ==== Sys2Proof/Machine/Flags.lean ====
section
/-! DEFINITION. The flags: the STATUS and CTRL words, the derived flags EMPTY and SINGLE (`10_state.md` rules R22,
R23, R38), the interrupt line (`60_exceptions.md` rule R221), and the error classes with their codes (R211, R212). -/

namespace Sys2Proof.Machine

/-- Entry `i` of the node table; NIL names no entry (R9) and reads as an invalid one. -/
def nodeAt (t : NodeTable) (i : Idx) : Node :=
  if h : i.toNat < 511 then t[i.toNat] else Node.invalid

/-- R38: "EMPTY ... not stored: `ROOT = NIL`". -/
def State.empty (s : State) : Bool := s.root == NIL

/-- R38: "SINGLE ... not stored: `ROOT != NIL and NODE[ROOT].leaf`". -/
def State.single (s : State) : Bool := s.root != NIL && (nodeAt s.node s.root).leaf

/-- R23: the STATUS word, given what its bits EMPTY and SINGLE read as. -/
def statusWith (s : State) (empty single : Bool) : Word :=
  0#48 ++ s.errSub ++ s.errCode ++ 0#2 ++ BitVec.ofBool single ++ BitVec.ofBool empty ++ BitVec.ofBool s.ovr
    ++ BitVec.ofBool s.err ++ BitVec.ofBool s.done ++ BitVec.ofBool s.busy

/-- R23: the STATUS word. -/
def State.status (s : State) : Word := statusWith s s.empty s.single

/-- R22: the CTRL word; SRST and the reserved bits read 0. -/
def State.ctrl (s : State) : Word := 0#61 ++ BitVec.ofBool s.ieErr ++ BitVec.ofBool s.ieDone ++ 0#1

/-- R221: `irq = (STATUS.DONE and CTRL.IE_DONE) or (STATUS.ERR and CTRL.IE_ERR)`; R241: 0 while `rst` is 1. -/
def State.irq (s : State) : Bool := !s.rst && ((s.done && s.ieDone) || (s.err && s.ieErr))

/-- R211, R212: the nine error causes. -/
inductive ErrCause where
  | illegalCmd
  | badTag
  | truncated
  | trailing
  | capacity
  | missingChild
  | payloadExhausted
  | inputMismatch
  | countOverflow
deriving DecidableEq, Repr

/-- R211: STATUS.ERRCODE of a cause. -/
def ErrCause.code : ErrCause → BitVec 4
  | .illegalCmd => 1
  | .badTag => 2
  | .truncated => 2
  | .trailing => 2
  | .capacity => 2
  | .missingChild => 3
  | .payloadExhausted => 3
  | .inputMismatch => 4
  | .countOverflow => 5

/-- R212: STATUS.ERRSUB of a cause. -/
def ErrCause.sub : ErrCause → BitVec 4
  | .illegalCmd => 0
  | .badTag => 1
  | .truncated => 2
  | .trailing => 3
  | .capacity => 4
  | .missingChild => 1
  | .payloadExhausted => 2
  | .inputMismatch => 0
  | .countOverflow => 0

end Sys2Proof.Machine
end

