-- ==== Sys2Proof/Machine/Operands.lean ====
section
/-! DEFINITION. The operands of a command: the latched registers LEN_L and COUNT_L, read whole and unsigned, without
scaling (`30_encoding.md` rule R92; which command has which: rule R91). COUNT_L is read by one command only, UNPACK (R26), as the
number of symbols in `unpackBody`. -/

namespace Sys2Proof.Machine

/-- R91, column "operands": the commands with the operand LEN. -/
def hasLen : Instr → Bool
  | .clrf => false
  | .hist => true
  | .build => false
  | .gencode => false
  | .pack => true
  | .unpack => true
  | .ser => false
  | .deser => true

/-- R64: how many bytes an accepted command pops: "*exactly* `LEN_L` bytes", and "a command with no LEN operand pops
none". -/
def inputLen (i : Instr) (lenL : Word) : Nat := if hasLen i then lenL.toNat else 0

end Sys2Proof.Machine
end

