-- ==== Sys2Proof/Machine/Ops.lean ====
section
/-! DEFINITION. The operations the meanings share: reads and writes of the three tables, the two queues, entering
the error state (`60_exceptions.md` rule R214) and leaving it by reset (R217, R242), acceptance and refusal of a command
write (`30_encoding.md` rule R93), completion (`46_common_semantics.md` rule R206). -/

namespace Sys2Proof.Machine

/-! ## The tables -/

/-- FREQ[b] (R30). -/
def freqAt (f : FreqTable) (b : Byte) : Word := f[b.toNat]'b.isLt

/-- `FREQ[b] <- v` (R30). -/
def setFreq (f : FreqTable) (b : Byte) (v : Word) : FreqTable := f.set b.toNat v b.isLt

/-- CODE[b] (R36). -/
def codeAt (t : CodeTable) (b : Byte) : CodeEntry := t[b.toNat]'b.isLt

/-- `CODE[b] <- e` (R36). -/
def setCode (t : CodeTable) (b : Byte) (e : CodeEntry) : CodeTable := t.set b.toNat e b.isLt

/-- `NODE[i] <- n` (R32); NIL names no entry. -/
def setNode (t : NodeTable) (i : Idx) (n : Node) : NodeTable :=
  if h : i.toNat < 511 then t.set i.toNat n h else t

/-- All counters 0 (R30, reset; R111). -/
def zeroFreq : FreqTable := Vector.replicate 256 0

/-- All node entries invalid (R32). -/
def noNodes : NodeTable := Vector.replicate 511 Node.invalid

/-- All code entries invalid (R36). -/
def noCodes : CodeTable := Vector.replicate 256 CodeEntry.invalid

/-- R32: a leaf entry: "NIL (511) in a leaf" for both children. -/
def Node.mkLeaf (v : Byte) (f : Word) : Node :=
  { valid := true, leaf := true, value := v, left := NIL, right := NIL, freq := f }

/-- R32: an internal entry: value "0 in an internal node". -/
def Node.mkInner (l r : Idx) (f : Word) : Node :=
  { valid := true, leaf := false, value := 0, left := l, right := r, freq := f }

/-! ## The queues -/

/-- Whether a queue of `used` bytes takes one more (R64, R65). -/
def roomIn : Depth → Nat → Bool
  | .unbounded, _ => true
  | .upTo m, used => decide (used < m + 1)

/-- The part of `bs` that a queue of `used` bytes takes (R65: the rest waits). -/
def fittingIn (d : Depth) (used : Nat) (bs : List Byte) : List Byte :=
  match bs with
  | [] => []
  | b :: rest =>
    match d with
    | .unbounded => b :: rest
    | .upTo m => (b :: rest).take (m + 1 - used)

/-- R64: `in_ready = 1` exactly when IN holds fewer than IN_DEPTH bytes; R241: 0 while `rst` is 1. -/
def State.inReady (s : State) : Bool := !s.rst && roomIn s.inDepth s.inq.length

/-- R65: `out_valid = 1` exactly when OUT is not empty; R241: 0 while `rst` is 1. -/
def State.outValid (s : State) : Bool := !s.rst && !s.outq.isEmpty

/-- R65: `out_data` is the head byte while `out_valid` is 1. -/
def State.outData (s : State) : Option Byte := if s.outValid then s.outq.head? else none

/-- R64: the byte on `in_data` is pushed to the tail of IN. -/
def State.pushIn (b : Byte) (s : State) : State := { s with inq := s.inq ++ [b] }

/-- R65: the host takes the head of OUT. -/
def State.popOut (s : State) : State := { s with outq := s.outq.drop 1, taken := s.taken ++ s.outq.take 1 }

/-! ## Error entry, and the return from it -/

/-- R214: `raise Error(code, sub, info)`, in one step. -/
def State.raise (c : ErrCause) (info : Word) (s : State) : State :=
  { s with err := true, errCode := c.code, errSub := c.sub, errInfo := info, done := false, busy := false }

/-- R217, R240, R242: the return from the error state and every other reset: all of the block's state takes its
value of R43; the host side, the block's build parameters and the level of `rst` stay. -/
def State.softReset (s : State) : State :=
  { State.reset with
    rst := s.rst, inDepth := s.inDepth, outDepth := s.outDepth, script := s.script, turns := s.turns,
    resp := s.resp, taken := s.taken, draws := s.draws }

/-! ## A command write -/

/-- R93 case 1: the write is dropped. -/
def State.drop (s : State) : State := { s with ovr := true }

/-- R93: whether the engine takes a command write at all (case 1 applies otherwise). -/
def State.takesCommands (s : State) : Bool := !s.busy && !s.err

/-- R93 case 4, R26, R206: the command is accepted. -/
def State.accept (i : Instr) (s : State) : State :=
  { s with curCmd := encode i, lenL := s.len, countL := s.count, done := false, busy := true, got := [], sent := 0 }

/-- R93 case 1 before the cases that `f` handles. -/
def State.present (f : State → State) (s : State) : State := if s.takesCommands then f s else s.drop

/-! ## Completion -/

/-- What the body of a command leaves: the tables (in `after`), the bytes it pushes, the error it recorded. -/
structure Body where
  after : State
  out : List Byte
  err : Option (ErrCause × Word)

/-- R206, "on completion, in one step": OUT_COUNT, BUSY, and DONE or the recorded error (R214). -/
def Body.complete (b : Body) : State :=
  let t := { b.after with outCount := BitVec.ofNat 64 b.out.length, busy := false, got := [], sent := 0 }
  match b.err with
  | none => { t with done := true }
  | some e => t.raise e.1 e.2

end Sys2Proof.Machine
end

