-- ==== Sys2Proof/Machine/Build.lean ====
section
/-! DEFINITION. The Tree Builder: the body of BUILD (`41_build.md` rules R121 to R125). -/

namespace Sys2Proof.Machine

/-- A node table with its ROOT and NNODES (R32, R34). -/
structure TreeTable where
  node : NodeTable
  root : Idx
  nnodes : Idx
deriving DecidableEq, Repr

/-- The empty tree (R124). -/
def TreeTable.none : TreeTable := { node := noNodes, root := NIL, nnodes := 0 }

/-- The state with a new tree: NODE, ROOT, NNODES replaced, and the whole code table invalid (R36). -/
def State.withTree (s : State) (t : TreeTable) : State :=
  { s with node := t.node, root := t.root, nnodes := t.nnodes, code := noCodes }

/-- R122: `key(a) < key(b)` for `key(i) = (NODE[i].freq, i)`, compared lexicographically. -/
def keyLt (t : NodeTable) (a b : Idx) : Bool :=
  let fa := (nodeAt t a).freq.toNat
  let fb := (nodeAt t b).freq.toNat
  decide (fa < fb) || (decide (fa = fb) && decide (a.toNat < b.toNat))

/-- R121: "the i in live with the smallest key(i)"; none when `live` is empty. -/
def smallest (t : NodeTable) : List Idx → Option Idx
  | [] => Option.none
  | a :: rest =>
    match smallest t rest with
    | Option.none => some a
    | some b => if keyLt t a b then some a else some b

/-- The variables of R121's loops: the node table, the live set and the number `k` of merges made. -/
structure Building where
  node : NodeTable
  live : List Idx
  k : Nat
deriving DecidableEq, Repr

/-- R121: one turn of the seeding loop: a leaf for symbol `v` at index `v`, if present (R123). -/
def seedSymbol (f : FreqTable) (b : Building) (v : Byte) : Building :=
  if freqAt f v ≠ 0 then
    { b with node := setNode b.node (v.setWidth 9) (Node.mkLeaf v (freqAt f v)), live := b.live ++ [v.setWidth 9] }
  else b

/-- The symbols in ascending order. -/
def allSymbols : List Byte := (List.range 256).map (BitVec.ofNat 8)

/-- R121: the seeding loop, "for s in 0..255, ascending". -/
def seedLeaves (f : FreqTable) : Building :=
  allSymbols.foldl (seedSymbol f) { node := noNodes, live := [], k := 0 }

/-- R121: one turn of the merge loop: the two smallest live nodes become the left and the right child of a new node
at index `256 + k` (R123). Nothing happens when fewer than two nodes are live. -/
def mergeOnce (b : Building) : Building :=
  match smallest b.node b.live with
  | Option.none => b
  | some x =>
    let live1 := b.live.erase x
    match smallest b.node live1 with
    | Option.none => b
    | some y =>
      let m : Idx := BitVec.ofNat 9 (256 + b.k)
      { node := setNode b.node m (Node.mkInner x y ((nodeAt b.node x).freq + (nodeAt b.node y).freq)),
        live := live1.erase y ++ [m], k := b.k + 1 }

/-- R121: "`while |live| > 1`", at most the given number of turns. -/
def mergeLoop : Nat → Building → Building
  | 0, b => b
  | n + 1, b => if b.live.length ≤ 1 then b else mergeLoop n (mergeOnce b)

/-- R121: the tree of a frequency table. Each merge takes one node off the live set, so that as many turns as there are
leaves are always enough. R124: no present symbol gives the empty tree. -/
def buildTree (f : FreqTable) : TreeTable :=
  let seeded := seedLeaves f
  let n := seeded.live.length
  let b := mergeLoop n seeded
  match b.live with
  | [] => TreeTable.none
  | r :: _ => { node := b.node, root := r, nnodes := BitVec.ofNat 9 (n + b.k) }

/-- R121: BUILD replaces the tree and invalidates the code table; it reads FREQ only. -/
def buildBody (s : State) : Body :=
  { after := s.withTree (buildTree s.freq), out := [], err := Option.none }

end Sys2Proof.Machine
end

