-- ==== Sys2Proof/Machine/Freq.lean ====
section
/-! DEFINITION. The Frequency Counter: the bodies of CLRF (`40_freq.md` rule R111) and HIST (R112). -/

namespace Sys2Proof.Machine

/-- R111: "`for s in 0..255: FREQ[s] <- 0`; `TOTAL <- 0`". -/
def clrfBody (s : State) : Body :=
  { after := { s with freq := zeroFreq, total := 0 }, out := [], err := none }

/-- R112: one turn of the loop: `FREQ[b] <- FREQ[b] + 1`. -/
def countByte (f : FreqTable) (b : Byte) : FreqTable := setFreq f b (freqAt f b + 1)

/-- R112: the loop over the popped bytes. -/
def countBytes (f : FreqTable) (bs : List Byte) : FreqTable := bs.foldl countByte f

/-- R112: the bytes are counted, then `TOTAL <- TOTAL + LEN_L`. -/
def histBody (s : State) (inp : List Byte) : Body :=
  { after := { s with freq := countBytes s.freq inp, total := s.total + s.lenL }, out := [], err := none }

/-- R112, issue-time check: `TOTAL + LEN >= 2^64`, on natural numbers (R200). -/
def histOverflows (s : State) : Bool := decide (2 ^ 64 ≤ s.total.toNat + s.len.toNat)

end Sys2Proof.Machine
end

