-- ==== Sys2Proof/Machine/GenCode.lean ====
section
/-! DEFINITION. The Code Generator: the body of GENCODE (`42_gencode.md` rules R131 to R135). -/

namespace Sys2Proof.Machine

/-- How deep a walk of the node table is followed. By R33 and R132 a walk of a tree the block holds is at most 256
entries deep, so the bound is never met there; it makes the walks total on states no run reaches (log entry 6). -/
def walkFuel : Nat := 512

/-- R131, `walk(i, len, bits)`: depth first, left before right (R132); a leaf's entry takes the accumulated path
(the last one of a value stays, R133). -/
def walkCodes (t : NodeTable) : Nat → Idx → Nat → Nat → CodeTable → CodeTable
  | 0, _, _, _, c => c
  | fuel + 1, i, len, bits, c =>
    if i = NIL then c
    else if (nodeAt t i).leaf then
      setCode c (nodeAt t i).value
        { valid := true, len := BitVec.ofNat 8 len, bits := BitVec.ofNat 256 bits }
    else
      walkCodes t fuel (nodeAt t i).right (len + 1) (2 * bits + 1)
        (walkCodes t fuel (nodeAt t i).left (len + 1) (2 * bits) c)

/-- R131: every entry is cleared, then the walk starts at ROOT. -/
def genCodes (t : NodeTable) (root : Idx) : CodeTable := walkCodes t walkFuel root 0 0 noCodes

/-- R131: GENCODE rebuilds the code table and changes nothing else. -/
def gencodeBody (s : State) : Body :=
  { after := { s with code := genCodes s.node s.root }, out := [], err := none }

end Sys2Proof.Machine
end

