-- ==== Sys2Proof/Machine/Pack.lean ====
section
/-! DEFINITION. The Bit Packer, encode direction: the body of PACK (`43_pack.md` rule R141). -/

namespace Sys2Proof.Machine

/-- R98: the bits of a code, first path bit first: "`for t from CODE[b].len - 1 down to 0`". -/
def codeBits (e : CodeEntry) : List Bool := (List.range e.len.toNat).reverse.map fun t => e.bits.getLsbD t

/-- The variables of R141's loop: the pending bits, the bytes pushed, the next offset `j`, the recorded error. -/
structure Packing where
  acc : Nat
  nacc : Nat
  out : List Byte
  j : Nat
  err : Option Nat
deriving DecidableEq, Repr

/-- R141: before the first byte. -/
def Packing.start : Packing := { acc := 0, nacc := 0, out := [], j := 0, err := none }

/-- R141: one bit: `acc <- 2*acc + bit`; eight make a byte, most significant bit first. -/
def packBit (p : Packing) (bit : Bool) : Packing :=
  let acc := 2 * p.acc + bit.toNat
  if p.nacc + 1 = 8 then { p with acc := 0, nacc := 0, out := p.out ++ [BitVec.ofNat 8 acc] }
  else { p with acc := acc, nacc := p.nacc + 1 }

/-- R141: one input byte. The first byte without a code is recorded and discards the pending bits; later bytes are
popped and ignored. -/
def packByte (c : CodeTable) (p : Packing) (b : Byte) : Packing :=
  let q :=
    match p.err with
    | some _ => p
    | none =>
      if (codeAt c b).valid then (codeBits (codeAt c b)).foldl packBit p
      else { p with acc := 0, nacc := 0, err := some p.j }
  { q with j := p.j + 1 }

/-- R141: the loop over the popped bytes; its `out` holds the whole bytes so far. -/
def packRun (c : CodeTable) (inp : List Byte) : Packing := inp.foldl (packByte c) Packing.start

/-- R141: the last line of the loop's output: "left-pack, zero-fill" of the pending bits, unless an error is
recorded or none are pending. -/
def Packing.flushed (p : Packing) : List Byte :=
  match p.err with
  | some _ => p.out
  | none => if 0 < p.nacc then p.out ++ [BitVec.ofNat 8 (p.acc * 2 ^ (8 - p.nacc))] else p.out

/-- R141, R212: `(INPUT_MISMATCH, 0, j mod 2^64)`. -/
def Packing.error (p : Packing) : Option (ErrCause × Word) :=
  p.err.map fun j => (.inputMismatch, BitVec.ofNat 64 j)

/-- R141: PACK changes no table. -/
def packBody (s : State) (inp : List Byte) : Body :=
  let p := packRun s.code inp
  { after := s, out := p.flushed, err := p.error }

end Sys2Proof.Machine
end

