-- ==== Sys2Proof/Machine/TreeSer.lean ====
section
/-! DEFINITION. The Tree Serializer and Deserializer: the bodies of SER (`45_treeser.md` rule R161) and DESER
(R166 to R172). -/

namespace Sys2Proof.Machine

/-- R161, `emit(i)`: pre-order, tag 0x00 for an internal node, tag 0x01 and the value for a leaf. -/
def emitTree (t : NodeTable) : Nat → Idx → List Byte
  | 0, _ => []
  | fuel + 1, i =>
    if i = NIL then []
    else if (nodeAt t i).leaf then [Config.tagLeaf, (nodeAt t i).value]
    else Config.tagInternal :: (emitTree t fuel (nodeAt t i).left ++ emitTree t fuel (nodeAt t i).right)

/-- R161: the serialized tree. -/
def serialize (t : NodeTable) (root : Idx) : List Byte := emitTree t walkFuel root

/-- R161: SER changes no table. -/
def serBody (s : State) : Body := { after := s, out := serialize s.node s.root, err := none }

/-- The variables of R166's parser: the bytes not yet used, `pos`, `next`, the table so far, the error. -/
structure Parsing where
  rest : List Byte
  pos : Nat
  next : Nat
  node : NodeTable
  err : Option (ErrCause × Nat)
deriving DecidableEq, Repr

/-- R166: before the first tag. -/
def Parsing.start (inp : List Byte) : Parsing := { rest := inp, pos := 0, next := 0, node := noNodes, err := none }

/-- R166: an error is recorded at an offset and NIL is returned. -/
def Parsing.failed (p : Parsing) (c : ErrCause) (off : Nat) : Parsing × Idx :=
  ({ p with err := some (c, off) }, NIL)

/-- R166, `parse()`: its checks in the order of R167: TRUNCATED, BAD_TAG, CAPACITY. Every call but the last one uses up a
byte, which bounds the number of nested calls. -/
def parseNode : Nat → Parsing → Parsing × Idx
  | 0, p => (p, NIL)
  | fuel + 1, p =>
    if p.err.isSome then (p, NIL)
    else
      match p.rest with
      | [] => p.failed .truncated p.pos
      | tag :: rest =>
        if tag ≠ Config.tagInternal ∧ tag ≠ Config.tagLeaf then p.failed .badTag p.pos
        else if p.next = Config.nodeCap then p.failed .capacity p.pos
        else
          let idx : Idx := BitVec.ofNat 9 p.next
          let q := { p with rest := rest, pos := p.pos + 1, next := p.next + 1 }
          if tag = Config.tagLeaf then
            match rest with
            | [] => q.failed .truncated q.pos
            | v :: rest' =>
              ({ q with rest := rest', pos := q.pos + 1, node := setNode q.node idx (Node.mkLeaf v 0) }, idx)
          else
            let l := parseNode fuel q
            let r := parseNode fuel l.1
            if r.1.err.isSome then (r.1, idx)
            else ({ r.1 with node := setNode r.1.node idx (Node.mkInner l.2 r.2 0) }, idx)

/-- R166: the whole parse. Zero bytes are the empty tree (R170); bytes left after a whole tree are TRAILING; a failure
keeps no partial tree (R168: the caller takes the empty tree then). -/
def parseTree (inp : List Byte) : Except (ErrCause × Nat) TreeTable :=
  if inp.isEmpty then .ok TreeTable.none
  else
    let r := parseNode (inp.length + 1) (Parsing.start inp)
    match r.1.err with
    | some e => .error e
    | none =>
      if r.1.pos ≠ inp.length then .error (.trailing, r.1.pos)
      else .ok { node := r.1.node, root := r.2, nnodes := BitVec.ofNat 9 r.1.next }

/-- R166: DESER replaces the tree, by the empty one on an error, and invalidates the code table. -/
def deserBody (s : State) (inp : List Byte) : Body :=
  match parseTree inp with
  | .ok t => { after := s.withTree t, out := [], err := none }
  | .error e => { after := s.withTree TreeTable.none, out := [], err := some (e.1, BitVec.ofNat 64 e.2) }

end Sys2Proof.Machine
end

