-- ==== Sys2Proof/Machine/Unpack.lean ====
section
/-! DEFINITION. The Bit Packer, decode direction: the body of UNPACK (`44_unpack.md` rule R151). -/

namespace Sys2Proof.Machine

/-- R67: the bits of a byte, most significant bit first. -/
def byteBits (b : Byte) : List Bool := (List.range 8).map fun k => b.getLsbD (7 - k)

/-- R67: bit `p` of a payload is `B[p div 8][7 - (p mod 8)]`, so the payload's bits are its bytes' bits in order. -/
def payloadBits (bs : List Byte) : List Bool := bs.flatMap byteBits

/-- The variables of R151's loop: the current node, the bits not yet read, the symbols emitted, the error. -/
structure Unpacking where
  cur : Idx
  bits : List Bool
  emitted : Nat
  out : List Byte
  err : Option (ErrCause × Nat)
deriving DecidableEq, Repr

/-- R151: the loop, its tests in the order (1) to (5). Every turn either emits one of the `count` symbols or reads one
bit, which bounds the number of turns. -/
def unpackLoop (t : NodeTable) (root : Idx) (count : Nat) : Nat → Unpacking → Unpacking
  | 0, u => u
  | fuel + 1, u =>
    if u.emitted = count then u
    else if u.cur = NIL then { u with err := some (.missingChild, u.emitted) }
    else if (nodeAt t u.cur).leaf then
      unpackLoop t root count fuel
        { u with cur := root, emitted := u.emitted + 1, out := u.out ++ [(nodeAt t u.cur).value] }
    else
      match u.bits with
      | [] => { u with err := some (.payloadExhausted, u.emitted) }
      | bit :: rest =>
        unpackLoop t root count fuel
          { u with cur := if bit then (nodeAt t u.cur).right else (nodeAt t u.cur).left, bits := rest }

/-- R151: the loop from ROOT on the bits of a payload. -/
def unpackRun (t : NodeTable) (root : Idx) (count : Nat) (payload : List Byte) : Unpacking :=
  unpackLoop t root count (count + (payloadBits payload).length + 1)
    { cur := root, bits := payloadBits payload, emitted := 0, out := [], err := none }

/-- R151, R212: ERRINFO is the number of symbols emitted. -/
def Unpacking.error (u : Unpacking) : Option (ErrCause × Word) :=
  u.err.map fun e => (e.1, BitVec.ofNat 64 e.2)

/-- R151: UNPACK changes no table. -/
def unpackBody (s : State) (inp : List Byte) : Body :=
  let u := unpackRun s.node s.root s.countL.toNat inp
  { after := s, out := u.out, err := u.error }

end Sys2Proof.Machine
end

