-- ==== Sys2Proof/Machine/Tree.lean ====
section
/-! DEFINITION. What the node table and the streams stand for: the abstract tree (`10_state.md` rule R35), its codes
(R36, R37), its serialized form (`30_encoding.md` rule R97) and the packed payload (R96). Claims are stated in these
terms; of the machine only UNPACK's lookahead uses them. -/

namespace Sys2Proof.Machine

/-- R35: "`tree(NIL) = Empty`", "Leaf{value} | Internal{left, right}". -/
inductive Tree where
  | empty
  | leaf (v : Byte)
  | fork (l r : Tree)
deriving DecidableEq, Repr

/-- R35, `tree(i)`, followed `fuel` entries deep. -/
def treeAt (t : NodeTable) : Nat → Idx → Tree
  | 0, _ => .empty
  | fuel + 1, i =>
    if i = NIL then .empty
    else if (nodeAt t i).leaf then .leaf (nodeAt t i).value
    else .fork (treeAt t fuel (nodeAt t i).left) (treeAt t fuel (nodeAt t i).right)

/-- R35, `T = tree(ROOT)`. -/
def treeOf (t : NodeTable) (root : Idx) : Tree := treeAt t walkFuel root

/-- The tree of a state. -/
def State.tree (s : State) : Tree := treeOf s.node s.root

/-- R97, `ser(T)`. -/
def Tree.ser : Tree → List Byte
  | .empty => []
  | .leaf v => [0x01, v]
  | .fork l r => 0x00 :: (l.ser ++ r.ser)

/-- The leaf values, left to right. -/
def Tree.leaves : Tree → List Byte
  | .empty => []
  | .leaf v => [v]
  | .fork l r => l.leaves ++ r.leaves

/-- R33 item 4: edges on the longest root-to-leaf path. -/
def Tree.depth : Tree → Nat
  | .empty => 0
  | .leaf _ => 0
  | .fork l r => max l.depth r.depth + 1

/-- The number of nodes. -/
def Tree.size : Tree → Nat
  | .empty => 0
  | .leaf _ => 1
  | .fork l r => l.size + r.size + 1

/-- R33 item 2: "every internal node has exactly two children": no empty subtree below the root. -/
def Tree.full : Tree → Bool
  | .empty => false
  | .leaf _ => true
  | .fork l r => l.full && r.full

/-- R130: the leaves with their codes, left to right: left = 0 (false), right = 1 (true). -/
def Tree.codes : Tree → List (Byte × List Bool)
  | .empty => []
  | .leaf v => [(v, [])]
  | .fork l r => l.codes.map (fun c => (c.1, false :: c.2)) ++ r.codes.map (fun c => (c.1, true :: c.2))

/-- R133: the code of a value: that of the leaf visited last. -/
def Tree.codeOf (t : Tree) (v : Byte) : Option (List Bool) :=
  (t.codes.reverse.find? fun c => c.1 == v).map fun c => c.2

/-- The number a bit sequence is, first bit most significant (R98). -/
def bitsValue (bs : List Bool) : Nat := bs.foldl (fun n b => 2 * n + b.toNat) 0

/-- R36, R98: the table entry of a code. -/
def CodeEntry.ofPath : Option (List Bool) → CodeEntry
  | none => CodeEntry.invalid
  | some p => { valid := true, len := BitVec.ofNat 8 p.length, bits := BitVec.ofNat 256 (bitsValue p) }

/-- R96: byte `k` of the payload of a bit stream: stream bit `8k + j` is bit `7 - j`, missing bits are 0. -/
def payloadByte (stream : List Bool) (k : Nat) : Byte :=
  BitVec.ofNat 8 (bitsValue ((List.range 8).map fun j => stream.getD (8 * k + j) false))

/-- R96: "The payload has `ceil(L / 8)` bytes". -/
def payloadOfStream (stream : List Bool) : List Byte :=
  (List.range ((stream.length + 7) / 8)).map (payloadByte stream)

/-- R96: the bit stream of a buffer: the codes of its bytes, in order. -/
def streamOf (c : CodeTable) (bs : List Byte) : List Bool := bs.flatMap fun b => codeBits (codeAt c b)

/-- R143: every byte of the buffer has a valid code. -/
def covers (c : CodeTable) (bs : List Byte) : Bool := bs.all fun b => (codeAt c b).valid

/-- R15, R30: the present symbols, in ascending order. -/
def present (f : FreqTable) : List Byte := allSymbols.filter fun v => freqAt f v != 0

/-- R120, R127: what the source document admits of a tree builder: a forest of trees with their frequencies becomes one
tree by repeatedly merging a tree of minimal frequency with one of minimal frequency among the rest, either of them to the
left. -/
inductive Merges : List (Tree × Nat) → Tree → Nat → Prop where
  | one (t : Tree) (f : Nat) : Merges [(t, f)] t f
  | merge {forest rest : List (Tree × Nat)} {x y : Tree × Nat} {m t : Tree} {f : Nat} :
      forest.Perm (x :: y :: rest) → (∀ z ∈ y :: rest, x.2 ≤ z.2) → (∀ z ∈ rest, y.2 ≤ z.2) →
      (m = .fork x.1 y.1 ∨ m = .fork y.1 x.1) → Merges ((m, x.2 + y.2) :: rest) t f → Merges forest t f

/-- R167: the first failure met in stream order, found byte by byte: `owed` subtrees are still to come, `pos` bytes and
`nodes` tags are behind. At one offset TRUNCATED comes before BAD_TAG before CAPACITY; TRAILING comes last. -/
def firstFailure : Nat → Nat → Nat → List Byte → Option (ErrCause × Nat)
  | 0, _, _, [] => none
  | 0, pos, _, _ :: _ => some (.trailing, pos)
  | _ + 1, pos, _, [] => some (.truncated, pos)
  | owed + 1, pos, nodes, tag :: rest =>
    if tag ≠ 0x00 ∧ tag ≠ 0x01 then some (.badTag, pos)
    else if nodes = 511 then some (.capacity, pos)
    else if tag = 0x00 then firstFailure (owed + 2) (pos + 1) (nodes + 1) rest
    else
      match rest with
      | [] => some (.truncated, pos + 1)
      | _ :: rest' => firstFailure owed (pos + 2) (nodes + 1) rest'

end Sys2Proof.Machine
end

