-- ==== Sys2Proof/Machine/Lookahead.lean ====
section
/-! DEFINITION. What of UNPACK's output is determined before its payload is popped (`20_memory.md` rule R70 (c)): symbols
that every continuation of the payload gives. -/

namespace Sys2Proof.Machine

/-- The value that all leaves of a tree carry, if they all carry one (R169 (a) admits several leaves of one value). -/
def Tree.common : Tree → Option Byte
  | .empty => none
  | .leaf v => some v
  | .fork l r =>
    match l.common, r.common with
    | some a, some b => if a = b then some a else none
    | some _, none => none
    | none, some _ => none
    | none, none => none

/-- R70 (c): the symbols that are determined when UNPACK's walk stands on entry `cur` with `owed` symbols to come and
`bitsLeft` payload bits still to be popped, whatever these bits are. The next symbol is determined if all leaves below
`cur` carry one value and the bits reach the deepest of them; the symbols after it if also all leaves of the tree carry one
value, as many as the bits give when each walk is the longest one. -/
def determinedSymbols (t : NodeTable) (root : Idx) (bitsLeft owed : Nat) (cur : Idx) : List Byte :=
  match (treeAt t walkFuel cur).common with
  | none => []
  | some v =>
    if owed = 0 ∨ bitsLeft < (treeAt t walkFuel cur).depth then []
    else
      match (treeOf t root).common with
      | none => [v]
      | some w =>
        v :: List.replicate
          (min (owed - 1) ((bitsLeft - (treeAt t walkFuel cur).depth) / (treeOf t root).depth)) w

/-- R70 (c): UNPACK's output that the bytes popped so far determine, `left` bytes before the end of its payload: the symbols
they give, and the symbols that every rest of the payload gives. -/
def determinedByPrefix (t : NodeTable) (root : Idx) (count : Nat) (popped : List Byte) (left : Nat) : List Byte :=
  let u := unpackRun t root count popped
  u.out ++ determinedSymbols t root (8 * left) (count - u.emitted) u.cur

end Sys2Proof.Machine
end

