-- ==== Sys2Proof/Machine/Engine.lean ====
section
/-! DEFINITION. The engine: what the running command does with the bytes it pops, and the moves of the engine while
BUSY under the streaming contract (`20_memory.md` rules R64, R65, R69, R70; `10_state.md` rules R27, R40). -/

namespace Sys2Proof.Machine

/-- R14: a command's result as a function of the state at acceptance and of all the bytes it pops. -/
def body (i : Instr) (s : State) (inp : List Byte) : Body :=
  match i with
  | .clrf => clrfBody s
  | .hist => histBody s inp
  | .build => buildBody s
  | .gencode => gencodeBody s
  | .pack => packBody s inp
  | .unpack => unpackBody s inp
  | .ser => serBody s
  | .deser => deserBody s inp

/-- R27: the command the engine executes while BUSY; none while idle. -/
def State.running (s : State) : Option Instr :=
  if s.busy then
    match decode s.curCmd with
    | .ok i => some i
    | .error _ => none
  else none

/-- R70 (c): the output bytes already determined by the bytes popped so far, when more are still to be popped: PACK's
whole bytes (the next byte holds a bit of the next code, which is still open: a code table with a code for every byte has
codes that begin with 0 and codes that begin with 1), UNPACK's symbols, also those that every rest of the payload gives. -/
def streamed (i : Instr) (s : State) : List Byte :=
  match i with
  | .clrf => []
  | .hist => []
  | .build => []
  | .gencode => []
  | .pack => (packRun s.code s.got).out
  | .unpack => determinedByPrefix s.node s.root s.countL.toNat s.got (s.lenL.toNat - s.got.length)
  | .ser => []
  | .deser => []

/-- R70: the output bytes the engine may have pushed by now: all of them once every input byte is popped. -/
def available (i : Instr) (s : State) : List Byte :=
  if s.got.length = inputLen i s.lenL then (body i s s.got).out else streamed i s

/-- R64, R70 (a): the engine pops bytes of IN, at most `n`, at most what is there and never more than the command's
`LEN_L`. -/
def popMany (n : Nat) (s : State) : State :=
  match s.running with
  | none => s
  | some i =>
    let k := min n (inputLen i s.lenL - s.got.length)
    { s with got := s.got ++ s.inq.take k, inq := s.inq.drop k }

/-- R65, R70 (b), (c): the engine pushes output bytes that are due, at most `n` and at most what OUT takes. -/
def pushMany (n : Nat) (s : State) : State :=
  match s.running with
  | none => s
  | some i =>
    let bs := fittingIn s.outDepth s.outq.length (((available i s).drop s.sent).take n)
    { s with outq := s.outq ++ bs, sent := s.sent + bs.length }

/-- R70 (d), R69, R206: the command completes once it has popped all of its bytes and pushed all of its output; until
then nothing happens. -/
def tryComplete (s : State) : State :=
  match s.running with
  | none => s
  | some i =>
    if s.got.length = inputLen i s.lenL ∧ s.sent = (body i s s.got).out.length then (body i s s.got).complete else s

/-- R17, R70: one move of the engine; a move that is not possible waits. -/
def engineMove (s : State) : EngineMove → State
  | .pop => popMany 1 s
  | .push => pushMany 1 s
  | .complete => tryComplete s

/-- A turn in which the engine goes on until it waits or completes: it takes what IN has for it, gives what OUT
takes, and completes if nothing is left to do. -/
def runUntilWaiting (s : State) : State :=
  let p := popMany s.inq.length s
  tryComplete (pushMany (match p.running with | none => 0 | some i => (available i p).length) p)

/-- The engine's turn in one step: none while idle (R27), else the moves the schedule gives it (log entry 4). -/
def engineTurn (s : State) : State :=
  if s.busy then
    match s.turns with
    | [] => runUntilWaiting s
    | ms :: rest => ms.foldl engineMove { s with turns := rest }
  else s

end Sys2Proof.Machine
end

