-- ==== Sys2Proof/Machine/Commands.lean ====
section
/-! DEFINITION. The meaning of each command: what the CMD write of its word does (`30_encoding.md` rule R93) followed
by the engine's turn, in which the accepted command runs to its completion or to its first wait. -/

namespace Sys2Proof.Machine

/-- CLRF (R111, R93). -/
def execClrf (s : State) : Host.Outcome State Fault Refusal :=
  .next (engineTurn (s.present (State.accept .clrf)))

/-- R93 case 3 before case 4: a HIST that would take TOTAL to `2^64` is not accepted (R112). -/
def issueHist (s : State) : State :=
  if histOverflows s then s.raise .countOverflow s.len else s.accept .hist

/-- HIST (R112, R93). -/
def execHist (s : State) : Host.Outcome State Fault Refusal :=
  .next (engineTurn (s.present issueHist))

/-- BUILD (R121, R93). -/
def execBuild (s : State) : Host.Outcome State Fault Refusal :=
  .next (engineTurn (s.present (State.accept .build)))

/-- GENCODE (R131, R93). -/
def execGencode (s : State) : Host.Outcome State Fault Refusal :=
  .next (engineTurn (s.present (State.accept .gencode)))

/-- PACK (R141, R93). -/
def execPack (s : State) : Host.Outcome State Fault Refusal :=
  .next (engineTurn (s.present (State.accept .pack)))

/-- UNPACK (R151, R93). -/
def execUnpack (s : State) : Host.Outcome State Fault Refusal :=
  .next (engineTurn (s.present (State.accept .unpack)))

/-- SER (R161, R93). -/
def execSer (s : State) : Host.Outcome State Fault Refusal :=
  .next (engineTurn (s.present (State.accept .ser)))

/-- DESER (R166, R93). -/
def execDeser (s : State) : Host.Outcome State Fault Refusal :=
  .next (engineTurn (s.present (State.accept .deser)))

/-- R93 case 2, R215: a CMD write of a word that is no command. -/
def issueIllegal (w : Word) (s : State) : State := s.present (State.raise .illegalCmd w)

end Sys2Proof.Machine
end

