-- ==== Sys2Proof/Machine/Dispatch.lean ====
section
/-! DEFINITION. One arm per command. -/

namespace Sys2Proof.Machine

def exec (i : Instr) (s : State) : Host.Outcome State Fault Refusal :=
  match i with
  | .clrf => Sys2Proof.Machine.execClrf s
  | .hist => Sys2Proof.Machine.execHist s
  | .build => Sys2Proof.Machine.execBuild s
  | .gencode => Sys2Proof.Machine.execGencode s
  | .pack => Sys2Proof.Machine.execPack s
  | .unpack => Sys2Proof.Machine.execUnpack s
  | .ser => Sys2Proof.Machine.execSer s
  | .deser => Sys2Proof.Machine.execDeser s

end Sys2Proof.Machine
end

