-- ==== Sys2Proof/Machine/Registers.lean ====
section
/-! DEFINITION. The register space: the map (`10_state.md` rule R41), what each register reads as (R21 to R36), reads
and writes (`20_memory.md` rules R61 to R63). -/

namespace Sys2Proof.Machine

/-- The registers of R41. -/
inductive Reg where
  | id
  | ctrl
  | status
  | cmd
  | len
  | count
  | outCount
  | errInfo
  | total
  | tree
  | freq (s : Byte)
  | codeLen (s : Byte)
  | codeBits (s : Byte) (w : Fin 4)
  | node (i : Idx) (w : Fin 2)
  | unmapped
deriving DecidableEq, Repr

/-- R41: the register at an aligned byte offset. -/
def Reg.ofOffset (off : Nat) : Reg :=
  if off = 0x0000 then .id
  else if off = 0x0008 then .ctrl
  else if off = 0x0010 then .status
  else if off = 0x0018 then .cmd
  else if off = 0x0020 then .len
  else if off = 0x0028 then .count
  else if off = 0x0030 then .outCount
  else if off = 0x0038 then .errInfo
  else if off = 0x0040 then .total
  else if off = 0x0048 then .tree
  else if 0x0800 ≤ off ∧ off ≤ 0x0FF8 then .freq (BitVec.ofNat 8 ((off - 0x0800) / 8))
  else if 0x1000 ≤ off ∧ off ≤ 0x17F8 then .codeLen (BitVec.ofNat 8 ((off - 0x1000) / 8))
  else if 0x2000 ≤ off ∧ off ≤ 0x3FF8 then
    .codeBits (BitVec.ofNat 8 ((off - 0x2000) / 32)) (Fin.ofNat 4 ((off - 0x2000) / 8))
  else if 0x4000 ≤ off ∧ off ≤ 0x5FE8 then
    .node (BitVec.ofNat 9 ((off - 0x4000) / 16)) (Fin.ofNat 2 ((off - 0x4000) / 8))
  else .unmapped

/-- R41: the byte offset of a register; none for the unmapped ones. -/
def Reg.offset : Reg → Option Nat
  | .id => some 0x0000
  | .ctrl => some 0x0008
  | .status => some 0x0010
  | .cmd => some 0x0018
  | .len => some 0x0020
  | .count => some 0x0028
  | .outCount => some 0x0030
  | .errInfo => some 0x0038
  | .total => some 0x0040
  | .tree => some 0x0048
  | .freq s => some (0x0800 + 8 * s.toNat)
  | .codeLen s => some (0x1000 + 8 * s.toNat)
  | .codeBits s w => some (0x2000 + 32 * s.toNat + 8 * w.val)
  | .node i w => if i = NIL then none else some (0x4000 + 16 * i.toNat + 8 * w.val)
  | .unmapped => none

/-- R32: `left` in bits 8:0, `right` in 17:9, `value` in 25:18, `leaf` in bit 26, `valid` in bit 27. -/
def Node.word0 (n : Node) : Word :=
  0#36 ++ BitVec.ofBool n.valid ++ BitVec.ofBool n.leaf ++ n.value ++ n.right ++ n.left

/-- R36: `len` in bits 7:0 and `valid` in bit 8. -/
def CodeEntry.lenWord (e : CodeEntry) : Word := 0#55 ++ BitVec.ofBool e.valid ++ e.len

/-- R36: word `w` holds `bits[64*w+63 : 64*w]`. -/
def CodeEntry.bitsWord (e : CodeEntry) (w : Fin 4) : Word := e.bits.extractLsb' (64 * w.val) 64

/-- R34: ROOT in bits 8:0, NNODES in bits 24:16. -/
def State.treeWord (s : State) : Word := 0#39 ++ s.nnodes ++ 0#7 ++ s.root

/-- The value of a register while the block is idle (R21 to R36); an unmapped offset reads 0 (R41). -/
def State.regValue (s : State) : Reg → Word
  | .id => Config.idValue
  | .ctrl => s.ctrl
  | .status => s.status
  | .cmd => s.curCmd
  | .len => s.len
  | .count => s.count
  | .outCount => s.outCount
  | .errInfo => s.errInfo
  | .total => s.total
  | .tree => s.treeWord
  | .freq b => freqAt s.freq b
  | .codeLen b => (codeAt s.code b).lenWord
  | .codeBits b w => (codeAt s.code b).bitsWord w
  | .node i w => if w = 0 then (nodeAt s.node i).word0 else (nodeAt s.node i).freq
  | .unmapped => 0

/-- R61: the registers whose reads while BUSY return "an *unspecified* 64-bit value". -/
def Reg.unspecifiedWhileBusy : Reg → Bool
  | .outCount => true
  | .total => true
  | .tree => true
  | .freq _ => true
  | .codeLen _ => true
  | .codeBits _ _ => true
  | .node _ _ => true
  | .id => false
  | .ctrl => false
  | .status => false
  | .cmd => false
  | .len => false
  | .count => false
  | .errInfo => false
  | .unmapped => false

/-- R61: the value a read returns. While BUSY the listed registers and the two derived bits of STATUS are a free value. -/
def State.readValue (s : State) (r : Reg) : Word :=
  if s.busy then
    if r.unspecifiedWhileBusy then Config.freeRead s.draws
    else if r = .status then
      statusWith s ((Config.freeRead s.draws).getLsbD 4) ((Config.freeRead s.draws).getLsbD 5)
    else s.regValue r
  else s.regValue r

/-- R61: whether a read uses up a free value. -/
def State.readDraws (s : State) (r : Reg) : Bool := s.busy && (r.unspecifiedWhileBusy || r == .status)

/-- R61, R63: the accesses that exist: aligned, within 0x0000 to 0x7FF8, 8 bytes. -/
def Access.legalRead (a : Access) : Bool := a.off % 8 == 0 && decide (a.off ≤ 0x7FF8) && a.size == 8

/-- R63: and, for a write, "byte strobes that cover all 8 bytes". -/
def Access.legalWrite (a : Access) : Bool := a.legalRead && a.strobes == 0xFF

/-- The legal access of an offset. -/
def Access.full (off : Nat) : Access := { off := off, size := 8, strobes := 0xFF }

/-- R63, R241: an illegal access, and any access while `rst` is 1, gets a bus error and changes nothing. -/
def State.busError (s : State) : State := { s with resp := .busError }

/-- R61, R63: a read transaction. -/
def State.busRead (a : Access) (s : State) : State :=
  if s.rst || !a.legalRead then s.busError
  else
    let r := Reg.ofOffset a.off
    { s with resp := .data (s.readValue r), draws := if s.readDraws r then s.draws + 1 else s.draws }

/-- R22: SRST is bit 0, and then bits 2:1 of the same write are ignored; else IE_DONE is bit 1 and IE_ERR bit 2. -/
def State.writeCtrl (v : Word) (s : State) : State :=
  if v.getLsbD 0 then s.softReset else { s with ieDone := v.getLsbD 1, ieErr := v.getLsbD 2 }

/-- R23: DONE is "W1C"; "A STATUS write ... affects only DONE". -/
def State.writeStatus (v : Word) (s : State) : State := if v.getLsbD 1 then { s with done := false } else s

/-- R62: a register write other than one to CMD; a write to a read-only register or an unmapped offset is ignored. -/
def State.writeReg (r : Reg) (v : Word) (s : State) : State :=
  match r with
  | .ctrl => s.writeCtrl v
  | .status => s.writeStatus v
  | .len => { s with len := v }
  | .count => { s with count := v }
  | .id => s
  | .cmd => s
  | .outCount => s
  | .errInfo => s
  | .total => s
  | .tree => s
  | .freq _ => s
  | .codeLen _ => s
  | .codeBits _ _ => s
  | .node _ _ => s
  | .unmapped => s

end Sys2Proof.Machine
end

