-- ==== Sys2Proof/Machine/HostPort.lean ====
section
/-! DEFINITION. The host's side of a step: its next action taken from the script, and what the action does before the
engine's turn (`00_scope.md` rule R17; `20_memory.md` rules R61 to R65; `30_encoding.md` rules R93, R99;
`70_reset_and_hazards.md` rule R241). A CMD write of a command word is handed on as a command. -/

namespace Sys2Proof.Machine

/-- What a step has to do after the host's action: run a command, or nothing more than the engine's turn. -/
inductive Fetched where
  | command (i : Instr) (s : State)
  | acted (s : State)

/-- R241: the `rst` input goes to a level. While it is 1 the block holds its reset state. -/
def State.driveRst (level : Bool) (s : State) : State :=
  if level then { s.softReset with rst := true } else { s with rst := false }

/-- R64: the offered byte is pushed if `in_ready` is 1; else the host goes on offering it (R253). -/
def offerByte (b : Byte) (rest : List HostAction) (s : State) : State :=
  if s.inReady then { s.pushIn b with script := rest } else s

/-- R65: the head of OUT is taken if `out_valid` is 1; else the host goes on waiting. -/
def takeByte (rest : List HostAction) (s : State) : State :=
  if s.outValid then { s.popOut with script := rest } else s

/-- R99, WAIT: one read of STATUS; the host goes on when BUSY reads 0. -/
def waitIdle (rest : List HostAction) (s : State) : State :=
  let t := s.busRead (Access.full 0x0010)
  match t.resp with
  | .data v => if v.getLsbD 0 then t else { t with script := rest }
  | .none => t
  | .written => t
  | .busError => t

/-- R62, R63, R93: a write transaction. A legal write to CMD presents its word. -/
def busWrite (a : Access) (v : Word) (s : State) : Fetched :=
  if s.rst || !a.legalWrite then .acted s.busError
  else
    let t := { s with resp := BusResp.written }
    if Reg.ofOffset a.off = .cmd then
      match decode v with
      | .ok i => .command i t
      | .error _ => .acted (issueIllegal v t)
    else .acted (t.writeReg (Reg.ofOffset a.off) v)

/-- The host's next action. An empty script is a host that does nothing. -/
def fetch (s : State) : Fetched :=
  match s.script with
  | [] => .acted s
  | .rd a :: rest => .acted ({ s with script := rest }.busRead a)
  | .wr a v :: rest => busWrite a v { s with script := rest }
  | .push b :: rest => .acted (offerByte b rest s)
  | .pop :: rest => .acted (takeByte rest s)
  | .wait :: rest => .acted (waitIdle rest s)
  | .rst level :: rest => .acted ({ s with script := rest }.driveRst level)

/-- R241: no engine turn while `rst` is 1. -/
def afterAction (s : State) : State := if s.rst then s else engineTurn s

end Sys2Proof.Machine
end

