-- ==== Sys2Proof/Machine/Step.lean ====
section
/-! DEFINITION. One step of the system: one action of the host, then one turn of the engine (`00_scope.md` rule R17). -/

namespace Sys2Proof.Machine

/-- A CMD write that carries a command word is `exec` of that command; every other action takes effect (R62: "before the
next host access is performed") and then the engine has its turn. An action that the block keeps waiting stays in the
script. -/
def step (s : State) : Host.Outcome State Fault Refusal :=
  match fetch s with
  | .command i t => exec i t
  | .acted t => .next (afterAction t)

/-- `s` with the write of a command word to CMD as the host's very next action and `rst` low (log entry 3: the program of
this block is the host's script). -/
def State.withFetchWord (s : State) (nbits w : Nat) : State :=
  { s with
    rst := false,
    script := .wr { off := 0x0018, size := 8, strobes := 0xFF } (BitVec.ofNat 64 (w % 2 ^ nbits)) :: s.script }

end Sys2Proof.Machine
end

