-- ==== Sys2Proof/Machine/Firmware.lean ====
section
/-! DEFINITION. The host firmware protocol (`49_firmware_protocol.md`): the frame layout, `compress` and `decompress`
as pure transformations (R180). A pass is computed by the same functions as the block's command bodies; the command
sequences themselves are in Script.lean. The byte order of the header fields is an argument (R10, R182). -/

namespace Sys2Proof.Machine.Firmware

/-- R181: the fields of a frame header. -/
structure Header where
  treeSize : Word
  dataSize : Word
  passDepth : Byte
deriving DecidableEq, Repr

/-- R182: an 8-byte header field. -/
def fieldBytes (e : Endian) (v : Word) : List Byte :=
  match e with
  | .little => lanesOf v
  | .big => (lanesOf v).reverse

/-- R182: the unsigned number of an 8-byte header field. -/
def fieldValue (e : Endian) (bs : List Byte) : Word :=
  match e with
  | .little => BitVec.ofNat 64 (natOfLanes bs)
  | .big => BitVec.ofNat 64 (natOfLanes bs.reverse)

/-- R181: the 17 bytes of a header. -/
def headerBytes (e : Endian) (h : Header) : List Byte :=
  fieldBytes e h.treeSize ++ fieldBytes e h.dataSize ++ [h.passDepth]

/-- R183: pass-depth as a signed number, `sext_8(byte)`. -/
def Header.depthValue (h : Header) : Int := h.passDepth.toInt

/-- R183: nonzero = "decode this frame's output and repeat", also for the negative values. -/
def Header.continues (h : Header) : Bool := h.depthValue != 0

/-- R189: the header off the front of a buffer; none when the buffer is shorter than 17 bytes (R191). -/
def parseHeader (e : Endian) (cur : List Byte) : Option Header :=
  if cur.length < Config.headerBytes then none
  else
    some { treeSize := fieldValue e (cur.take 8), dataSize := fieldValue e ((cur.drop 8).take 8),
           passDepth := (cur.drop 16).headD 0 }

/-- R185: the tree a pass builds over its buffer. -/
def passTree (cur : List Byte) : TreeTable := buildTree (countBytes zeroFreq cur)

/-- R185: the bytes SER pushes in a pass. -/
def passTreeBytes (cur : List Byte) : List Byte := serialize (passTree cur).node (passTree cur).root

/-- R185: the code table of a pass. -/
def passCodes (cur : List Byte) : CodeTable := genCodes (passTree cur).node (passTree cur).root

/-- R185: the bytes PACK pushes in a pass. -/
def passPayload (cur : List Byte) : List Byte := (packRun (passCodes cur) cur).flushed

/-- R185: "`frame = hdr(tree-size = t, data-size = n, pass-depth = depth) ++ tree ++ payload`". -/
def frame (e : Endian) (tree payload : List Byte) (n depth : Nat) : List Byte :=
  headerBytes e
    { treeSize := BitVec.ofNat 64 tree.length, dataSize := BitVec.ofNat 64 n, passDepth := BitVec.ofNat 8 depth }
    ++ tree ++ payload

/-- R185: one encode pass. The same pass on the block, step by step, is `Driver.encodePass`. -/
def encodePass (e : Endian) (cur : List Byte) (depth : Nat) : List Byte :=
  frame e (passTreeBytes cur) (passPayload cur) cur.length depth

/-- R186: "`while depth < 127`": `left` is `127 - depth`, so the loop is bounded as R187 says. `kept` is R184's `cur`
as well. R185: a pass over `2^64` bytes or more cannot be expressed, so none is made (log entry 9). -/
def compressLoop (e : Endian) : Nat → Nat → List Byte → List Byte
  | 0, _, kept => kept
  | left + 1, depth, kept =>
    let frame := encodePass e kept (depth + 1)
    if kept.length < 2 ^ 64 ∧ frame.length < kept.length then compressLoop e left (depth + 1) frame else kept

/-- R186: `compress(B)`: the first frame is always kept. R185: a buffer of `2^64` bytes or more cannot be expressed. -/
def compress (e : Endian) (b : List Byte) : Option (List Byte) :=
  if b.length < 2 ^ 64 then some (compressLoop e 127 0 (encodePass e b 0)) else none

/-- R193: the classes of the errors a pass reports. -/
inductive FwError where
  | malformedTree
  | invalidStream
  /-- R193 (d): only in `compress`, and only through a firmware bug. -/
  | inputMismatch
  /-- R193: "ILLEGAL_CMD and COUNT_OVERFLOW are firmware bugs, not input errors". -/
  | firmwareBug
deriving DecidableEq, Repr

/-- R193, R211: the class of STATUS.ERRCODE. -/
def errorClass (code : BitVec 4) : FwError :=
  if code = 2 then .malformedTree
  else if code = 3 then .invalidStream
  else if code = 4 then .inputMismatch
  else .firmwareBug

/-- R190: one decode pass: DESER of the tree bytes, then UNPACK of the payload; a failure gives no output (R193). The same
pass on the block, step by step, is `Driver.decodePass`. DESIGN CHOICE (log entry 18): a payload of `2^64` bytes or more is
decoded like any other, although LEN cannot hold its length: the spec states that limit for encoding only (R185). -/
def decodePass (tree payload : List Byte) (count : Nat) : Except FwError (List Byte) :=
  match parseTree tree with
  | .error _ => .error .malformedTree
  | .ok t =>
    let u := unpackRun t.node t.root count payload
    match u.err with
    | some _ => .error .invalidStream
    | none => .ok u.out

/-- R189: one round of the loop: the decoded bytes and whether another round follows. -/
def decodeRound (e : Endian) (cur : List Byte) : Except FwError (List Byte × Bool) :=
  match parseHeader e cur with
  | none => .error .invalidStream
  | some h =>
    if cur.length - Config.headerBytes < h.treeSize.toNat then .error .invalidStream
    else
      let after := cur.drop Config.headerBytes
      match decodePass (after.take h.treeSize.toNat) (after.drop h.treeSize.toNat) h.dataSize.toNat with
      | .error x => .error x
      | .ok out => .ok (out, h.continues)

/-- R189: the loop, `rounds` times at most; none when it has not ended by then. -/
def decompressLoop (e : Endian) : Nat → List Byte → Option (Except FwError (List Byte))
  | 0, _ => none
  | rounds + 1, cur =>
    match decodeRound e cur with
    | .error x => some (.error x)
    | .ok (out, true) => decompressLoop e rounds out
    | .ok (out, false) => some (.ok out)

end Sys2Proof.Machine.Firmware
end

