-- ==== Sys2Proof/Machine/Script.lean ====
section
/-! DEFINITION. The script notation (`30_encoding.md` rules R99, R100) as lists of host actions, and the two command
sequences of a pass (`49_firmware_protocol.md` rules R185, R190). -/

namespace Sys2Proof.Machine.Script

/-- R99: `WR <reg>, <value>`. -/
def wr (off : Nat) (v : Word) : List HostAction := [.wr (Access.full off) v]

/-- R99: `RD <reg>`. -/
def rd (off : Nat) : List HostAction := [.rd (Access.full off)]

/-- R99: `PUSH <hex bytes>`. -/
def push (bs : List Byte) : List HostAction := bs.map .push

/-- R99: `POP <n>`. -/
def pop (n : Nat) : List HostAction := List.replicate n .pop

/-- R99: `WAIT`. -/
def wait : List HostAction := [.wait]

/-- R99: `CLRF`. -/
def clrf : List HostAction := wr 0x018 0x01

/-- R99: `HIST <len>`. -/
def hist (len : Word) : List HostAction := wr 0x020 len ++ wr 0x018 0x02

/-- R99: `BUILD`. -/
def build : List HostAction := wr 0x018 0x03

/-- R99: `GENCODE`. -/
def gencode : List HostAction := wr 0x018 0x04

/-- R99: `PACK <len>`. -/
def pack (len : Word) : List HostAction := wr 0x020 len ++ wr 0x018 0x05

/-- R99: `UNPACK <len>, <count>`. -/
def unpack (len count : Word) : List HostAction := wr 0x020 len ++ wr 0x028 count ++ wr 0x018 0x06

/-- R99: `SER`. -/
def ser : List HostAction := wr 0x018 0x07

/-- R99: `DESER <len>`. -/
def deser (len : Word) : List HostAction := wr 0x020 len ++ wr 0x018 0x08

/-- R100: `SRST`. -/
def srst : List HostAction := wr 0x008 0x1

/-- R100: `ACK`. -/
def ack : List HostAction := wr 0x010 0x2

/-- R100: `IRQEN <d>, <e>`, "`WR CTRL, (d << 1) or (e << 2)`". -/
def irqen (d e : Bool) : List HostAction :=
  wr 0x008 (((BitVec.ofBool d).setWidth 64 <<< 1) ||| ((BitVec.ofBool e).setWidth 64 <<< 2))

/-- The number of bytes of a buffer as an operand. DESIGN CHOICE (log entry 18): for `2^64` bytes or more, which LEN cannot
hold, it is the number's low 64 bits; the spec states the limit for encoding only (R185). -/
def lenWord (bs : List Byte) : Word := BitVec.ofNat 64 bs.length

/-- R100, R185: `ENCODE_PASS <buf>`, with the byte counts `p` and `t` that the two reads of OUT_COUNT return. -/
def encodePass (buf : List Byte) (p t : Nat) : List HostAction :=
  clrf ++ wait ++ push buf ++ hist (lenWord buf) ++ wait ++ build ++ wait ++ gencode ++ wait
    ++ push buf ++ pack (lenWord buf) ++ wait ++ rd 0x030 ++ pop p ++ ser ++ wait ++ rd 0x030 ++ pop t

/-- R100: the expansion of `DECODE_PASS <tree>, <payload>, <count>`, whose POP follows the WAIT. The firmware's decode pass as
R190 gives it, with POP while waiting, RD OUT_COUNT and the failure path, is `Driver.decodePass`. -/
def decodePass (tree payload : List Byte) (count : Nat) : List HostAction :=
  push tree ++ deser (lenWord tree) ++ wait ++ push payload
    ++ unpack (lenWord payload) (BitVec.ofNat 64 count) ++ wait ++ pop count

end Sys2Proof.Machine.Script
end

