-- ==== Sys2Proof/Machine/Driver.lean ====
section
/-! DEFINITION. The firmware on the block: a host that reacts to `in_ready`, `out_valid` and STATUS, and its two passes with
the failure path (`49_firmware_protocol.md` rules R185, R190, R193; `70_reset_and_hazards.md` rule R253; log entry 17). Each of its
actions is one step of the system. -/

namespace Sys2Proof.Machine.Driver

/-- R17: the host's next action is `a`, then the engine has its turn. A step always answers a next state. -/
def act (a : HostAction) (s : State) : State :=
  match step { s with script := [a] } with
  | .next t => t
  | .fault _ => s
  | .refused _ => s

/-- The actions of script lines (R99), one after the other. -/
def acts (as : List HostAction) (s : State) : State := as.foldl (fun t a => act a t) s

/-- R61: the word the bus answers to a read; none on a bus error. -/
def readData (s : State) : Option Word :=
  match s.resp with
  | .data v => some v
  | .none => none
  | .written => none
  | .busError => none

/-- R64, R253 (c): bytes are pushed before the command as long as IN takes them; the bytes that are left. -/
def feed : List Byte → State → List Byte × State
  | [], s => ([], s)
  | b :: rest, s => if s.inReady then feed rest (act (.push b) s) else (b :: rest, s)

/-- R190, "(POP while waiting) ; WAIT", and R253 (a), (c): until STATUS reads BUSY = 0 the firmware goes on pushing the bytes
that are left and taking what OUT holds, in at most `fuel` actions (none when they are used up). The STATUS word read last. -/
def serve : Nat → List Byte → State → Option (State × Word)
  | 0, _, _ => none
  | fuel + 1, rest, s =>
    if rest ≠ [] ∧ s.inReady = true then serve fuel (rest.drop 1) (act (.push (rest.headD 0)) s)
    else if s.outValid then serve fuel rest (act .pop s)
    else
      let t := act (.rd (Access.full 0x010)) s
      match readData t with
      | none => none
      | some v => if v.getLsbD 0 then serve fuel rest t else some (t, v)

/-- PUSH of a command's input, the command's script line, then the firmware serves it to its end. -/
def runCommand (fuel : Nat) (line : List HostAction) (input : List Byte) (s : State) : Option (State × Word) :=
  serve fuel (feed input s).1 (acts line (feed input s).2)

/-- What the firmware has in hand: none when `fuel` is used up or the bus gives no answer, else the block's state and a result
or the error it reports (R193). -/
abbrev Pass (α : Type) := Option (State × Except Firmware.FwError α)

/-- The next part of a pass; a failure ends it. -/
def Pass.andThen {α β : Type} (p : Pass α) (f : α → State → Pass β) : Pass β :=
  match p with
  | none => none
  | some (s, .error e) => some (s, .error e)
  | some (s, .ok a) => f a s

/-- R190, R217: one command of a pass. If STATUS.ERR (bit 2) is set after it the pass has failed: "the firmware discards every
byte it popped from OUT during this pass" (the result carries none), "reports the error class of STATUS.ERRCODE to its caller,
and issues SRST before any further use of the block". -/
def command (fuel : Nat) (line : List HostAction) (input : List Byte) (s : State) : Pass Unit :=
  match runCommand fuel line input s with
  | none => none
  | some (t, status) =>
    if status.getLsbD 2 then some (acts Script.srst t, .error (Firmware.errorClass (status.extractLsb' 8 4)))
    else some (t, .ok ())

/-- RD OUT_COUNT and the bytes popped from OUT since `already` bytes were taken, as many as it says. -/
def output (already : Nat) (s : State) : Pass (List Byte) :=
  let t := act (.rd (Access.full 0x030)) s
  match readData t with
  | none => none
  | some n => some (t, .ok ((t.taken.drop already).take n.toNat))

/-- R190: one decode pass on the block: DESER of the tree bytes, UNPACK of the payload, RD OUT_COUNT. DESIGN CHOICE (log entry
18): of a payload of `2^64` bytes or more LEN gets the low 64 bits of the length. -/
def decodePass (fuel : Nat) (tree payload : List Byte) (count : Nat) (s : State) : Pass (List Byte) :=
  (command fuel (Script.deser (Script.lenWord tree)) tree s).andThen fun _ d =>
    (command fuel (Script.unpack (Script.lenWord payload) (BitVec.ofNat 64 count)) payload d).andThen fun _ u =>
      output s.taken.length u

/-- R185: one encode pass on the block: the buffer passes through IN for HIST and again for PACK, then SER. The bytes are
popped while the firmware waits, as R253 asks for a bounded OUT. -/
def encodePass (e : Endian) (fuel : Nat) (cur : List Byte) (depth : Nat) (s : State) : Pass (List Byte) :=
  (command fuel Script.clrf [] s).andThen fun _ c =>
    (command fuel (Script.hist (Script.lenWord cur)) cur c).andThen fun _ h =>
      (command fuel Script.build [] h).andThen fun _ b =>
        (command fuel Script.gencode [] b).andThen fun _ g =>
          (command fuel (Script.pack (Script.lenWord cur)) cur g).andThen fun _ p =>
            (output g.taken.length p).andThen fun payload q =>
              (command fuel Script.ser [] q).andThen fun _ r =>
                (output q.taken.length r).andThen fun tree t =>
                  some (t, .ok (Firmware.frame e tree payload cur.length depth))

end Sys2Proof.Machine.Driver
end

