-- ==== Sys2Proof/Safety.lean ====
section
/-! DEFINITION. What a good state is: the invariants the spec states for the block, in the terms the claims use. -/

namespace Sys2Proof.Machine

/-! ## Flags (R23, R211, R212) -/

/-- R23: "BUSY and DONE are never both 1. BUSY and ERR are never both 1 ... DONE and ERR cannot both be 1 either". -/
def FlagsExclusive (s : State) : Prop :=
  ¬(s.busy = true ∧ s.done = true) ∧ ¬(s.busy = true ∧ s.err = true) ∧ ¬(s.done = true ∧ s.err = true)

/-- R212: "No other (ERRCODE, ERRSUB) pair is ever written"; before the first error they and ERRINFO are 0 (R43). -/
def ErrorRecorded (s : State) : Prop :=
  (s.err = false → s.errCode = 0 ∧ s.errSub = 0 ∧ s.errInfo = 0) ∧
    (s.err = true → ∃ c : ErrCause, s.errCode = c.code ∧ s.errSub = c.sub)

/-! ## Counters (R31) -/

/-- The sum of all counters, as a natural number. -/
def freqSum (f : FreqTable) : Nat := (f.toList.map BitVec.toNat).sum

/-- R31: "`TOTAL = sum over s of FREQ[s]`, as natural numbers, and `TOTAL < 2^64`" (a 64-bit field is below `2^64`). -/
def TotalIsSum (s : State) : Prop := s.total.toNat = freqSum s.freq

/-- R112: an accepted HIST has passed the issue-time check. -/
def HistFits (s : State) : Prop := s.running = some .hist → s.total.toNat + s.lenL.toNat < 2 ^ 64

/-! ## The node table (R33) -/

/-- A tree with the index of each of its nodes. -/
inductive Shape where
  | leaf (i : Idx) (v : Byte)
  | fork (i : Idx) (l r : Shape)
deriving DecidableEq, Repr

/-- The index of the topmost node. -/
def Shape.index : Shape → Idx
  | .leaf i _ => i
  | .fork i _ _ => i

/-- All indices, in pre-order. -/
def Shape.indices : Shape → List Idx
  | .leaf i _ => [i]
  | .fork i l r => i :: (l.indices ++ r.indices)

/-- The tree without its indices (R35). -/
def Shape.tree : Shape → Tree
  | .leaf _ v => .leaf v
  | .fork _ l r => .fork l.tree r.tree

/-- The node table holds the tree: each of its nodes stands at its index, with the fields R32 gives it. -/
def Shape.StandsIn (t : NodeTable) : Shape → Prop
  | .leaf i v => nodeAt t i = Node.mkLeaf v (nodeAt t i).freq
  | .fork i l r =>
    nodeAt t i = Node.mkInner l.index r.index (nodeAt t i).freq ∧ l.StandsIn t ∧ r.StandsIn t

/-- R33 items 1 to 4 as one fact: either there is no tree and no valid entry, or the valid entries are exactly the
nodes of one tree, each once, with its root at ROOT; an invalid entry is all 0 (R32). -/
def TreeStands (t : NodeTable) (root nnodes : Idx) : Prop :=
  (root = NIL ∧ nnodes = 0 ∧ ∀ i, nodeAt t i = Node.invalid) ∨
    ∃ sh : Shape, root = sh.index ∧ sh.StandsIn t ∧ sh.indices.Nodup ∧ nnodes.toNat = sh.indices.length ∧
      ∀ i, i ∉ sh.indices → nodeAt t i = Node.invalid

/-- The node table invariant of a state. -/
def TreeInv (s : State) : Prop := TreeStands s.node s.root s.nnodes

/-- R33: an entry that a walk from ROOT along `.left` and `.right` reaches. -/
inductive Reached (t : NodeTable) (root : Idx) : Idx → Prop where
  | root : root ≠ NIL → Reached t root root
  | left {i : Idx} : Reached t root i → (nodeAt t i).leaf = false → Reached t root (nodeAt t i).left
  | right {i : Idx} : Reached t root i → (nodeAt t i).leaf = false → Reached t root (nodeAt t i).right

/-! ## The code table (R36) -/

/-- R36: an invalid entry is all 0; "`bits < 2^len`". -/
def CodesTidy (c : CodeTable) : Prop :=
  ∀ b : Byte, ((codeAt c b).valid = false → codeAt c b = CodeEntry.invalid) ∧
    (codeAt c b).bits.toNat < 2 ^ (codeAt c b).len.toNat

/-- R36, R121, R166: the code table is invalid or GENCODE's of the tree the block holds: BUILD and DESER invalidate it. -/
def CodesOfTree (s : State) : Prop := s.code = noCodes ∨ s.code = genCodes s.node s.root

/-- A code is a prefix of a code. -/
def PrefixFree (c : CodeTable) : Prop :=
  ∀ a b : Byte, a ≠ b → (codeAt c a).valid = true → (codeAt c b).valid = true →
    ¬(codeBits (codeAt c a)).IsPrefix (codeBits (codeAt c b))

/-! ## The sequencer and the queues (R27, R39, R40, R70) -/

/-- R24, R27, R40, R70: CUR_CMD is 0 or a command word; an idle engine holds nothing of a command; a running one has
popped at most its input, and what it pushed was due. -/
def SequencerInv (s : State) : Prop :=
  (s.curCmd = 0 ∨ ∃ i, s.curCmd = encode i) ∧
    (s.busy = false → s.got = [] ∧ s.sent = 0) ∧
    (s.busy = true → ∃ i, s.running = some i ∧ s.got.length ≤ inputLen i s.lenL ∧ s.sent ≤ (available i s).length)

/-- Whether a queue of `used` bytes is within its capacity. -/
def within : Depth → Nat → Bool
  | .unbounded, _ => true
  | .upTo m, used => decide (used ≤ m + 1)

/-- R39: the queues hold at most their capacities. -/
def QueuesFit (s : State) : Prop := within s.inDepth s.inq.length = true ∧ within s.outDepth s.outq.length = true

/-- R241: while `rst` is 1 "the block holds its reset state". -/
def ResetHeld (s : State) : Prop := s.rst = true → s = s.softReset

/-- R217, R241, R242: the actions that reset the block: `rst` driven to 1, and a legal write of CTRL with SRST = 1. -/
def resets (s : State) : Bool :=
  match s.script with
  | [] => false
  | .rst level :: _ => level
  | .wr a v :: _ => !s.rst && a.legalWrite && a.off == 0x0008 && v.getLsbD 0
  | .rd _ :: _ => false
  | .push _ :: _ => false
  | .pop :: _ => false
  | .wait :: _ => false

/-- R61's list: the registers of which a read while BUSY returns an unspecified value: OUT_COUNT, TOTAL, TREE, FREQ, CODE and
NODE (of STATUS it is EMPTY and SINGLE only). -/
def InexactWhileBusy (r : Reg) : Prop :=
  r = .outCount ∨ r = .total ∨ r = .tree ∨ (∃ b, r = .freq b) ∨ (∃ b, r = .codeLen b) ∨ (∃ b w, r = .codeBits b w) ∨
    ∃ i w, r = .node i w

/-- A block that takes a command (R93 case 1 does not apply) and whose engine is not held up by the schedule. -/
def Ready (s : State) : Prop := s.busy = false ∧ s.err = false ∧ s.turns = []

/-- OUT takes `n` more bytes. -/
def OutTakes (s : State) (n : Nat) : Prop := within s.outDepth (s.outq.length + n) = true

end Sys2Proof.Machine
end

