-- ==== Sys2Proof/Certificates/Slice0/Obligations.lean ====
section
/-! DEFINITION. The statements about the model. Each docstring names the rules of `spec/` that it rests on, or says
that the statement is derived; OBLIGATIONS.json says which rules are stated whole. Fields of the state that are the
model's own (`script`, `resp`, `taken`, `turns`, `draws`, `got`, `sent`) are log entries 1 to 5 and 7; `Ready` asks for a
schedule that does not hold up the engine (log entry 4). -/

open Sys2Proof Sys2Proof.Machine

/-! ## Encoding and decoding -/

/-- R91: the eight words of the table decode to their commands, and a few others (R94) to no command. -/
def Obligations.CommandWordsDecode : Prop :=
  decode 0x0000000000000001 = .ok .clrf ∧ decode 0x0000000000000002 = .ok .hist ∧
  decode 0x0000000000000003 = .ok .build ∧ decode 0x0000000000000004 = .ok .gencode ∧
  decode 0x0000000000000005 = .ok .pack ∧ decode 0x0000000000000006 = .ok .unpack ∧
  decode 0x0000000000000007 = .ok .ser ∧ decode 0x0000000000000008 = .ok .deser ∧
  decode 0x0000000000000000 = .error .opcodeZero ∧ decode 0x0000000000000009 = .error .opcodeUnlisted ∧
  decode 0x0000000000000103 = .error .reservedBits ∧ decode 0x8000000000000001 = .error .reservedBits

/-- R90, R91, R94: decoding an encoded command gives it back, from the word and from its byte lanes; each command has one
word; and a word decodes exactly when it has the form of R90 and R91. -/
def Obligations.DecodeEncodeAgree : Prop :=
  (∀ i : Instr, decode (encode i) = .ok i ∧ decodeLanes (encodeLanes i) = .ok i) ∧
  (∀ (w : Word) (i : Instr), decode w = .ok i → w = encode i) ∧
  ∀ w : Word, CommandWord.wellFormed w = true ↔ ∃ i, decode w = .ok i

/-! ## Reset -/

/-- R43: what every register and both queues hold after reset. -/
def Obligations.ResetLeavesTheStatedValues : Prop :=
  State.reset.regValue .id = 0x0000000148554646 ∧ State.reset.regValue .ctrl = 0 ∧
  State.reset.regValue .status = 0x10 ∧ State.reset.regValue .cmd = 0 ∧ State.reset.regValue .len = 0 ∧
  State.reset.regValue .count = 0 ∧ State.reset.lenL = 0 ∧ State.reset.countL = 0 ∧
  State.reset.regValue .outCount = 0 ∧ State.reset.regValue .errInfo = 0 ∧ State.reset.regValue .total = 0 ∧
  State.reset.root = NIL ∧ State.reset.nnodes = 0 ∧ State.reset.regValue .tree = 0x1FF ∧
  (∀ b, State.reset.regValue (.freq b) = 0) ∧ (∀ i, nodeAt State.reset.node i = Node.invalid) ∧
  (∀ i w, State.reset.regValue (.node i w) = 0) ∧ (∀ b, codeAt State.reset.code b = CodeEntry.invalid) ∧
  (∀ b, State.reset.regValue (.codeLen b) = 0) ∧ (∀ b w, State.reset.regValue (.codeBits b w) = 0) ∧
  State.reset.inq = [] ∧ State.reset.outq = [] ∧ State.reset.irq = false

/-- Derived: the invariants of the block hold after reset. -/
def Obligations.ResetStateIsGood : Prop :=
  FlagsExclusive State.reset ∧ ErrorRecorded State.reset ∧ TotalIsSum State.reset ∧ HistFits State.reset ∧
  TreeInv State.reset ∧ CodesTidy State.reset.code ∧ CodesOfTree State.reset ∧ SequencerInv State.reset ∧
  QueuesFit State.reset ∧ ResetHeld State.reset

/-- R242, R22: a CTRL write with SRST = 1 puts every element of the block's state at its reset value, in every state,
whatever its bits 2:1 carry; the host side goes on (the model's own fields). -/
def Obligations.SoftResetRestoresResetState : Prop :=
  ∀ (s : State) (v : Word) (rest : List HostAction),
    s.rst = false → s.script = .wr (Access.full 0x0008) v :: rest → v.getLsbD 0 = true →
    step s = .next
      { State.reset with
        inDepth := s.inDepth, outDepth := s.outDepth, script := rest, turns := s.turns, resp := .written,
        taken := s.taken, draws := s.draws }

/-- R241: `rst` resets the block at any time; while it is 1 both ports are closed, `irq` is 0 and a register access gets a
bus error and changes nothing; when it goes to 0 the block is idle at its reset values. -/
def Obligations.ResetInputHoldsResetState : Prop :=
  (∀ (s : State) (rest : List HostAction), s.script = .rst true :: rest →
    step s = .next { s.softReset with script := rest, rst := true }) ∧
  (∀ s : State, s.rst = true → s.inReady = false ∧ s.outValid = false ∧ s.irq = false) ∧
  (∀ (s : State) (a : Access) (v : Word) (rest : List HostAction), s.rst = true →
    (s.script = .rd a :: rest ∨ s.script = .wr a v :: rest) →
    step s = .next { s with script := rest, resp := .busError }) ∧
  (∀ (s : State) (rest : List HostAction), s.rst = true → ResetHeld s → s.script = .rst false :: rest →
    step s = .next { s.softReset with script := rest, rst := false })

/-! ## Steps and command writes -/

/-- Derived (R24, R62, R93): a legal write of a command word to CMD is `exec` of the command; the step adds that the host's
action is over and that the bus has answered. -/
def Obligations.StepRunsDecodedCommand : Prop :=
  ∀ (s : State) (a : Access) (v : Word) (rest : List HostAction) (i : Instr),
    s.rst = false → s.script = .wr a v :: rest → a.off = 0x0018 → a.size = 8 → a.strobes = 0xFF →
    decode v = .ok i → step s = exec i { s with script := rest, resp := .written }

/-- Derived (`93_implementation_defined.md` section 2: "every input to the block in every state has a stated outcome"): a
step always answers a next state, and changes neither of the build parameters of R10. -/
def Obligations.EveryStepGoesOn : Prop :=
  ∀ s : State, ∃ t, step s = .next t ∧ t.inDepth = s.inDepth ∧ t.outDepth = s.outDepth

/-- R94, R215: an illegal word written to an idle block without an error raises ILLEGAL_CMD with the word in ERRINFO;
nothing is accepted. -/
def Obligations.IllegalWordRaisesError : Prop :=
  ∀ (s : State) (v : Word) (rest : List HostAction),
    s.rst = false → s.busy = false → s.err = false → s.script = .wr (Access.full 0x0018) v :: rest →
    (v.extractLsb' 8 56 ≠ 0 ∨ v.extractLsb' 0 8 = 0 ∨ 8 < (v.extractLsb' 0 8).toNat) →
    step s = .next
      { s with
        script := rest, resp := .written, err := true, errCode := 1, errSub := 0, errInfo := v, done := false }

/-- R93 case 1, R216, R252: a CMD write while BUSY or ERR is dropped: OVR is set, the word is not decoded. In the error state
nothing else changes; while BUSY the running command goes on unaffected: the step is that of the engine alone. -/
def Obligations.DroppedCommandOnlySetsOvr : Prop :=
  ∀ (s : State) (v : Word) (rest : List HostAction),
    s.rst = false → s.script = .wr (Access.full 0x0018) v :: rest →
    (s.busy = false → s.err = true → step s = .next { s with script := rest, resp := .written, ovr := true }) ∧
    (s.busy = true →
      step s = .next (engineTurn { s with script := rest, resp := .written, ovr := true }) ∧
      ∀ t, step s = .next t → t.curCmd = s.curCmd ∧ t.lenL = s.lenL ∧ t.countL = s.countL ∧ t.ovr = true)

/-- R93 case 4, R26: an accepted command has CUR_CMD, LEN_L and COUNT_L latched and DONE cleared, and until the engine
moves nothing else has changed (here its turn is an empty one). -/
def Obligations.AcceptanceLatchesOperands : Prop :=
  ∀ (i : Instr) (s : State) (ts : List (List EngineMove)),
    s.busy = false → s.err = false → s.turns = [] :: ts → (i = .hist → s.total.toNat + s.len.toNat < 2 ^ 64) →
    exec i s = .next
      { s with
        curCmd := encode i, lenL := s.len, countL := s.count, done := false, busy := true, got := [], sent := 0,
        turns := ts }

/-! ## The register space -/

/-- R41: the offset of every register leads to it, and every other aligned offset up to 0x7FF8 is unmapped. -/
def Obligations.RegisterMapIsTheStatedOne : Prop :=
  (∀ (r : Reg) (off : Nat), r.offset = some off → Reg.ofOffset off = r ∧ off % 8 = 0 ∧ off ≤ 0x7FF8) ∧
  ∀ off : Nat, off % 8 = 0 → (∀ r : Reg, r.offset ≠ some off) → Reg.ofOffset off = .unmapped

/-- R22, R23, R32, R34, R36: the places of the fields in the words the host reads. -/
def Obligations.RegisterFieldsStandInPlace : Prop :=
  (∀ s : State, s.status.getLsbD 0 = s.busy ∧ s.status.getLsbD 1 = s.done ∧ s.status.getLsbD 2 = s.err ∧
    s.status.getLsbD 3 = s.ovr ∧ (s.status.getLsbD 4 = true ↔ s.root = NIL) ∧
    (s.status.getLsbD 5 = true ↔ s.root ≠ NIL ∧ (nodeAt s.node s.root).leaf = true) ∧
    s.status.extractLsb' 6 2 = 0 ∧ s.status.extractLsb' 8 4 = s.errCode ∧ s.status.extractLsb' 12 4 = s.errSub ∧
    s.status.extractLsb' 16 48 = 0) ∧
  (∀ s : State, s.ctrl.getLsbD 0 = false ∧ s.ctrl.getLsbD 1 = s.ieDone ∧ s.ctrl.getLsbD 2 = s.ieErr ∧
    s.ctrl.extractLsb' 3 61 = 0) ∧
  (∀ n : Node, n.word0.extractLsb' 0 9 = n.left ∧ n.word0.extractLsb' 9 9 = n.right ∧
    n.word0.extractLsb' 18 8 = n.value ∧ n.word0.getLsbD 26 = n.leaf ∧ n.word0.getLsbD 27 = n.valid ∧
    n.word0.extractLsb' 28 36 = 0) ∧
  (∀ s : State, s.treeWord.extractLsb' 0 9 = s.root ∧ s.treeWord.extractLsb' 9 7 = 0 ∧
    s.treeWord.extractLsb' 16 9 = s.nnodes ∧ s.treeWord.extractLsb' 25 39 = 0) ∧
  (∀ e : CodeEntry, e.lenWord.extractLsb' 0 8 = e.len ∧ e.lenWord.getLsbD 8 = e.valid ∧
    e.lenWord.extractLsb' 9 55 = 0) ∧
  (∀ (e : CodeEntry) (w : Fin 4) (k : Nat), k < 64 → (e.bitsWord w).getLsbD k = e.bits.getLsbD (64 * w.val + k))

/-- R61: a legal read with `rst` low answers the register's read value and changes nothing else of the block, idle or BUSY; a
read of a table, OUT_COUNT or STATUS while BUSY uses up a free value (item 15, "a fresh draw per read"), and the engine
has its turn after it. The read value is the register's value while idle; while BUSY it is a free value for the registers of
R61's list, free in two bits of STATUS, and exact for everything else. -/
def Obligations.ReadsArePureAndExactUnlessBusy : Prop :=
  (∀ (s : State) (a : Access) (rest : List HostAction),
    s.rst = false → a.off % 8 = 0 → a.off ≤ 0x7FF8 → a.size = 8 →
    (s.busy = true ∧ (InexactWhileBusy (Reg.ofOffset a.off) ∨ Reg.ofOffset a.off = .status) →
      s.busRead a = { s with resp := .data (s.readValue (Reg.ofOffset a.off)), draws := s.draws + 1 }) ∧
    (¬(s.busy = true ∧ (InexactWhileBusy (Reg.ofOffset a.off) ∨ Reg.ofOffset a.off = .status)) →
      s.busRead a = { s with resp := .data (s.readValue (Reg.ofOffset a.off)) }) ∧
    (s.script = .rd a :: rest → step s = .next (engineTurn ({ s with script := rest }.busRead a))) ∧
    (s.script = .rd a :: rest → s.busy = false →
      step s = .next { s with script := rest, resp := .data (s.regValue (Reg.ofOffset a.off)) })) ∧
  (∀ (s : State) (r : Reg), s.busy = false → s.readValue r = s.regValue r) ∧
  ∀ (s : State) (r : Reg), s.busy = true →
    (InexactWhileBusy r → s.readValue r = Config.freeRead s.draws) ∧
    ((r = .id ∨ r = .ctrl ∨ r = .cmd ∨ r = .len ∨ r = .count ∨ r = .errInfo ∨ r = .unmapped) →
      s.readValue r = s.regValue r) ∧
    (r = .status → ∀ k, k ≠ 4 → k ≠ 5 → (s.readValue r).getLsbD k = (s.regValue r).getLsbD k)

/-- R63: an access that is misaligned, not 8 bytes wide, above 0x7FF8 or, for a write, without all strobes gets a bus
error; no state of the block changes. While BUSY the engine goes on: the step is its turn alone. -/
def Obligations.IllegalAccessChangesNothing : Prop :=
  ∀ (s : State) (a : Access) (v : Word) (rest : List HostAction), s.rst = false →
    (s.script = .rd a :: rest ∧ (a.off % 8 ≠ 0 ∨ a.size ≠ 8 ∨ 0x7FF8 < a.off) ∨
      s.script = .wr a v :: rest ∧ (a.off % 8 ≠ 0 ∨ a.size ≠ 8 ∨ 0x7FF8 < a.off ∨ a.strobes ≠ 0xFF)) →
    step s = .next (engineTurn { s with script := rest, resp := .busError }) ∧
    (s.busy = false → step s = .next { s with script := rest, resp := .busError })

/-- R22, R23, R25, R26, R62: a CTRL write without SRST stores the two enables, a STATUS write clears DONE when its bit 1 is 1
and affects nothing else, LEN and COUNT store the value, and a write to a read-only register or an unmapped offset is ignored:
idle, where the engine's turn changes nothing, and BUSY, where the turn follows the write and does not depend on LEN and COUNT
(the running command uses its latched copies). -/
def Obligations.RegisterWritesActAsStated : Prop :=
  (∀ u : State, u.busy = false → engineTurn u = u) ∧
  (∀ (u : State) (l c : Word), engineTurn { u with len := l, count := c } = { engineTurn u with len := l, count := c }) ∧
  ∀ (s : State) (off : Nat) (v : Word) (rest : List HostAction),
    s.rst = false → s.script = .wr (Access.full off) v :: rest → off % 8 = 0 → off ≤ 0x7FF8 →
    (off = 0x0008 → v.getLsbD 0 = false →
      step s = .next (engineTurn
        { s with script := rest, resp := .written, ieDone := v.getLsbD 1, ieErr := v.getLsbD 2 })) ∧
    (off = 0x0010 →
      step s = .next (engineTurn { s with script := rest, resp := .written, done := s.done && !v.getLsbD 1 })) ∧
    (off = 0x0020 → step s = .next (engineTurn { s with script := rest, resp := .written, len := v })) ∧
    (off = 0x0028 → step s = .next (engineTurn { s with script := rest, resp := .written, count := v })) ∧
    ((off = 0x0000 ∨ 0x0030 ≤ off) → step s = .next (engineTurn { s with script := rest, resp := .written }))

/-- R221: `irq` follows DONE and ERR through their enables: a completed command with IE_DONE raises it, the W1C of DONE
takes it away unless an enabled error holds it. -/
def Obligations.InterruptFollowsDoneAndErr : Prop :=
  ∀ s : State, s.rst = false →
    ((s.irq = true ↔ (s.done = true ∧ s.ieDone = true) ∨ (s.err = true ∧ s.ieErr = true)) ∧
    (Ready s → s.ieDone = true → ∃ t, exec .clrf s = .next t ∧ t.irq = true) ∧
    (s.err = false → (s.writeStatus 0x2).irq = false))

/-! ## The stream ports -/

/-- R64, R65: a byte is pushed to the tail of IN exactly when IN has room, and the head of OUT is taken exactly when OUT is
not empty, otherwise the host waits; at any time, idle, where the engine's turn changes nothing, or BUSY, where it follows. -/
def Obligations.PortsAreQueues : Prop :=
  (∀ u : State, u.busy = false → engineTurn u = u) ∧
  ∀ (s : State) (rest : List HostAction), s.rst = false →
    (∀ b, s.script = .push b :: rest → within s.inDepth (s.inq.length + 1) = true →
      step s = .next (engineTurn { s with script := rest, inq := s.inq ++ [b] })) ∧
    (∀ b, s.script = .push b :: rest → within s.inDepth (s.inq.length + 1) = false → step s = .next (engineTurn s)) ∧
    (∀ b q, s.script = .pop :: rest → s.outq = b :: q →
      step s = .next (engineTurn { s with script := rest, outq := q, taken := s.taken ++ [b] })) ∧
    (s.script = .pop :: rest → s.outq = [] → step s = .next (engineTurn s))

/-- R64, R253 (b): as long as IN has not delivered all bytes of the running command, the command does not complete: BUSY
stays 1, no flag, table or result register changes, whatever moves the engine is given. -/
def Obligations.StarvedCommandWaits : Prop :=
  ∀ (s : State) (i : Instr), s.running = some i → s.got.length + s.inq.length < inputLen i s.lenL →
    (engineTurn s).busy = true ∧ (engineTurn s).done = s.done ∧ (engineTurn s).err = s.err ∧
    (engineTurn s).ovr = s.ovr ∧ (engineTurn s).errCode = s.errCode ∧ (engineTurn s).errSub = s.errSub ∧
    (engineTurn s).errInfo = s.errInfo ∧ (engineTurn s).outCount = s.outCount ∧
    (engineTurn s).freq = s.freq ∧ (engineTurn s).total = s.total ∧ (engineTurn s).node = s.node ∧
    (engineTurn s).root = s.root ∧ (engineTurn s).nnodes = s.nnodes ∧ (engineTurn s).code = s.code ∧
    (engineTurn s).got ++ (engineTurn s).inq = s.got ++ s.inq

/-- R65, R253 (a): as long as OUT cannot take what the running command still has to push, the command does not complete,
whatever moves the engine is given. -/
def Obligations.UndrainedCommandWaits : Prop :=
  ∀ (s : State) (i : Instr), s.running = some i → SequencerInv s → QueuesFit s →
    ¬OutTakes s ((body i s (s.got ++ s.inq.take (inputLen i s.lenL - s.got.length))).out.length - s.sent) →
    (engineTurn s).busy = true ∧ (engineTurn s).done = s.done ∧ (engineTurn s).err = s.err ∧
    (engineTurn s).outCount = s.outCount

/-- R258: a command that is fed and drained completes: with all its bytes in IN and room in OUT, a turn that is not cut
short ends with BUSY = 0 and DONE or ERR. -/
def Obligations.FedAndDrainedCommandCompletes : Prop :=
  ∀ (s : State) (i : Instr), s.running = some i → SequencerInv s → s.turns = [] →
    inputLen i s.lenL ≤ s.got.length + s.inq.length →
    OutTakes s ((body i s (s.got ++ s.inq.take (inputLen i s.lenL - s.got.length))).out.length - s.sent) →
    (engineTurn s).busy = false ∧ ((engineTurn s).done = true ∨ (engineTurn s).err = true)

/-- R70 (b), (c), "in any way": what the engine may push after the bytes popped is exactly what they determine: a sequence is a
beginning of it if and only if it is a beginning of the output for every input that extends them. (TreeInv and CodesOfTree are
invariants of every step.) -/
def Obligations.AvailableOutputIsDetermined : Prop :=
  ∀ (i : Instr) (s : State) (p : List Byte), TreeInv s → CodesOfTree s → s.got.length ≤ inputLen i s.lenL →
    (p.IsPrefix (available i s) ↔
      ∀ more : List Byte, s.got.length + more.length = inputLen i s.lenL → p.IsPrefix (body i s (s.got ++ more)).out)

/-- R207, R70: however the engine's pops and pushes are interleaved, once the command has completed the state is the same:
that of the turn that goes on to the end. -/
def Obligations.InterleavingDoesNotMatter : Prop :=
  ∀ (s : State) (i : Instr) (ms : List EngineMove), s.running = some i → SequencerInv s →
    s.inDepth = .unbounded → s.outDepth = .unbounded → inputLen i s.lenL ≤ s.got.length + s.inq.length →
    (ms.foldl engineMove s).busy = false → ms.foldl engineMove s = runUntilWaiting s

/-! ## The commands: what each one does -/

/-- R111: CLRF zeroes FREQ and TOTAL, pops and pushes nothing, and leaves the tree and the codes. -/
def Obligations.ClrfClearsTheCounters : Prop :=
  ∀ s : State, Ready s →
    exec .clrf s = .next
      { s with
        curCmd := 0x1, lenL := s.len, countL := s.count, outCount := 0, busy := false, done := true, got := [], sent := 0,
        freq := Vector.replicate 256 0, total := 0 }

/-- R112: a HIST that would take TOTAL to `2^64` or more is not accepted: COUNT_OVERFLOW with LEN in ERRINFO, and nothing
else changes. Else HIST pops LEN bytes and adds their number of occurrences to each counter and LEN to TOTAL, all exactly
(the premise TotalIsSum is R31's invariant). -/
def Obligations.HistCountsBytes : Prop :=
  ∀ s : State, Ready s → TotalIsSum s →
    (2 ^ 64 ≤ s.total.toNat + s.len.toNat →
      exec .hist s = .next { s with err := true, errCode := 5, errSub := 0, errInfo := s.len, done := false }) ∧
    (s.total.toNat + s.len.toNat < 2 ^ 64 → s.len.toNat ≤ s.inq.length →
      ∃ (f : FreqTable) (n : Word),
        exec .hist s = .next
          { s with
            curCmd := 0x2, lenL := s.len, countL := s.count, outCount := 0, busy := false, done := true, got := [],
            sent := 0, freq := f, total := n, inq := s.inq.drop s.len.toNat } ∧
        n.toNat = s.total.toNat + s.len.toNat ∧
        ∀ b : Byte, (freqAt f b).toNat = (freqAt s.freq b).toNat + (s.inq.take s.len.toNat).count b)

/-- R121: BUILD completes, replaces the tree by that of the frequency table, invalidates the whole code table and changes
nothing else. The tree itself is the subject of the next statements. -/
def Obligations.BuildReplacesTreeOnly : Prop :=
  ∀ s : State, Ready s →
    ∃ (t : NodeTable) (r n : Idx),
      exec .build s = .next
        { s with
          curCmd := 0x3, lenL := s.len, countL := s.count, outCount := 0, busy := false, done := true, got := [],
          sent := 0, node := t, root := r, nnodes := n, code := noCodes } ∧
      (∀ u, u.freq = s.freq → Ready u → ∃ u', exec .build u = .next u' ∧ u'.node = t ∧ u'.root = r ∧ u'.nnodes = n)

/-- R124, R125: no present symbol gives the empty tree without an error; one present symbol gives one leaf at its own index
with its count. -/
def Obligations.BuildOfNoOrOneSymbol : Prop :=
  ∀ s : State, Ready s →
    (present s.freq = [] →
      ∃ t, exec .build s = .next t ∧ t.root = NIL ∧ t.nnodes = 0 ∧ (∀ i, nodeAt t.node i = Node.invalid) ∧
        t.empty = true ∧ t.done = true ∧ t.err = false) ∧
    (∀ v, present s.freq = [v] →
      ∃ t, exec .build s = .next t ∧ t.root = v.setWidth 9 ∧ t.nnodes = 1 ∧ t.single = true ∧ t.done = true ∧
        nodeAt t.node t.root =
          { valid := true, leaf := true, value := v, left := NIL, right := NIL, freq := freqAt s.freq v } ∧
        ∀ i, i ≠ t.root → nodeAt t.node i = Node.invalid)

/-- R126: after BUILD with at least one present symbol the tree has one leaf per present symbol, every internal node has two
children, there are `2n - 1` nodes, each internal frequency is the exact sum of its children's, and the root's is TOTAL. -/
def Obligations.BuildTreeCarriesTheCounts : Prop :=
  ∀ s : State, Ready s → TotalIsSum s → present s.freq ≠ [] →
    ∃ t, exec .build s = .next t ∧ t.tree.leaves.Perm (present s.freq) ∧ t.tree.full = true ∧
      t.nnodes.toNat = 2 * (present s.freq).length - 1 ∧ (nodeAt t.node t.root).freq = s.total ∧
      (∀ i, (nodeAt t.node i).valid = true → (nodeAt t.node i).leaf = true →
        (nodeAt t.node i).freq = freqAt s.freq (nodeAt t.node i).value) ∧
      ∀ i, (nodeAt t.node i).valid = true → (nodeAt t.node i).leaf = false →
        (nodeAt t.node i).freq.toNat =
          (nodeAt t.node (nodeAt t.node i).left).freq.toNat + (nodeAt t.node (nodeAt t.node i).right).freq.toNat

/-- R123: BUILD stores the leaf of symbol `s` at index `s` and the merged nodes from index 256 on; every child's index is
below its parent's, and the root of a tree with `n >= 2` leaves is at `256 + n - 2`. -/
def Obligations.BuildPlacesNodesAsStated : Prop :=
  ∀ s : State, Ready s →
    ∃ t, exec .build s = .next t ∧
      (∀ i, (nodeAt t.node i).valid = true → (nodeAt t.node i).leaf = true →
        i = (nodeAt t.node i).value.setWidth 9 ∧ freqAt s.freq (nodeAt t.node i).value ≠ 0) ∧
      (∀ i, (nodeAt t.node i).valid = true → (nodeAt t.node i).leaf = false →
        256 ≤ i.toNat ∧ (nodeAt t.node i).left < i ∧ (nodeAt t.node i).right < i ∧ (nodeAt t.node i).value = 0) ∧
      (2 ≤ (present s.freq).length → t.root.toNat = 256 + (present s.freq).length - 2)

/-- R122, on one merge: the left child is the live node of smallest frequency, at equal frequencies of smallest index, the
right child is that node among the others, and both are replaced by the merged node. -/
def Obligations.MergeTakesTheTwoSmallestKeys : Prop :=
  ∀ b : Building, b.live.Nodup → 2 ≤ b.live.length → b.k < 255 → (∀ i ∈ b.live, i.toNat < 256 + b.k) →
    ∃ x y, x ∈ b.live ∧ y ∈ b.live ∧ x ≠ y ∧
      (∀ z ∈ b.live, z ≠ x →
        (nodeAt b.node x).freq.toNat < (nodeAt b.node z).freq.toNat ∨
          (nodeAt b.node x).freq = (nodeAt b.node z).freq ∧ x.toNat < z.toNat) ∧
      (∀ z ∈ b.live, z ≠ x → z ≠ y →
        (nodeAt b.node y).freq.toNat < (nodeAt b.node z).freq.toNat ∨
          (nodeAt b.node y).freq = (nodeAt b.node z).freq ∧ y.toNat < z.toNat) ∧
      (mergeOnce b).live.Perm (BitVec.ofNat 9 (256 + b.k) :: (b.live.erase x).erase y) ∧ (mergeOnce b).k = b.k + 1 ∧
      nodeAt (mergeOnce b).node (BitVec.ofNat 9 (256 + b.k)) =
        { valid := true, leaf := false, value := 0, left := x, right := y,
          freq := (nodeAt b.node x).freq + (nodeAt b.node y).freq } ∧
      ∀ i, i ≠ BitVec.ofNat 9 (256 + b.k) → nodeAt (mergeOnce b).node i = nodeAt b.node i

/-- R120, R127: the tree of BUILD is one of those the source document admits: repeated merging of two trees of minimal
frequency, starting with one leaf per present symbol. -/
def Obligations.BuildIsAnAdmittedMerge : Prop :=
  ∀ s : State, Ready s → TotalIsSum s → present s.freq ≠ [] →
    ∃ t, exec .build s = .next t ∧
      Merges ((present s.freq).map fun v => (Tree.leaf v, (freqAt s.freq v).toNat)) t.tree s.total.toNat

/-- R131, R133, R134, R135: GENCODE gives every leaf value of the tree its path (the last leaf's, if several carry it) and
every other symbol no code, and changes nothing else. -/
def Obligations.GencodeWritesTheTreePaths : Prop :=
  ∀ s : State, Ready s →
    ∃ c : CodeTable,
      exec .gencode s = .next
        { s with
          curCmd := 0x4, lenL := s.len, countL := s.count, outCount := 0, busy := false, done := true, got := [],
          sent := 0, code := c } ∧
      ∀ b : Byte, codeAt c b = CodeEntry.ofPath (s.tree.codeOf b)

/-- R136, R37: after GENCODE no code is a prefix of another, and the symbols with a code are the leaf values. -/
def Obligations.CodesArePrefixFree : Prop :=
  ∀ s : State, Ready s → TreeInv s →
    ∃ t, exec .gencode s = .next t ∧ PrefixFree t.code ∧
      (∀ b : Byte, (codeAt t.code b).valid = true ↔ b ∈ s.tree.leaves) ∧
      (∀ b : Byte, (codeAt t.code b).valid = true → ((codeAt t.code b).len = 0 ↔ s.tree = .leaf b))

/-- R141, R96, R142: PACK of a buffer whose bytes all have codes pops LEN bytes and pushes the payload of their codes,
`ceil(L / 8)` bytes, and changes no table. -/
def Obligations.PackPushesThePayload : Prop :=
  ∀ s : State, Ready s → s.len.toNat ≤ s.inq.length → covers s.code (s.inq.take s.len.toNat) = true →
    OutTakes s (payloadOfStream (streamOf s.code (s.inq.take s.len.toNat))).length →
    exec .pack s = .next
      { s with
        curCmd := 0x5, lenL := s.len, countL := s.count, busy := false, done := true, got := [], sent := 0,
        outCount := BitVec.ofNat 64 (((streamOf s.code (s.inq.take s.len.toNat)).length + 7) / 8),
        inq := s.inq.drop s.len.toNat,
        outq := s.outq ++ payloadOfStream (streamOf s.code (s.inq.take s.len.toNat)) }

/-- R141, R143, R69: the first byte without a code makes PACK end with INPUT_MISMATCH and its offset in ERRINFO, after all
LEN bytes are popped; the whole bytes of the stream before it stay in OUT, the pending bits are discarded. -/
def Obligations.PackReportsFirstMissingCode : Prop :=
  ∀ (s : State) (front back : List Byte) (b : Byte), Ready s → s.len.toNat ≤ s.inq.length →
    s.inq.take s.len.toNat = front ++ b :: back → covers s.code front = true → (codeAt s.code b).valid = false →
    OutTakes s ((streamOf s.code front).length / 8) →
    exec .pack s = .next
      { s with
        curCmd := 0x5, lenL := s.len, countL := s.count, busy := false, done := false, got := [], sent := 0,
        err := true, errCode := 4, errSub := 0, errInfo := BitVec.ofNat 64 front.length,
        outCount := BitVec.ofNat 64 ((streamOf s.code front).length / 8),
        inq := s.inq.drop s.len.toNat,
        outq := s.outq ++ (payloadOfStream (streamOf s.code front)).take ((streamOf s.code front).length / 8) }

/-- R151, R152, R154: if the payload begins with the paths of COUNT leaves, UNPACK emits their values, ignores the rest of
the payload, and pops all LEN bytes. With a single-leaf tree the paths are empty. -/
def Obligations.UnpackEmitsTheLeavesReached : Prop :=
  ∀ (s : State) (cs : List (Byte × List Bool)), Ready s → s.len.toNat ≤ s.inq.length →
    (∀ c ∈ cs, c ∈ s.tree.codes) → cs.length = s.count.toNat →
    (cs.flatMap fun c => c.2).IsPrefix (payloadBits (s.inq.take s.len.toNat)) → OutTakes s cs.length →
    exec .unpack s = .next
      { s with
        curCmd := 0x6, lenL := s.len, countL := s.count, busy := false, done := true, got := [], sent := 0,
        outCount := s.count, inq := s.inq.drop s.len.toNat, outq := s.outq ++ cs.map fun c => c.1 }

/-- R151, R153: if the payload's bits end on the way to a leaf (or at the root) with symbols still owed, UNPACK ends with
PAYLOAD_EXHAUSTED and the number of symbols emitted in ERRINFO and OUT_COUNT. -/
def Obligations.UnpackReportsExhaustedPayload : Prop :=
  ∀ (s : State) (cs : List (Byte × List Bool)) (way : List Bool), Ready s → s.len.toNat ≤ s.inq.length →
    (∀ c ∈ cs, c ∈ s.tree.codes) → cs.length < s.count.toNat →
    payloadBits (s.inq.take s.len.toNat) = (cs.flatMap fun c => c.2) ++ way →
    (∃ v more, more ≠ [] ∧ (v, way ++ more) ∈ s.tree.codes) → OutTakes s cs.length →
    exec .unpack s = .next
      { s with
        curCmd := 0x6, lenL := s.len, countL := s.count, busy := false, done := false, got := [], sent := 0,
        err := true, errCode := 3, errSub := 2, errInfo := BitVec.ofNat 64 cs.length,
        outCount := BitVec.ofNat 64 cs.length, inq := s.inq.drop s.len.toNat, outq := s.outq ++ cs.map fun c => c.1 }

/-- R155: UNPACK on the empty tree: COUNT = 0 succeeds without output, COUNT > 0 raises MISSING_CHILD with ERRINFO 0,
whatever the payload is; the payload is popped. -/
def Obligations.UnpackOnEmptyTree : Prop :=
  ∀ s : State, Ready s → s.len.toNat ≤ s.inq.length → s.root = NIL →
    (s.count = 0 → exec .unpack s = .next
      { s with
        curCmd := 0x6, lenL := s.len, countL := 0, busy := false, done := true, got := [], sent := 0, outCount := 0,
        inq := s.inq.drop s.len.toNat }) ∧
    (s.count ≠ 0 → exec .unpack s = .next
      { s with
        curCmd := 0x6, lenL := s.len, countL := s.count, busy := false, done := false, got := [], sent := 0,
        err := true, errCode := 3, errSub := 1, errInfo := 0, outCount := 0, inq := s.inq.drop s.len.toNat })

/-- R161, R97: SER pushes the serialized form of the tree and changes nothing else; it pops nothing. -/
def Obligations.SerPushesTheSerializedTree : Prop :=
  ∀ s : State, Ready s → OutTakes s s.tree.ser.length →
    exec .ser s = .next
      { s with
        curCmd := 0x7, lenL := s.len, countL := s.count, busy := false, done := true, got := [], sent := 0,
        outCount := BitVec.ofNat 64 s.tree.ser.length, outq := s.outq ++ s.tree.ser }

/-- R166, R170, R172: DESER of the serialized form of a full tree of at most 511 nodes, or of no bytes for the empty tree,
leaves that tree: entries numbered in pre-order from ROOT = 0, frequencies 0, code table invalid. -/
def Obligations.DeserRebuildsTheTree : Prop :=
  ∀ (s : State) (t : Tree), Ready s → s.len.toNat ≤ s.inq.length → s.inq.take s.len.toNat = t.ser →
    (t = .empty ∨ t.full = true) → t.size ≤ 511 →
    ∃ (n : NodeTable) (r k : Idx),
      exec .deser s = .next
        { s with
          curCmd := 0x8, lenL := s.len, countL := s.count, outCount := 0, busy := false, done := true, got := [],
          sent := 0, inq := s.inq.drop s.len.toNat, node := n, root := r, nnodes := k, code := noCodes } ∧
      treeOf n r = t ∧ k.toNat = t.size ∧ (t ≠ .empty → r = 0 ∧ k.toNat % 2 = 1) ∧
      (∀ i, (nodeAt n i).freq = 0 ∧ ((nodeAt n i).valid = true ↔ i.toNat < t.size)) ∧
      ∀ i, (nodeAt n i).valid = true → (nodeAt n i).leaf = false →
        (nodeAt n i).left.toNat = i.toNat + 1 ∧
          (nodeAt n i).right.toNat = i.toNat + 1 + (treeOf n (nodeAt n i).left).size

/-- R166, R167, R168: DESER of bytes that are no serialized tree ends with MALFORMED_TREE, the first failure in stream order
in ERRSUB and ERRINFO, all LEN bytes popped and no tree kept. -/
def Obligations.DeserReportsFirstFailure : Prop :=
  ∀ (s : State) (c : ErrCause) (off : Nat), Ready s → s.len.toNat ≤ s.inq.length → s.len ≠ 0 →
    firstFailure 1 0 0 (s.inq.take s.len.toNat) = some (c, off) →
    exec .deser s = .next
      { s with
        curCmd := 0x8, lenL := s.len, countL := s.count, outCount := 0, busy := false, done := false, got := [],
        sent := 0, inq := s.inq.drop s.len.toNat, node := noNodes, root := NIL, nnodes := 0, code := noCodes,
        err := true, errCode := 2, errSub := c.sub, errInfo := BitVec.ofNat 64 off }

/-- R171: DESER of what SER pushed gives the same tree, and so the same code table; and every byte sequence that DESER
accepts is the serialized form of the tree it leaves, so that SER pushes it back. -/
def Obligations.SerDeserRoundTrip : Prop :=
  (∀ s d : State, TreeInv s → Ready d → d.inq = s.tree.ser → d.len = BitVec.ofNat 64 s.tree.ser.length →
    ∃ t, exec .deser d = .next t ∧ t.err = false ∧ t.tree = s.tree ∧
      ∃ u, exec .gencode t = .next u ∧ (Ready s → ∃ v, exec .gencode s = .next v ∧ u.code = v.code)) ∧
  ∀ s t : State, Ready s → s.len.toNat ≤ s.inq.length → exec .deser s = .next t → t.err = false →
    t.tree.ser = s.inq.take s.len.toNat ∧
    (OutTakes t t.tree.ser.length →
      ∃ u, exec .ser t = .next u ∧ u.outq = s.outq ++ s.inq.take s.len.toNat)

/-- R156: UNPACK on a tree undoes PACK with the code table GENCODE derives from it (LEN has to be able to say how long the
buffer and the payload are). -/
def Obligations.UnpackUndoesPack : Prop :=
  ∀ (s g p : State) (buf : List Byte), Ready s → TreeInv s → s.inDepth = .unbounded → s.outDepth = .unbounded →
    s.outq = [] → buf.length < 2 ^ 64 → exec .gencode s = .next g →
    exec .pack { g with inq := buf, len := BitVec.ofNat 64 buf.length } = .next p → p.err = false →
    p.outq.length < 2 ^ 64 →
    ∃ u, exec .unpack
        { g with inq := p.outq, len := BitVec.ofNat 64 p.outq.length, count := BitVec.ofNat 64 buf.length } = .next u ∧
      u.outq = buf ∧ u.err = false ∧ u.done = true

/-- R243: on a freshly reset block, with queues of any capacities, each command has a defined result: all eight complete
with DONE, without output and with the empty tree when LEN is 0; `UNPACK n, 0` completes too; `PACK n` raises INPUT_MISMATCH
at offset 0 and `UNPACK n, c` MISSING_CHILD, both having popped their bytes. -/
def Obligations.FreshBlockRunsEveryCommand : Prop :=
  ∀ (s : State) (n c : Word) (q : List Byte), s.softReset = s → s.rst = false → s.turns = [] → n.toNat ≤ q.length →
    (∀ i : Instr, ∃ t, exec i s = .next t ∧ t.done = true ∧ t.busy = false ∧ t.err = false ∧ t.outq = [] ∧
      t.outCount = 0 ∧ t.root = NIL ∧ t.nnodes = 0) ∧
    (∃ t, exec .unpack { s with len := n, inq := q } = .next t ∧ t.done = true ∧ t.err = false ∧ t.outq = [] ∧
      t.outCount = 0 ∧ t.inq = q.drop n.toNat) ∧
    (n ≠ 0 → ∃ t, exec .pack { s with len := n, inq := q } = .next t ∧ t.err = true ∧ t.errCode = 4 ∧ t.errSub = 0 ∧
      t.errInfo = 0 ∧ t.outq = [] ∧ t.outCount = 0 ∧ t.inq = q.drop n.toNat) ∧
    (c ≠ 0 → ∃ t, exec .unpack { s with len := n, count := c, inq := q } = .next t ∧ t.err = true ∧ t.errCode = 3 ∧
      t.errSub = 1 ∧ t.errInfo = 0 ∧ t.outq = [] ∧ t.outCount = 0 ∧ t.inq = q.drop n.toNat)

/-! ## Frames -/

/-- R206, R42: no command writes CTRL, LEN or COUNT, and what the host and the schedule hold is not touched either, whatever
turn the engine is given. -/
def Obligations.NoCommandWritesOperandsOrControl : Prop :=
  ∀ (i : Instr) (s t : State), exec i s = .next t →
    t.len = s.len ∧ t.count = s.count ∧ t.ieDone = s.ieDone ∧ t.ieErr = s.ieErr ∧ t.rst = s.rst ∧
    t.inDepth = s.inDepth ∧ t.outDepth = s.outDepth ∧ t.script = s.script ∧ t.resp = s.resp ∧ t.taken = s.taken ∧
    t.draws = s.draws

/-- R42: the frame of CLRF, HIST, BUILD, GENCODE and DESER: each leaves OUT and every table its row does not name; CLRF, BUILD
and GENCODE pop nothing and record no error. -/
def Obligations.TableCommandsFrame : Prop :=
  ∀ (i : Instr) (s t : State), (i = .clrf ∨ i = .hist ∨ i = .build ∨ i = .gencode ∨ i = .deser) → s.busy = false →
    exec i s = .next t →
    t.outq = s.outq ∧ t.inq.IsSuffix s.inq ∧ (s.err = false → t.ovr = s.ovr) ∧
    (i ≠ .clrf → i ≠ .hist → t.freq = s.freq ∧ t.total = s.total) ∧
    (i ≠ .build → i ≠ .deser → t.node = s.node ∧ t.root = s.root ∧ t.nnodes = s.nnodes) ∧
    (i = .clrf ∨ i = .hist → t.code = s.code) ∧
    (i ≠ .hist → i ≠ .deser →
      t.inq = s.inq ∧ t.errCode = s.errCode ∧ t.errSub = s.errSub ∧ t.errInfo = s.errInfo ∧ t.err = s.err)

/-- R42: the frame of PACK, UNPACK and SER: no table is touched, OUT only grows at its tail; SER pops nothing and records no
error. -/
def Obligations.StreamCommandsFrame : Prop :=
  ∀ (i : Instr) (s t : State), (i = .pack ∨ i = .unpack ∨ i = .ser) → s.busy = false → exec i s = .next t →
    t.freq = s.freq ∧ t.total = s.total ∧ t.node = s.node ∧ t.root = s.root ∧ t.nnodes = s.nnodes ∧ t.code = s.code ∧
    s.outq.IsPrefix t.outq ∧ t.inq.IsSuffix s.inq ∧
    (i = .ser → t.inq = s.inq ∧ t.errCode = s.errCode ∧ t.errSub = s.errSub ∧ t.errInfo = s.errInfo ∧ t.err = s.err) ∧
    (s.err = false → t.ovr = s.ovr)

/-! ## Whole-machine rules -/

/-- R217, R23, R29: the error state is left by reset only: without one, ERR stays 1 and ERRCODE, ERRSUB and ERRINFO keep the
first error; OVR is left by reset only as well. -/
def Obligations.OnlyResetLeavesTheErrorState : Prop :=
  ∀ s t : State, FlagsExclusive s → step s = .next t → resets s = false →
    (s.err = true → t.err = true ∧ t.errCode = s.errCode ∧ t.errSub = s.errSub ∧ t.errInfo = s.errInfo ∧
      t.busy = false) ∧
    (s.ovr = true → t.ovr = true)

/-- R23, R206, R76: BUSY is cleared by the completion of the command or by reset only: in the step in which it is cleared,
DONE or ERR is set, also when the host clears DONE in that step. -/
def Obligations.BusyEndsInDoneOrError : Prop :=
  ∀ s t : State, step s = .next t → resets s = false → s.busy = true → t.busy = false →
    t.done = true ∨ t.err = true

/-- R27, R30, R42, R62: no host action other than a reset or a command changes a table, a result register or the progress of a
command. On an idle block this is the whole step (without a CMD write); while BUSY, where a CMD write is dropped, the step
is a turn of the engine on a state that agrees in all of them. -/
def Obligations.HostCannotWriteTables : Prop :=
  ∀ s t : State, step s = .next t → resets s = false →
    (s.busy = false → (∀ a v rest, s.script = .wr a v :: rest → a.off ≠ 0x0018) →
      t.freq = s.freq ∧ t.total = s.total ∧ t.node = s.node ∧ t.root = s.root ∧ t.nnodes = s.nnodes ∧ t.code = s.code ∧
      t.outCount = s.outCount ∧ t.errInfo = s.errInfo ∧ t.curCmd = s.curCmd ∧ t.lenL = s.lenL ∧ t.countL = s.countL) ∧
    (s.busy = true → s.rst = false → ∃ u : State, t = engineTurn u ∧
      u.freq = s.freq ∧ u.total = s.total ∧ u.node = s.node ∧ u.root = s.root ∧ u.nnodes = s.nnodes ∧ u.code = s.code ∧
      u.outCount = s.outCount ∧ u.errInfo = s.errInfo ∧ u.curCmd = s.curCmd ∧ u.lenL = s.lenL ∧ u.countL = s.countL ∧
      u.busy = true ∧ u.err = s.err ∧ u.errCode = s.errCode ∧ u.errSub = s.errSub ∧ u.got = s.got ∧ u.sent = s.sent)

/-! ## Invariants that every step keeps -/

/-- R23, R212: the flags stay exclusive and the recorded error stays one of the table's. -/
def Obligations.StepKeepsFlags : Prop :=
  ∀ s t : State, FlagsExclusive s → ErrorRecorded s → step s = .next t → FlagsExclusive t ∧ ErrorRecorded t

/-- R31: TOTAL stays the sum of the counters. -/
def Obligations.StepKeepsTotalTheSum : Prop :=
  ∀ s t : State, TotalIsSum s → HistFits s → step s = .next t → TotalIsSum t ∧ HistFits t

/-- R33: the node table stays the storage of at most one tree. -/
def Obligations.StepKeepsTheTree : Prop :=
  ∀ s t : State, TreeInv s → step s = .next t → TreeInv t

/-- R36: the code table stays tidy: an invalid entry is 0, and a code's number is below `2^len` (the premise TreeInv bounds
the depth of the tree GENCODE walks); and it stays invalid or GENCODE's of the tree the block holds. -/
def Obligations.StepKeepsCodesTidy : Prop :=
  ∀ s t : State, step s = .next t →
    (TreeInv s → CodesTidy s.code → CodesTidy t.code) ∧ (CodesOfTree s → CodesOfTree t)

/-- R27, R40, R70: the sequencer stays in order: an idle engine holds nothing, a running one has popped and pushed no more
than the streaming contract allows; both queues stay within their capacities; `rst` holds the reset state. -/
def Obligations.StepKeepsSequencer : Prop :=
  ∀ s t : State, SequencerInv s → QueuesFit s → ResetHeld s → step s = .next t →
    SequencerInv t ∧ QueuesFit t ∧ ResetHeld t

/-- R33 items 1 to 4, from the invariant: the valid entries are those reached from ROOT and are NNODES many; an internal
entry has two different valid children; a valid entry other than ROOT has exactly one parent; NNODES is odd when nonzero,
the tree has `(NNODES + 1) / 2` leaves and is at most `(NNODES - 1) / 2 <= 255` deep. -/
def Obligations.TreeInvariantMeansRuleR33 : Prop :=
  ∀ s : State, TreeInv s →
    (s.root = NIL → s.nnodes = 0 ∧ ∀ i, (nodeAt s.node i).valid = false) ∧
    (s.root ≠ NIL → (nodeAt s.node s.root).valid = true ∧
      (s.node.toList.filter fun n => n.valid).length = s.nnodes.toNat ∧
      (∀ i, (nodeAt s.node i).valid = true ↔ Reached s.node s.root i) ∧
      s.nnodes.toNat % 2 = 1 ∧ s.tree.leaves.length = (s.nnodes.toNat + 1) / 2 ∧
      s.tree.depth ≤ (s.nnodes.toNat - 1) / 2 ∧ s.tree.depth ≤ 255) ∧
    (∀ i, (nodeAt s.node i).valid = true → (nodeAt s.node i).leaf = false →
      (nodeAt s.node (nodeAt s.node i).left).valid = true ∧ (nodeAt s.node (nodeAt s.node i).right).valid = true ∧
      (nodeAt s.node i).left ≠ NIL ∧ (nodeAt s.node i).right ≠ NIL ∧
      (nodeAt s.node i).left ≠ (nodeAt s.node i).right) ∧
    ∀ i, (nodeAt s.node i).valid = true → i ≠ s.root →
      ∃ p, ∀ q, (nodeAt s.node q).valid = true ∧ (nodeAt s.node q).leaf = false ∧
        ((nodeAt s.node q).left = i ∨ (nodeAt s.node q).right = i) ↔ q = p

/-! ## End to end -/

/-- R19: CLRF, HIST, BUILD, GENCODE, PACK, SER over a buffer, then DESER and UNPACK of the two outputs on a reset block, give
the buffer back, without an error (LEN has to be able to say how long the buffer and the payload are). -/
def Obligations.BlockRoundTrip : Prop :=
  ∀ (s r : State) (buf : List Byte), Ready s → Ready r → s.outq = [] → r.outq = [] → s.outDepth = .unbounded →
    r.outDepth = .unbounded → buf.length < 2 ^ 64 → (Firmware.passPayload buf).length < 2 ^ 64 →
    ∃ s1 s2 s3 s4 s5 s6 r1 r2,
      exec .clrf { s with inq := buf, len := BitVec.ofNat 64 buf.length } = .next s1 ∧
      exec .hist s1 = .next s2 ∧ exec .build s2 = .next s3 ∧ exec .gencode s3 = .next s4 ∧
      exec .pack { s4 with inq := buf } = .next s5 ∧ exec .ser { s5 with outq := [] } = .next s6 ∧
      exec .deser { r with inq := s6.outq, len := BitVec.ofNat 64 s6.outq.length } = .next r1 ∧
      exec .unpack
        { r1 with inq := s5.outq, len := BitVec.ofNat 64 s5.outq.length, count := BitVec.ofNat 64 buf.length } = .next r2 ∧
      s6.err = false ∧ r2.err = false ∧ r2.done = true ∧ r2.outq = buf

/-- R185, R100: the script of an encode pass, run on an idle block, ends without an error and has delivered the payload and
the serialized tree that the firmware's frame is made of. -/
def Obligations.EncodePassScriptDeliversFrameParts : Prop :=
  ∀ (s : State) (buf : List Byte), Ready s → s.rst = false → s.inq = [] → s.outq = [] → s.taken = [] →
    s.inDepth = .unbounded → s.outDepth = .unbounded → buf.length < 2 ^ 64 →
    ∃ n t, Sys2Proof.core.run n
        { s with
          script := Script.encodePass buf (Firmware.passPayload buf).length (Firmware.passTreeBytes buf).length } = .next t ∧
      t.script = [] ∧ t.err = false ∧ t.busy = false ∧ t.inq = [] ∧ t.outq = [] ∧
      t.taken = Firmware.passPayload buf ++ Firmware.passTreeBytes buf

/-- R185, R190, R253: the firmware's passes on the block, step by step, agree with the pure ones, from every idle block with
empty queues, for any queue capacities and whatever moves the engine is given: the encode pass gives the frame, the decode
pass the bytes or the error, and after an error the block is reset. (LEN, COUNT and OUT_COUNT have to be able to say the
lengths.) -/
def Obligations.FirmwarePassesRunOnTheBlock : Prop :=
  ∀ s : State, s.busy = false → s.err = false → s.rst = false → s.inq = [] → s.outq = [] →
    (∀ (e : Endian) (cur : List Byte) (depth : Nat), cur.length < 2 ^ 64 → (Firmware.passPayload cur).length < 2 ^ 64 →
      ∃ n t, (∀ fuel, n ≤ fuel →
          Driver.encodePass e fuel cur depth s = some (t, .ok (Firmware.encodePass e cur depth))) ∧
        t.busy = false ∧ t.err = false ∧ t.inq = [] ∧ t.outq = []) ∧
    ∀ (tree payload : List Byte) (count : Nat), tree.length < 2 ^ 64 → payload.length < 2 ^ 64 → count < 2 ^ 64 →
      ∃ n t, (∀ fuel, n ≤ fuel →
          Driver.decodePass fuel tree payload count s = some (t, Firmware.decodePass tree payload count)) ∧
        t.busy = false ∧ t.err = false ∧ t.inq = [] ∧ t.outq = [] ∧
        ∀ x, Firmware.decodePass tree payload count = .error x → t.softReset = t

/-- R19, R186, R189, R192: `decompress(compress(B)) == B` for every buffer the frame format can express and either byte order
of the header, in at most 128 rounds. -/
def Obligations.FirmwareRoundTrip : Prop :=
  ∀ (e : Endian) (b : List Byte), b.length < 2 ^ 64 →
    ∃ a, Firmware.compress e b = some a ∧ Firmware.decompressLoop e 128 a = some (.ok b)
end

