-- ==== Sys2Proof/Laws/State.lean ====
section
/-! SUPPORT. One lemma per field and named update of the state, so that no later proof unfolds a record update. -/

namespace Sys2Proof.Machine

/-! ## `State.drop` -/

@[simp] theorem State.drop_ieDone (s : State) : s.drop.ieDone = s.ieDone := rfl
@[simp] theorem State.drop_ieErr (s : State) : s.drop.ieErr = s.ieErr := rfl
@[simp] theorem State.drop_busy (s : State) : s.drop.busy = s.busy := rfl
@[simp] theorem State.drop_done (s : State) : s.drop.done = s.done := rfl
@[simp] theorem State.drop_err (s : State) : s.drop.err = s.err := rfl
@[simp] theorem State.drop_ovr (s : State) : s.drop.ovr = true := rfl
@[simp] theorem State.drop_errCode (s : State) : s.drop.errCode = s.errCode := rfl
@[simp] theorem State.drop_errSub (s : State) : s.drop.errSub = s.errSub := rfl
@[simp] theorem State.drop_curCmd (s : State) : s.drop.curCmd = s.curCmd := rfl
@[simp] theorem State.drop_len (s : State) : s.drop.len = s.len := rfl
@[simp] theorem State.drop_count (s : State) : s.drop.count = s.count := rfl
@[simp] theorem State.drop_lenL (s : State) : s.drop.lenL = s.lenL := rfl
@[simp] theorem State.drop_countL (s : State) : s.drop.countL = s.countL := rfl
@[simp] theorem State.drop_outCount (s : State) : s.drop.outCount = s.outCount := rfl
@[simp] theorem State.drop_errInfo (s : State) : s.drop.errInfo = s.errInfo := rfl
@[simp] theorem State.drop_freq (s : State) : s.drop.freq = s.freq := rfl
@[simp] theorem State.drop_total (s : State) : s.drop.total = s.total := rfl
@[simp] theorem State.drop_node (s : State) : s.drop.node = s.node := rfl
@[simp] theorem State.drop_root (s : State) : s.drop.root = s.root := rfl
@[simp] theorem State.drop_nnodes (s : State) : s.drop.nnodes = s.nnodes := rfl
@[simp] theorem State.drop_code (s : State) : s.drop.code = s.code := rfl
@[simp] theorem State.drop_inq (s : State) : s.drop.inq = s.inq := rfl
@[simp] theorem State.drop_outq (s : State) : s.drop.outq = s.outq := rfl
@[simp] theorem State.drop_got (s : State) : s.drop.got = s.got := rfl
@[simp] theorem State.drop_sent (s : State) : s.drop.sent = s.sent := rfl
@[simp] theorem State.drop_rst (s : State) : s.drop.rst = s.rst := rfl
@[simp] theorem State.drop_inDepth (s : State) : s.drop.inDepth = s.inDepth := rfl
@[simp] theorem State.drop_outDepth (s : State) : s.drop.outDepth = s.outDepth := rfl
@[simp] theorem State.drop_script (s : State) : s.drop.script = s.script := rfl
@[simp] theorem State.drop_turns (s : State) : s.drop.turns = s.turns := rfl
@[simp] theorem State.drop_resp (s : State) : s.drop.resp = s.resp := rfl
@[simp] theorem State.drop_taken (s : State) : s.drop.taken = s.taken := rfl
@[simp] theorem State.drop_draws (s : State) : s.drop.draws = s.draws := rfl

/-! ## `State.accept` -/

@[simp] theorem State.accept_ieDone (i : Instr) (s : State) : (s.accept i).ieDone = s.ieDone := rfl
@[simp] theorem State.accept_ieErr (i : Instr) (s : State) : (s.accept i).ieErr = s.ieErr := rfl
@[simp] theorem State.accept_busy (i : Instr) (s : State) : (s.accept i).busy = true := rfl
@[simp] theorem State.accept_done (i : Instr) (s : State) : (s.accept i).done = false := rfl
@[simp] theorem State.accept_err (i : Instr) (s : State) : (s.accept i).err = s.err := rfl
@[simp] theorem State.accept_ovr (i : Instr) (s : State) : (s.accept i).ovr = s.ovr := rfl
@[simp] theorem State.accept_errCode (i : Instr) (s : State) : (s.accept i).errCode = s.errCode := rfl
@[simp] theorem State.accept_errSub (i : Instr) (s : State) : (s.accept i).errSub = s.errSub := rfl
@[simp] theorem State.accept_curCmd (i : Instr) (s : State) : (s.accept i).curCmd = encode i := rfl
@[simp] theorem State.accept_len (i : Instr) (s : State) : (s.accept i).len = s.len := rfl
@[simp] theorem State.accept_count (i : Instr) (s : State) : (s.accept i).count = s.count := rfl
@[simp] theorem State.accept_lenL (i : Instr) (s : State) : (s.accept i).lenL = s.len := rfl
@[simp] theorem State.accept_countL (i : Instr) (s : State) : (s.accept i).countL = s.count := rfl
@[simp] theorem State.accept_outCount (i : Instr) (s : State) : (s.accept i).outCount = s.outCount := rfl
@[simp] theorem State.accept_errInfo (i : Instr) (s : State) : (s.accept i).errInfo = s.errInfo := rfl
@[simp] theorem State.accept_freq (i : Instr) (s : State) : (s.accept i).freq = s.freq := rfl
@[simp] theorem State.accept_total (i : Instr) (s : State) : (s.accept i).total = s.total := rfl
@[simp] theorem State.accept_node (i : Instr) (s : State) : (s.accept i).node = s.node := rfl
@[simp] theorem State.accept_root (i : Instr) (s : State) : (s.accept i).root = s.root := rfl
@[simp] theorem State.accept_nnodes (i : Instr) (s : State) : (s.accept i).nnodes = s.nnodes := rfl
@[simp] theorem State.accept_code (i : Instr) (s : State) : (s.accept i).code = s.code := rfl
@[simp] theorem State.accept_inq (i : Instr) (s : State) : (s.accept i).inq = s.inq := rfl
@[simp] theorem State.accept_outq (i : Instr) (s : State) : (s.accept i).outq = s.outq := rfl
@[simp] theorem State.accept_got (i : Instr) (s : State) : (s.accept i).got = [] := rfl
@[simp] theorem State.accept_sent (i : Instr) (s : State) : (s.accept i).sent = 0 := rfl
@[simp] theorem State.accept_rst (i : Instr) (s : State) : (s.accept i).rst = s.rst := rfl
@[simp] theorem State.accept_inDepth (i : Instr) (s : State) : (s.accept i).inDepth = s.inDepth := rfl
@[simp] theorem State.accept_outDepth (i : Instr) (s : State) : (s.accept i).outDepth = s.outDepth := rfl
@[simp] theorem State.accept_script (i : Instr) (s : State) : (s.accept i).script = s.script := rfl
@[simp] theorem State.accept_turns (i : Instr) (s : State) : (s.accept i).turns = s.turns := rfl
@[simp] theorem State.accept_resp (i : Instr) (s : State) : (s.accept i).resp = s.resp := rfl
@[simp] theorem State.accept_taken (i : Instr) (s : State) : (s.accept i).taken = s.taken := rfl
@[simp] theorem State.accept_draws (i : Instr) (s : State) : (s.accept i).draws = s.draws := rfl

/-! ## `State.raise` -/

@[simp] theorem State.raise_ieDone (c : ErrCause) (info : Word) (s : State) : (s.raise c info).ieDone = s.ieDone := rfl
@[simp] theorem State.raise_ieErr (c : ErrCause) (info : Word) (s : State) : (s.raise c info).ieErr = s.ieErr := rfl
@[simp] theorem State.raise_busy (c : ErrCause) (info : Word) (s : State) : (s.raise c info).busy = false := rfl
@[simp] theorem State.raise_done (c : ErrCause) (info : Word) (s : State) : (s.raise c info).done = false := rfl
@[simp] theorem State.raise_err (c : ErrCause) (info : Word) (s : State) : (s.raise c info).err = true := rfl
@[simp] theorem State.raise_ovr (c : ErrCause) (info : Word) (s : State) : (s.raise c info).ovr = s.ovr := rfl
@[simp] theorem State.raise_errCode (c : ErrCause) (info : Word) (s : State) : (s.raise c info).errCode = c.code := rfl
@[simp] theorem State.raise_errSub (c : ErrCause) (info : Word) (s : State) : (s.raise c info).errSub = c.sub := rfl
@[simp] theorem State.raise_curCmd (c : ErrCause) (info : Word) (s : State) : (s.raise c info).curCmd = s.curCmd := rfl
@[simp] theorem State.raise_len (c : ErrCause) (info : Word) (s : State) : (s.raise c info).len = s.len := rfl
@[simp] theorem State.raise_count (c : ErrCause) (info : Word) (s : State) : (s.raise c info).count = s.count := rfl
@[simp] theorem State.raise_lenL (c : ErrCause) (info : Word) (s : State) : (s.raise c info).lenL = s.lenL := rfl
@[simp] theorem State.raise_countL (c : ErrCause) (info : Word) (s : State) : (s.raise c info).countL = s.countL := rfl
@[simp] theorem State.raise_outCount (c : ErrCause) (info : Word) (s : State) : (s.raise c info).outCount = s.outCount := rfl
@[simp] theorem State.raise_errInfo (c : ErrCause) (info : Word) (s : State) : (s.raise c info).errInfo = info := rfl
@[simp] theorem State.raise_freq (c : ErrCause) (info : Word) (s : State) : (s.raise c info).freq = s.freq := rfl
@[simp] theorem State.raise_total (c : ErrCause) (info : Word) (s : State) : (s.raise c info).total = s.total := rfl
@[simp] theorem State.raise_node (c : ErrCause) (info : Word) (s : State) : (s.raise c info).node = s.node := rfl
@[simp] theorem State.raise_root (c : ErrCause) (info : Word) (s : State) : (s.raise c info).root = s.root := rfl
@[simp] theorem State.raise_nnodes (c : ErrCause) (info : Word) (s : State) : (s.raise c info).nnodes = s.nnodes := rfl
@[simp] theorem State.raise_code (c : ErrCause) (info : Word) (s : State) : (s.raise c info).code = s.code := rfl
@[simp] theorem State.raise_inq (c : ErrCause) (info : Word) (s : State) : (s.raise c info).inq = s.inq := rfl
@[simp] theorem State.raise_outq (c : ErrCause) (info : Word) (s : State) : (s.raise c info).outq = s.outq := rfl
@[simp] theorem State.raise_got (c : ErrCause) (info : Word) (s : State) : (s.raise c info).got = s.got := rfl
@[simp] theorem State.raise_sent (c : ErrCause) (info : Word) (s : State) : (s.raise c info).sent = s.sent := rfl
@[simp] theorem State.raise_rst (c : ErrCause) (info : Word) (s : State) : (s.raise c info).rst = s.rst := rfl
@[simp] theorem State.raise_inDepth (c : ErrCause) (info : Word) (s : State) : (s.raise c info).inDepth = s.inDepth := rfl
@[simp] theorem State.raise_outDepth (c : ErrCause) (info : Word) (s : State) : (s.raise c info).outDepth = s.outDepth := rfl
@[simp] theorem State.raise_script (c : ErrCause) (info : Word) (s : State) : (s.raise c info).script = s.script := rfl
@[simp] theorem State.raise_turns (c : ErrCause) (info : Word) (s : State) : (s.raise c info).turns = s.turns := rfl
@[simp] theorem State.raise_resp (c : ErrCause) (info : Word) (s : State) : (s.raise c info).resp = s.resp := rfl
@[simp] theorem State.raise_taken (c : ErrCause) (info : Word) (s : State) : (s.raise c info).taken = s.taken := rfl
@[simp] theorem State.raise_draws (c : ErrCause) (info : Word) (s : State) : (s.raise c info).draws = s.draws := rfl

/-! ## `State.pushIn` -/

@[simp] theorem State.pushIn_ieDone (b : Byte) (s : State) : (s.pushIn b).ieDone = s.ieDone := rfl
@[simp] theorem State.pushIn_ieErr (b : Byte) (s : State) : (s.pushIn b).ieErr = s.ieErr := rfl
@[simp] theorem State.pushIn_busy (b : Byte) (s : State) : (s.pushIn b).busy = s.busy := rfl
@[simp] theorem State.pushIn_done (b : Byte) (s : State) : (s.pushIn b).done = s.done := rfl
@[simp] theorem State.pushIn_err (b : Byte) (s : State) : (s.pushIn b).err = s.err := rfl
@[simp] theorem State.pushIn_ovr (b : Byte) (s : State) : (s.pushIn b).ovr = s.ovr := rfl
@[simp] theorem State.pushIn_errCode (b : Byte) (s : State) : (s.pushIn b).errCode = s.errCode := rfl
@[simp] theorem State.pushIn_errSub (b : Byte) (s : State) : (s.pushIn b).errSub = s.errSub := rfl
@[simp] theorem State.pushIn_curCmd (b : Byte) (s : State) : (s.pushIn b).curCmd = s.curCmd := rfl
@[simp] theorem State.pushIn_len (b : Byte) (s : State) : (s.pushIn b).len = s.len := rfl
@[simp] theorem State.pushIn_count (b : Byte) (s : State) : (s.pushIn b).count = s.count := rfl
@[simp] theorem State.pushIn_lenL (b : Byte) (s : State) : (s.pushIn b).lenL = s.lenL := rfl
@[simp] theorem State.pushIn_countL (b : Byte) (s : State) : (s.pushIn b).countL = s.countL := rfl
@[simp] theorem State.pushIn_outCount (b : Byte) (s : State) : (s.pushIn b).outCount = s.outCount := rfl
@[simp] theorem State.pushIn_errInfo (b : Byte) (s : State) : (s.pushIn b).errInfo = s.errInfo := rfl
@[simp] theorem State.pushIn_freq (b : Byte) (s : State) : (s.pushIn b).freq = s.freq := rfl
@[simp] theorem State.pushIn_total (b : Byte) (s : State) : (s.pushIn b).total = s.total := rfl
@[simp] theorem State.pushIn_node (b : Byte) (s : State) : (s.pushIn b).node = s.node := rfl
@[simp] theorem State.pushIn_root (b : Byte) (s : State) : (s.pushIn b).root = s.root := rfl
@[simp] theorem State.pushIn_nnodes (b : Byte) (s : State) : (s.pushIn b).nnodes = s.nnodes := rfl
@[simp] theorem State.pushIn_code (b : Byte) (s : State) : (s.pushIn b).code = s.code := rfl
@[simp] theorem State.pushIn_inq (b : Byte) (s : State) : (s.pushIn b).inq = s.inq ++ [b] := rfl
@[simp] theorem State.pushIn_outq (b : Byte) (s : State) : (s.pushIn b).outq = s.outq := rfl
@[simp] theorem State.pushIn_got (b : Byte) (s : State) : (s.pushIn b).got = s.got := rfl
@[simp] theorem State.pushIn_sent (b : Byte) (s : State) : (s.pushIn b).sent = s.sent := rfl
@[simp] theorem State.pushIn_rst (b : Byte) (s : State) : (s.pushIn b).rst = s.rst := rfl
@[simp] theorem State.pushIn_inDepth (b : Byte) (s : State) : (s.pushIn b).inDepth = s.inDepth := rfl
@[simp] theorem State.pushIn_outDepth (b : Byte) (s : State) : (s.pushIn b).outDepth = s.outDepth := rfl
@[simp] theorem State.pushIn_script (b : Byte) (s : State) : (s.pushIn b).script = s.script := rfl
@[simp] theorem State.pushIn_turns (b : Byte) (s : State) : (s.pushIn b).turns = s.turns := rfl
@[simp] theorem State.pushIn_resp (b : Byte) (s : State) : (s.pushIn b).resp = s.resp := rfl
@[simp] theorem State.pushIn_taken (b : Byte) (s : State) : (s.pushIn b).taken = s.taken := rfl
@[simp] theorem State.pushIn_draws (b : Byte) (s : State) : (s.pushIn b).draws = s.draws := rfl

/-! ## `State.popOut` -/

@[simp] theorem State.popOut_ieDone (s : State) : s.popOut.ieDone = s.ieDone := rfl
@[simp] theorem State.popOut_ieErr (s : State) : s.popOut.ieErr = s.ieErr := rfl
@[simp] theorem State.popOut_busy (s : State) : s.popOut.busy = s.busy := rfl
@[simp] theorem State.popOut_done (s : State) : s.popOut.done = s.done := rfl
@[simp] theorem State.popOut_err (s : State) : s.popOut.err = s.err := rfl
@[simp] theorem State.popOut_ovr (s : State) : s.popOut.ovr = s.ovr := rfl
@[simp] theorem State.popOut_errCode (s : State) : s.popOut.errCode = s.errCode := rfl
@[simp] theorem State.popOut_errSub (s : State) : s.popOut.errSub = s.errSub := rfl
@[simp] theorem State.popOut_curCmd (s : State) : s.popOut.curCmd = s.curCmd := rfl
@[simp] theorem State.popOut_len (s : State) : s.popOut.len = s.len := rfl
@[simp] theorem State.popOut_count (s : State) : s.popOut.count = s.count := rfl
@[simp] theorem State.popOut_lenL (s : State) : s.popOut.lenL = s.lenL := rfl
@[simp] theorem State.popOut_countL (s : State) : s.popOut.countL = s.countL := rfl
@[simp] theorem State.popOut_outCount (s : State) : s.popOut.outCount = s.outCount := rfl
@[simp] theorem State.popOut_errInfo (s : State) : s.popOut.errInfo = s.errInfo := rfl
@[simp] theorem State.popOut_freq (s : State) : s.popOut.freq = s.freq := rfl
@[simp] theorem State.popOut_total (s : State) : s.popOut.total = s.total := rfl
@[simp] theorem State.popOut_node (s : State) : s.popOut.node = s.node := rfl
@[simp] theorem State.popOut_root (s : State) : s.popOut.root = s.root := rfl
@[simp] theorem State.popOut_nnodes (s : State) : s.popOut.nnodes = s.nnodes := rfl
@[simp] theorem State.popOut_code (s : State) : s.popOut.code = s.code := rfl
@[simp] theorem State.popOut_inq (s : State) : s.popOut.inq = s.inq := rfl
@[simp] theorem State.popOut_outq (s : State) : s.popOut.outq = s.outq.drop 1 := rfl
@[simp] theorem State.popOut_got (s : State) : s.popOut.got = s.got := rfl
@[simp] theorem State.popOut_sent (s : State) : s.popOut.sent = s.sent := rfl
@[simp] theorem State.popOut_rst (s : State) : s.popOut.rst = s.rst := rfl
@[simp] theorem State.popOut_inDepth (s : State) : s.popOut.inDepth = s.inDepth := rfl
@[simp] theorem State.popOut_outDepth (s : State) : s.popOut.outDepth = s.outDepth := rfl
@[simp] theorem State.popOut_script (s : State) : s.popOut.script = s.script := rfl
@[simp] theorem State.popOut_turns (s : State) : s.popOut.turns = s.turns := rfl
@[simp] theorem State.popOut_resp (s : State) : s.popOut.resp = s.resp := rfl
@[simp] theorem State.popOut_taken (s : State) : s.popOut.taken = s.taken ++ s.outq.take 1 := rfl
@[simp] theorem State.popOut_draws (s : State) : s.popOut.draws = s.draws := rfl

/-! ## `State.withTree` -/

@[simp] theorem State.withTree_ieDone (s : State) (t : TreeTable) : (s.withTree t).ieDone = s.ieDone := rfl
@[simp] theorem State.withTree_ieErr (s : State) (t : TreeTable) : (s.withTree t).ieErr = s.ieErr := rfl
@[simp] theorem State.withTree_busy (s : State) (t : TreeTable) : (s.withTree t).busy = s.busy := rfl
@[simp] theorem State.withTree_done (s : State) (t : TreeTable) : (s.withTree t).done = s.done := rfl
@[simp] theorem State.withTree_err (s : State) (t : TreeTable) : (s.withTree t).err = s.err := rfl
@[simp] theorem State.withTree_ovr (s : State) (t : TreeTable) : (s.withTree t).ovr = s.ovr := rfl
@[simp] theorem State.withTree_errCode (s : State) (t : TreeTable) : (s.withTree t).errCode = s.errCode := rfl
@[simp] theorem State.withTree_errSub (s : State) (t : TreeTable) : (s.withTree t).errSub = s.errSub := rfl
@[simp] theorem State.withTree_curCmd (s : State) (t : TreeTable) : (s.withTree t).curCmd = s.curCmd := rfl
@[simp] theorem State.withTree_len (s : State) (t : TreeTable) : (s.withTree t).len = s.len := rfl
@[simp] theorem State.withTree_count (s : State) (t : TreeTable) : (s.withTree t).count = s.count := rfl
@[simp] theorem State.withTree_lenL (s : State) (t : TreeTable) : (s.withTree t).lenL = s.lenL := rfl
@[simp] theorem State.withTree_countL (s : State) (t : TreeTable) : (s.withTree t).countL = s.countL := rfl
@[simp] theorem State.withTree_outCount (s : State) (t : TreeTable) : (s.withTree t).outCount = s.outCount := rfl
@[simp] theorem State.withTree_errInfo (s : State) (t : TreeTable) : (s.withTree t).errInfo = s.errInfo := rfl
@[simp] theorem State.withTree_freq (s : State) (t : TreeTable) : (s.withTree t).freq = s.freq := rfl
@[simp] theorem State.withTree_total (s : State) (t : TreeTable) : (s.withTree t).total = s.total := rfl
@[simp] theorem State.withTree_node (s : State) (t : TreeTable) : (s.withTree t).node = t.node := rfl
@[simp] theorem State.withTree_root (s : State) (t : TreeTable) : (s.withTree t).root = t.root := rfl
@[simp] theorem State.withTree_nnodes (s : State) (t : TreeTable) : (s.withTree t).nnodes = t.nnodes := rfl
@[simp] theorem State.withTree_code (s : State) (t : TreeTable) : (s.withTree t).code = noCodes := rfl
@[simp] theorem State.withTree_inq (s : State) (t : TreeTable) : (s.withTree t).inq = s.inq := rfl
@[simp] theorem State.withTree_outq (s : State) (t : TreeTable) : (s.withTree t).outq = s.outq := rfl
@[simp] theorem State.withTree_got (s : State) (t : TreeTable) : (s.withTree t).got = s.got := rfl
@[simp] theorem State.withTree_sent (s : State) (t : TreeTable) : (s.withTree t).sent = s.sent := rfl
@[simp] theorem State.withTree_rst (s : State) (t : TreeTable) : (s.withTree t).rst = s.rst := rfl
@[simp] theorem State.withTree_inDepth (s : State) (t : TreeTable) : (s.withTree t).inDepth = s.inDepth := rfl
@[simp] theorem State.withTree_outDepth (s : State) (t : TreeTable) : (s.withTree t).outDepth = s.outDepth := rfl
@[simp] theorem State.withTree_script (s : State) (t : TreeTable) : (s.withTree t).script = s.script := rfl
@[simp] theorem State.withTree_turns (s : State) (t : TreeTable) : (s.withTree t).turns = s.turns := rfl
@[simp] theorem State.withTree_resp (s : State) (t : TreeTable) : (s.withTree t).resp = s.resp := rfl
@[simp] theorem State.withTree_taken (s : State) (t : TreeTable) : (s.withTree t).taken = s.taken := rfl
@[simp] theorem State.withTree_draws (s : State) (t : TreeTable) : (s.withTree t).draws = s.draws := rfl

/-! ## `State.busError` -/

@[simp] theorem State.busError_ieDone (s : State) : s.busError.ieDone = s.ieDone := rfl
@[simp] theorem State.busError_ieErr (s : State) : s.busError.ieErr = s.ieErr := rfl
@[simp] theorem State.busError_busy (s : State) : s.busError.busy = s.busy := rfl
@[simp] theorem State.busError_done (s : State) : s.busError.done = s.done := rfl
@[simp] theorem State.busError_err (s : State) : s.busError.err = s.err := rfl
@[simp] theorem State.busError_ovr (s : State) : s.busError.ovr = s.ovr := rfl
@[simp] theorem State.busError_errCode (s : State) : s.busError.errCode = s.errCode := rfl
@[simp] theorem State.busError_errSub (s : State) : s.busError.errSub = s.errSub := rfl
@[simp] theorem State.busError_curCmd (s : State) : s.busError.curCmd = s.curCmd := rfl
@[simp] theorem State.busError_len (s : State) : s.busError.len = s.len := rfl
@[simp] theorem State.busError_count (s : State) : s.busError.count = s.count := rfl
@[simp] theorem State.busError_lenL (s : State) : s.busError.lenL = s.lenL := rfl
@[simp] theorem State.busError_countL (s : State) : s.busError.countL = s.countL := rfl
@[simp] theorem State.busError_outCount (s : State) : s.busError.outCount = s.outCount := rfl
@[simp] theorem State.busError_errInfo (s : State) : s.busError.errInfo = s.errInfo := rfl
@[simp] theorem State.busError_freq (s : State) : s.busError.freq = s.freq := rfl
@[simp] theorem State.busError_total (s : State) : s.busError.total = s.total := rfl
@[simp] theorem State.busError_node (s : State) : s.busError.node = s.node := rfl
@[simp] theorem State.busError_root (s : State) : s.busError.root = s.root := rfl
@[simp] theorem State.busError_nnodes (s : State) : s.busError.nnodes = s.nnodes := rfl
@[simp] theorem State.busError_code (s : State) : s.busError.code = s.code := rfl
@[simp] theorem State.busError_inq (s : State) : s.busError.inq = s.inq := rfl
@[simp] theorem State.busError_outq (s : State) : s.busError.outq = s.outq := rfl
@[simp] theorem State.busError_got (s : State) : s.busError.got = s.got := rfl
@[simp] theorem State.busError_sent (s : State) : s.busError.sent = s.sent := rfl
@[simp] theorem State.busError_rst (s : State) : s.busError.rst = s.rst := rfl
@[simp] theorem State.busError_inDepth (s : State) : s.busError.inDepth = s.inDepth := rfl
@[simp] theorem State.busError_outDepth (s : State) : s.busError.outDepth = s.outDepth := rfl
@[simp] theorem State.busError_script (s : State) : s.busError.script = s.script := rfl
@[simp] theorem State.busError_turns (s : State) : s.busError.turns = s.turns := rfl
@[simp] theorem State.busError_resp (s : State) : s.busError.resp = .busError := rfl
@[simp] theorem State.busError_taken (s : State) : s.busError.taken = s.taken := rfl
@[simp] theorem State.busError_draws (s : State) : s.busError.draws = s.draws := rfl

/-! ## `State.softReset`: the host side stays, the block takes its reset value -/

@[simp] theorem State.softReset_ieDone (s : State) : s.softReset.ieDone = State.reset.ieDone := rfl
@[simp] theorem State.softReset_ieErr (s : State) : s.softReset.ieErr = State.reset.ieErr := rfl
@[simp] theorem State.softReset_busy (s : State) : s.softReset.busy = State.reset.busy := rfl
@[simp] theorem State.softReset_done (s : State) : s.softReset.done = State.reset.done := rfl
@[simp] theorem State.softReset_err (s : State) : s.softReset.err = State.reset.err := rfl
@[simp] theorem State.softReset_ovr (s : State) : s.softReset.ovr = State.reset.ovr := rfl
@[simp] theorem State.softReset_errCode (s : State) : s.softReset.errCode = State.reset.errCode := rfl
@[simp] theorem State.softReset_errSub (s : State) : s.softReset.errSub = State.reset.errSub := rfl
@[simp] theorem State.softReset_curCmd (s : State) : s.softReset.curCmd = State.reset.curCmd := rfl
@[simp] theorem State.softReset_len (s : State) : s.softReset.len = State.reset.len := rfl
@[simp] theorem State.softReset_count (s : State) : s.softReset.count = State.reset.count := rfl
@[simp] theorem State.softReset_lenL (s : State) : s.softReset.lenL = State.reset.lenL := rfl
@[simp] theorem State.softReset_countL (s : State) : s.softReset.countL = State.reset.countL := rfl
@[simp] theorem State.softReset_outCount (s : State) : s.softReset.outCount = State.reset.outCount := rfl
@[simp] theorem State.softReset_errInfo (s : State) : s.softReset.errInfo = State.reset.errInfo := rfl
@[simp] theorem State.softReset_freq (s : State) : s.softReset.freq = State.reset.freq := rfl
@[simp] theorem State.softReset_total (s : State) : s.softReset.total = State.reset.total := rfl
@[simp] theorem State.softReset_node (s : State) : s.softReset.node = State.reset.node := rfl
@[simp] theorem State.softReset_root (s : State) : s.softReset.root = State.reset.root := rfl
@[simp] theorem State.softReset_nnodes (s : State) : s.softReset.nnodes = State.reset.nnodes := rfl
@[simp] theorem State.softReset_code (s : State) : s.softReset.code = State.reset.code := rfl
@[simp] theorem State.softReset_inq (s : State) : s.softReset.inq = State.reset.inq := rfl
@[simp] theorem State.softReset_outq (s : State) : s.softReset.outq = State.reset.outq := rfl
@[simp] theorem State.softReset_got (s : State) : s.softReset.got = State.reset.got := rfl
@[simp] theorem State.softReset_sent (s : State) : s.softReset.sent = State.reset.sent := rfl
@[simp] theorem State.softReset_rst (s : State) : s.softReset.rst = s.rst := rfl
@[simp] theorem State.softReset_inDepth (s : State) : s.softReset.inDepth = s.inDepth := rfl
@[simp] theorem State.softReset_outDepth (s : State) : s.softReset.outDepth = s.outDepth := rfl
@[simp] theorem State.softReset_script (s : State) : s.softReset.script = s.script := rfl
@[simp] theorem State.softReset_turns (s : State) : s.softReset.turns = s.turns := rfl
@[simp] theorem State.softReset_resp (s : State) : s.softReset.resp = s.resp := rfl
@[simp] theorem State.softReset_taken (s : State) : s.softReset.taken = s.taken := rfl
@[simp] theorem State.softReset_draws (s : State) : s.softReset.draws = s.draws := rfl

/-! ## `State.reset` (R43) -/

@[simp] theorem State.reset_ieDone : State.reset.ieDone = false := rfl
@[simp] theorem State.reset_ieErr : State.reset.ieErr = false := rfl
@[simp] theorem State.reset_busy : State.reset.busy = false := rfl
@[simp] theorem State.reset_done : State.reset.done = false := rfl
@[simp] theorem State.reset_err : State.reset.err = false := rfl
@[simp] theorem State.reset_ovr : State.reset.ovr = false := rfl
@[simp] theorem State.reset_errCode : State.reset.errCode = 0 := rfl
@[simp] theorem State.reset_errSub : State.reset.errSub = 0 := rfl
@[simp] theorem State.reset_curCmd : State.reset.curCmd = 0 := rfl
@[simp] theorem State.reset_len : State.reset.len = 0 := rfl
@[simp] theorem State.reset_count : State.reset.count = 0 := rfl
@[simp] theorem State.reset_lenL : State.reset.lenL = 0 := rfl
@[simp] theorem State.reset_countL : State.reset.countL = 0 := rfl
@[simp] theorem State.reset_outCount : State.reset.outCount = 0 := rfl
@[simp] theorem State.reset_errInfo : State.reset.errInfo = 0 := rfl
@[simp] theorem State.reset_freq : State.reset.freq = zeroFreq := rfl
@[simp] theorem State.reset_total : State.reset.total = 0 := rfl
@[simp] theorem State.reset_node : State.reset.node = noNodes := rfl
@[simp] theorem State.reset_root : State.reset.root = NIL := rfl
@[simp] theorem State.reset_nnodes : State.reset.nnodes = 0 := rfl
@[simp] theorem State.reset_code : State.reset.code = noCodes := rfl
@[simp] theorem State.reset_inq : State.reset.inq = [] := rfl
@[simp] theorem State.reset_outq : State.reset.outq = [] := rfl
@[simp] theorem State.reset_got : State.reset.got = [] := rfl
@[simp] theorem State.reset_sent : State.reset.sent = 0 := rfl
@[simp] theorem State.reset_rst : State.reset.rst = false := rfl
@[simp] theorem State.reset_inDepth : State.reset.inDepth = Config.inDepth := rfl
@[simp] theorem State.reset_outDepth : State.reset.outDepth = Config.outDepth := rfl
@[simp] theorem State.reset_script : State.reset.script = [] := rfl
@[simp] theorem State.reset_turns : State.reset.turns = [] := rfl
@[simp] theorem State.reset_resp : State.reset.resp = .none := rfl
@[simp] theorem State.reset_taken : State.reset.taken = [] := rfl
@[simp] theorem State.reset_draws : State.reset.draws = 0 := rfl

/-! ## `Body.complete` (R206) -/

theorem Body.complete_of_noError {b : Body} (h : b.err = none) :
    b.complete =
      { b.after with
        outCount := BitVec.ofNat 64 b.out.length, busy := false, got := [], sent := 0, done := true } := by
  simp [Body.complete, h]

theorem Body.complete_of_error {b : Body} {e : ErrCause × Word} (h : b.err = some e) :
    b.complete =
      { b.after with
        outCount := BitVec.ofNat 64 b.out.length, busy := false, got := [], sent := 0, done := false, err := true,
        errCode := e.1.code, errSub := e.1.sub, errInfo := e.2 } := by
  simp [Body.complete, h, State.raise]

@[simp] theorem Body.complete_ieDone (b : Body) : b.complete.ieDone = b.after.ieDone := by
  unfold Body.complete; split <;> simp [*]
@[simp] theorem Body.complete_ieErr (b : Body) : b.complete.ieErr = b.after.ieErr := by
  unfold Body.complete; split <;> simp [*]
@[simp] theorem Body.complete_busy (b : Body) : b.complete.busy = false := by
  unfold Body.complete; split <;> simp [*]
@[simp] theorem Body.complete_done (b : Body) : b.complete.done = b.err.isNone := by
  unfold Body.complete; split <;> simp [*]
@[simp] theorem Body.complete_err (b : Body) : b.complete.err = (b.err.isSome || b.after.err) := by
  unfold Body.complete; split <;> simp [*]
@[simp] theorem Body.complete_ovr (b : Body) : b.complete.ovr = b.after.ovr := by
  unfold Body.complete; split <;> simp [*]
@[simp] theorem Body.complete_curCmd (b : Body) : b.complete.curCmd = b.after.curCmd := by
  unfold Body.complete; split <;> simp [*]
@[simp] theorem Body.complete_len (b : Body) : b.complete.len = b.after.len := by
  unfold Body.complete; split <;> simp [*]
@[simp] theorem Body.complete_count (b : Body) : b.complete.count = b.after.count := by
  unfold Body.complete; split <;> simp [*]
@[simp] theorem Body.complete_lenL (b : Body) : b.complete.lenL = b.after.lenL := by
  unfold Body.complete; split <;> simp [*]
@[simp] theorem Body.complete_countL (b : Body) : b.complete.countL = b.after.countL := by
  unfold Body.complete; split <;> simp [*]
@[simp] theorem Body.complete_outCount (b : Body) : b.complete.outCount = BitVec.ofNat 64 b.out.length := by
  unfold Body.complete; split <;> simp [*]
@[simp] theorem Body.complete_freq (b : Body) : b.complete.freq = b.after.freq := by
  unfold Body.complete; split <;> simp [*]
@[simp] theorem Body.complete_total (b : Body) : b.complete.total = b.after.total := by
  unfold Body.complete; split <;> simp [*]
@[simp] theorem Body.complete_node (b : Body) : b.complete.node = b.after.node := by
  unfold Body.complete; split <;> simp [*]
@[simp] theorem Body.complete_root (b : Body) : b.complete.root = b.after.root := by
  unfold Body.complete; split <;> simp [*]
@[simp] theorem Body.complete_nnodes (b : Body) : b.complete.nnodes = b.after.nnodes := by
  unfold Body.complete; split <;> simp [*]
@[simp] theorem Body.complete_code (b : Body) : b.complete.code = b.after.code := by
  unfold Body.complete; split <;> simp [*]
@[simp] theorem Body.complete_inq (b : Body) : b.complete.inq = b.after.inq := by
  unfold Body.complete; split <;> simp [*]
@[simp] theorem Body.complete_outq (b : Body) : b.complete.outq = b.after.outq := by
  unfold Body.complete; split <;> simp [*]
@[simp] theorem Body.complete_got (b : Body) : b.complete.got = [] := by
  unfold Body.complete; split <;> simp [*]
@[simp] theorem Body.complete_sent (b : Body) : b.complete.sent = 0 := by
  unfold Body.complete; split <;> simp [*]
@[simp] theorem Body.complete_rst (b : Body) : b.complete.rst = b.after.rst := by
  unfold Body.complete; split <;> simp [*]
@[simp] theorem Body.complete_inDepth (b : Body) : b.complete.inDepth = b.after.inDepth := by
  unfold Body.complete; split <;> simp [*]
@[simp] theorem Body.complete_outDepth (b : Body) : b.complete.outDepth = b.after.outDepth := by
  unfold Body.complete; split <;> simp [*]
@[simp] theorem Body.complete_script (b : Body) : b.complete.script = b.after.script := by
  unfold Body.complete; split <;> simp [*]
@[simp] theorem Body.complete_turns (b : Body) : b.complete.turns = b.after.turns := by
  unfold Body.complete; split <;> simp [*]
@[simp] theorem Body.complete_resp (b : Body) : b.complete.resp = b.after.resp := by
  unfold Body.complete; split <;> simp [*]
@[simp] theorem Body.complete_taken (b : Body) : b.complete.taken = b.after.taken := by
  unfold Body.complete; split <;> simp [*]
@[simp] theorem Body.complete_draws (b : Body) : b.complete.draws = b.after.draws := by
  unfold Body.complete; split <;> simp [*]

end Sys2Proof.Machine
end

