-- ==== Sys2Proof/Laws/Tables.lean ====
section
/-! SUPPORT. Read after write on the three tables, and when two tables are equal. -/

namespace Sys2Proof.Machine

/-! ## FREQ -/

@[simp] theorem freqAt_setFreq_same (f : FreqTable) (b : Byte) (v : Word) : freqAt (setFreq f b v) b = v := by
  simp [freqAt, setFreq]

theorem freqAt_setFreq_ne (f : FreqTable) {a b : Byte} (v : Word) (h : a ≠ b) :
    freqAt (setFreq f b v) a = freqAt f a := by
  have : b.toNat ≠ a.toNat := fun e => h (BitVec.eq_of_toNat_eq e.symm)
  simp [freqAt, setFreq, this]

@[simp] theorem freqAt_zeroFreq (b : Byte) : freqAt zeroFreq b = 0 := by
  simp [freqAt, zeroFreq]

theorem freqTable_ext {f g : FreqTable} (h : ∀ b, freqAt f b = freqAt g b) : f = g := by
  apply Vector.ext
  intro i hi
  have := h (BitVec.ofNat 8 i)
  simpa [freqAt, Nat.mod_eq_of_lt hi] using this

/-! ## CODE -/

@[simp] theorem codeAt_setCode_same (c : CodeTable) (b : Byte) (e : CodeEntry) : codeAt (setCode c b e) b = e := by
  simp [codeAt, setCode]

theorem codeAt_setCode_ne (c : CodeTable) {a b : Byte} (e : CodeEntry) (h : a ≠ b) :
    codeAt (setCode c b e) a = codeAt c a := by
  have : b.toNat ≠ a.toNat := fun e => h (BitVec.eq_of_toNat_eq e.symm)
  simp [codeAt, setCode, this]

@[simp] theorem codeAt_noCodes (b : Byte) : codeAt noCodes b = CodeEntry.invalid := by
  simp [codeAt, noCodes]

theorem codeTable_ext {c d : CodeTable} (h : ∀ b, codeAt c b = codeAt d b) : c = d := by
  apply Vector.ext
  intro i hi
  have := h (BitVec.ofNat 8 i)
  simpa [codeAt, Nat.mod_eq_of_lt hi] using this

/-! ## NODE -/

@[simp] theorem NIL_toNat : NIL.toNat = 511 := rfl

theorem idx_lt_of_ne_NIL {i : Idx} (h : i ≠ NIL) : i.toNat < 511 := by
  have h1 : i.toNat < 512 := i.isLt
  have h2 : i.toNat ≠ 511 := fun e => h (BitVec.eq_of_toNat_eq (by simpa using e))
  omega

@[simp] theorem nodeAt_NIL (t : NodeTable) : nodeAt t NIL = Node.invalid := by
  simp [nodeAt]

theorem nodeAt_setNode_same (t : NodeTable) {i : Idx} (n : Node) (h : i ≠ NIL) : nodeAt (setNode t i n) i = n := by
  have := idx_lt_of_ne_NIL h
  simp [nodeAt, setNode, this]

theorem nodeAt_setNode_ne (t : NodeTable) {i j : Idx} (n : Node) (h : j ≠ i) :
    nodeAt (setNode t i n) j = nodeAt t j := by
  have : i.toNat ≠ j.toNat := fun e => h (BitVec.eq_of_toNat_eq e.symm)
  unfold nodeAt setNode
  split
  · split
    · simp [this]
    · rfl
  · rfl

@[simp] theorem nodeAt_noNodes (i : Idx) : nodeAt noNodes i = Node.invalid := by
  unfold nodeAt noNodes
  split <;> simp

theorem ne_NIL_of_valid {t : NodeTable} {i : Idx} (h : (nodeAt t i).valid = true) : i ≠ NIL := by
  rintro rfl
  simp [Node.invalid] at h

theorem nodeTable_ext {t u : NodeTable} (h : ∀ i, nodeAt t i = nodeAt u i) : t = u := by
  apply Vector.ext
  intro i hi
  have := h (BitVec.ofNat 9 i)
  have hm : i % 512 = i := Nat.mod_eq_of_lt (by omega)
  simpa [nodeAt, hm, hi] using this

@[simp] theorem mkLeaf_valid (v : Byte) (f : Word) : (Node.mkLeaf v f).valid = true := rfl
@[simp] theorem mkLeaf_leaf (v : Byte) (f : Word) : (Node.mkLeaf v f).leaf = true := rfl
@[simp] theorem mkLeaf_value (v : Byte) (f : Word) : (Node.mkLeaf v f).value = v := rfl
@[simp] theorem mkLeaf_freq (v : Byte) (f : Word) : (Node.mkLeaf v f).freq = f := rfl
@[simp] theorem mkInner_valid (l r : Idx) (f : Word) : (Node.mkInner l r f).valid = true := rfl
@[simp] theorem mkInner_leaf (l r : Idx) (f : Word) : (Node.mkInner l r f).leaf = false := rfl
@[simp] theorem mkInner_left (l r : Idx) (f : Word) : (Node.mkInner l r f).left = l := rfl
@[simp] theorem mkInner_right (l r : Idx) (f : Word) : (Node.mkInner l r f).right = r := rfl
@[simp] theorem mkInner_freq (l r : Idx) (f : Word) : (Node.mkInner l r f).freq = f := rfl
@[simp] theorem mkInner_value (l r : Idx) (f : Word) : (Node.mkInner l r f).value = 0 := rfl
@[simp] theorem invalid_valid : Node.invalid.valid = false := rfl

end Sys2Proof.Machine
end

