-- ==== Sys2Proof/Laws/Walks.lean ====
section
/-! SUPPORT. The walks of the node table (GENCODE, SER) are functions of the tree the table stands for
(`10_state.md` rule R35): one lemma each. -/

namespace Sys2Proof.Machine

theorem bitsValue_append (p q : List Bool) : bitsValue (p ++ q) = bitsValue p * 2 ^ q.length + bitsValue q := by
  have key : ∀ (q : List Bool) (n : Nat),
      q.foldl (fun n b => 2 * n + b.toNat) n = n * 2 ^ q.length + q.foldl (fun n b => 2 * n + b.toNat) 0 := by
    intro q
    induction q with
    | nil => simp
    | cons b q ih =>
      intro n
      simp only [List.foldl_cons, List.length_cons]
      rw [ih (2 * n + b.toNat), ih (2 * 0 + b.toNat)]
      ring
  unfold bitsValue
  rw [List.foldl_append, key q]

@[simp] theorem bitsValue_nil : bitsValue [] = 0 := rfl

theorem bitsValue_cons (b : Bool) (p : List Bool) : bitsValue (b :: p) = b.toNat * 2 ^ p.length + bitsValue p := by
  have h := bitsValue_append [b] p
  simpa [bitsValue] using h

theorem bitsValue_lt (p : List Bool) : bitsValue p < 2 ^ p.length := by
  induction p with
  | nil => simp
  | cons b p ih =>
    rw [bitsValue_cons, List.length_cons, pow_succ]
    cases b <;> simp <;> omega

/-! ## `codeOf` -/

theorem codeOf_empty (v : Byte) : Tree.codeOf .empty v = none := rfl

theorem codeOf_leaf (w v : Byte) : Tree.codeOf (.leaf w) v = if w = v then some [] else none := by
  by_cases h : w = v <;> simp [Tree.codeOf, Tree.codes, h]

theorem codeOf_fork (l r : Tree) (v : Byte) :
    Tree.codeOf (.fork l r) v =
      match r.codeOf v with
      | some p => some (true :: p)
      | none => (l.codeOf v).map fun p => false :: p := by
  simp only [Tree.codeOf, Tree.codes, List.reverse_append, List.find?_append, ← List.map_reverse,
    List.find?_map, Function.comp_def]
  cases List.find? (fun c => c.1 == v) r.codes.reverse <;> simp
  cases List.find? (fun c => c.1 == v) l.codes.reverse <;> simp

/-- R131: what the walk from entry `i` writes: every value in the tree at `i` gets the path so far followed by its code,
every other entry stays. -/
theorem codeAt_walkCodes (t : NodeTable) (fuel : Nat) (i : Idx) (len bits : Nat) (c : CodeTable) (b : Byte) :
    codeAt (walkCodes t fuel i len bits c) b =
      match (treeAt t fuel i).codeOf b with
      | none => codeAt c b
      | some p =>
        { valid := true, len := BitVec.ofNat 8 (len + p.length),
          bits := BitVec.ofNat 256 (bits * 2 ^ p.length + bitsValue p) } := by
  induction fuel generalizing i len bits c with
  | zero => simp [walkCodes, treeAt, codeOf_empty]
  | succ fuel ih =>
    unfold walkCodes treeAt
    split
    · simp [codeOf_empty]
    · split
      · rw [codeOf_leaf]
        by_cases h : (nodeAt t i).value = b
        · subst h; simp
        · simpa [h] using codeAt_setCode_ne c _ (fun e => h e.symm)
      · rw [ih, codeOf_fork]
        have arith : ∀ (x : Nat) (p : List Bool),
            (2 * bits + x) * 2 ^ p.length + bitsValue p = bits * 2 ^ (p.length + 1) + (x * 2 ^ p.length + bitsValue p) := by
          intro x p; ring
        have lens : ∀ p : List Bool, len + 1 + p.length = len + (p.length + 1) := by intro p; omega
        cases hr : (treeAt t fuel (nodeAt t i).right).codeOf b with
        | some p => simp only [List.length_cons, bitsValue_cons, arith, lens, Bool.toNat_true]
        | none =>
          simp only [ih]
          cases hl : (treeAt t fuel (nodeAt t i).left).codeOf b with
          | none => rfl
          | some p =>
            have := arith 0 p
            simp only [Nat.add_zero] at this
            simp only [Option.map_some, List.length_cons, bitsValue_cons, this, lens, Bool.toNat_false]

/-- R131: the code table of a tree. -/
theorem codeAt_genCodes (t : NodeTable) (root : Idx) (b : Byte) :
    codeAt (genCodes t root) b = CodeEntry.ofPath ((treeOf t root).codeOf b) := by
  unfold genCodes treeOf
  rw [codeAt_walkCodes]
  cases (treeAt t walkFuel root).codeOf b <;> simp [CodeEntry.ofPath]

/-- R161, R97: what `emit(i)` pushes. -/
theorem emitTree_eq_ser (t : NodeTable) (fuel : Nat) (i : Idx) : emitTree t fuel i = (treeAt t fuel i).ser := by
  induction fuel generalizing i with
  | zero => rfl
  | succ fuel ih =>
    unfold emitTree treeAt
    split
    · rfl
    · split
      · rfl
      · simp [Tree.ser, ih, Config.tagInternal]

theorem serialize_eq_ser (t : NodeTable) (root : Idx) : serialize t root = (treeOf t root).ser :=
  emitTree_eq_ser t walkFuel root

/-! ## Sizes of a full tree -/

theorem Tree.leaves_pos_of_full {t : Tree} (h : t.full = true) : 1 ≤ t.leaves.length := by
  induction t with
  | empty => simp [Tree.full] at h
  | leaf v => simp [Tree.leaves]
  | fork l r ihl ihr =>
    simp only [Tree.full, Bool.and_eq_true] at h
    have := ihl h.1
    simp only [Tree.leaves, List.length_append]
    omega

theorem Tree.size_of_full {t : Tree} (h : t.full = true) : t.size + 1 = 2 * t.leaves.length := by
  induction t with
  | empty => simp [Tree.full] at h
  | leaf v => simp [Tree.size, Tree.leaves]
  | fork l r ihl ihr =>
    simp only [Tree.full, Bool.and_eq_true] at h
    have := ihl h.1
    have := ihr h.2
    simp only [Tree.leaves, Tree.size, List.length_append]
    omega

theorem Tree.ser_length_of_full {t : Tree} (h : t.full = true) : t.ser.length + 1 = 3 * t.leaves.length := by
  induction t with
  | empty => simp [Tree.full] at h
  | leaf v => simp [Tree.ser, Tree.leaves]
  | fork l r ihl ihr =>
    simp only [Tree.full, Bool.and_eq_true] at h
    have := ihl h.1
    have := ihr h.2
    simp only [Tree.leaves, Tree.ser, List.length_append, List.length_cons]
    omega

theorem Tree.depth_lt_leaves_of_full {t : Tree} (h : t.full = true) : t.depth < t.leaves.length := by
  induction t with
  | empty => simp [Tree.full] at h
  | leaf v => simp [Tree.depth, Tree.leaves]
  | fork l r ihl ihr =>
    simp only [Tree.full, Bool.and_eq_true] at h
    have := ihl h.1
    have := ihr h.2
    have := Tree.leaves_pos_of_full h.1
    have := Tree.leaves_pos_of_full h.2
    simp only [Tree.leaves, Tree.depth, List.length_append]
    omega

theorem Tree.codes_values (t : Tree) : t.codes.map (fun c => c.1) = t.leaves := by
  induction t with
  | empty => rfl
  | leaf v => rfl
  | fork l r ihl ihr => simp [Tree.codes, Tree.leaves, ← ihl, ← ihr, Function.comp_def]

theorem Tree.code_length_le_depth {t : Tree} {c : Byte × List Bool} (h : c ∈ t.codes) : c.2.length ≤ t.depth := by
  induction t generalizing c with
  | empty => simp [Tree.codes] at h
  | leaf v => simp [Tree.codes] at h; simp [h, Tree.depth]
  | fork l r ihl ihr =>
    simp only [Tree.codes, List.mem_append, List.mem_map] at h
    rcases h with ⟨d, hd, rfl⟩ | ⟨d, hd, rfl⟩
    · have := ihl hd; simp only [List.length_cons, Tree.depth]; omega
    · have := ihr hd; simp only [List.length_cons, Tree.depth]; omega

/-- R136: paths to two leaves diverge: a code that begins another leaf's code is that leaf's code. -/
theorem Tree.codes_prefixFree {t : Tree} {c d : Byte × List Bool} (hc : c ∈ t.codes) (hd : d ∈ t.codes)
    (h : c.2.IsPrefix d.2) : c = d := by
  induction t generalizing c d with
  | empty => simp [Tree.codes] at hc
  | leaf v => simp [Tree.codes] at hc hd; rw [hc, hd]
  | fork l r ihl ihr =>
    simp only [Tree.codes, List.mem_append, List.mem_map] at hc hd
    rcases hc with ⟨c', hc', rfl⟩ | ⟨c', hc', rfl⟩ <;> rcases hd with ⟨d', hd', rfl⟩ | ⟨d', hd', rfl⟩ <;>
      simp only [List.cons_prefix_cons] at h
    · rw [ihl hc' hd' h.2]
    · simp at h
    · simp at h
    · rw [ihr hc' hd' h.2]

theorem Tree.codeOf_mem {t : Tree} {v : Byte} {p : List Bool} (h : t.codeOf v = some p) : (v, p) ∈ t.codes := by
  unfold Tree.codeOf at h
  simp only [Option.map_eq_some_iff] at h
  obtain ⟨c, hc, rfl⟩ := h
  have h1 := List.mem_of_find?_eq_some hc
  have h2 := List.find?_some hc
  simp only [List.mem_reverse] at h1
  simp only [beq_iff_eq] at h2
  rw [← h2]
  exact h1

theorem Tree.codeOf_isSome {t : Tree} {v : Byte} : (t.codeOf v).isSome = true ↔ v ∈ t.leaves := by
  rw [← Tree.codes_values]
  simp [Tree.codeOf, List.find?_isSome]

end Sys2Proof.Machine
end

