-- ==== Sys2Proof/Laws/Shape.lean ====
section
/-! SUPPORT. What the node table invariant says of the tree (`10_state.md` rules R33, R35), and what the tree's codes
look like in the code table (R36, R98). -/

namespace Sys2Proof.Machine

@[simp] theorem Shape.full_tree (sh : Shape) : sh.tree.full = true := by
  induction sh with
  | leaf i v => rfl
  | fork i l r ihl ihr => simp [Shape.tree, Tree.full, ihl, ihr]

@[simp] theorem Shape.size_tree (sh : Shape) : sh.tree.size = sh.indices.length := by
  induction sh with
  | leaf i v => rfl
  | fork i l r ihl ihr => simp [Shape.tree, Tree.size, Shape.indices, ihl, ihr]

theorem Shape.index_mem (sh : Shape) : sh.index ∈ sh.indices := by
  cases sh <;> simp [Shape.index, Shape.indices]

theorem Shape.StandsIn.valid_of_mem {t : NodeTable} {sh : Shape} (h : sh.StandsIn t) {i : Idx} (hi : i ∈ sh.indices) :
    (nodeAt t i).valid = true := by
  induction sh with
  | leaf j v =>
    simp only [Shape.indices, List.mem_singleton] at hi
    subst hi
    rw [show nodeAt t i = _ from h]
    rfl
  | fork j l r ihl ihr =>
    obtain ⟨h1, h2, h3⟩ := h
    simp only [Shape.indices, List.mem_cons, List.mem_append] at hi
    rcases hi with rfl | hi | hi
    · rw [h1]; rfl
    · exact ihl h2 hi
    · exact ihr h3 hi

theorem Shape.StandsIn.index_ne_NIL {t : NodeTable} {sh : Shape} (h : sh.StandsIn t) : sh.index ≠ NIL :=
  ne_NIL_of_valid (h.valid_of_mem sh.index_mem)

/-- R35: the tree read from the table is the one that stands there, when it is read deep enough. -/
theorem Shape.StandsIn.treeAt_eq {t : NodeTable} {sh : Shape} (h : sh.StandsIn t) {fuel : Nat}
    (hf : sh.tree.depth < fuel) : treeAt t fuel sh.index = sh.tree := by
  induction sh generalizing fuel with
  | leaf i v =>
    obtain ⟨fuel, rfl⟩ : ∃ f, fuel = f + 1 := ⟨fuel - 1, by omega⟩
    have hn := h.index_ne_NIL
    simp only [Shape.index] at hn ⊢
    unfold treeAt
    rw [if_neg hn, show nodeAt t i = _ from h]
    simp [Shape.tree]
  | fork i l r ihl ihr =>
    obtain ⟨fuel, rfl⟩ : ∃ f, fuel = f + 1 := ⟨fuel - 1, by omega⟩
    have hn := h.index_ne_NIL
    obtain ⟨h1, h2, h3⟩ := h
    simp only [Shape.index, Shape.tree, Tree.depth] at hn hf ⊢
    unfold treeAt
    rw [if_neg hn, h1]
    simp only [mkInner_leaf, mkInner_left, mkInner_right, Bool.false_eq_true, if_false]
    rw [ihl h2 (by omega), ihr h3 (by omega)]

/-- R33 item 4: a table has room for at most 511 nodes. -/
theorem Shape.StandsIn.length_le {t : NodeTable} {sh : Shape} (h : sh.StandsIn t) (hd : sh.indices.Nodup) :
    sh.indices.length ≤ 511 := by
  have h1 : (sh.indices.map BitVec.toNat).Nodup := by
    rw [List.nodup_map_iff]
    · exact hd
    · intro a b e; exact BitVec.eq_of_toNat_eq e
  have h2 : (sh.indices.map BitVec.toNat) ⊆ List.range 511 := by
    intro n hn
    obtain ⟨i, hi, rfl⟩ := List.mem_map.mp hn
    exact List.mem_range.mpr (idx_lt_of_ne_NIL (ne_NIL_of_valid (h.valid_of_mem hi)))
  have h3 := (List.subperm_of_subset h1 h2).length_le
  simpa using h3

theorem Shape.StandsIn.depth_le {t : NodeTable} {sh : Shape} (h : sh.StandsIn t) (hd : sh.indices.Nodup) :
    sh.tree.depth ≤ 255 := by
  have h1 := h.length_le hd
  have h2 := Tree.size_of_full sh.full_tree
  have h3 := Tree.depth_lt_leaves_of_full sh.full_tree
  simp only [Shape.size_tree] at h2
  omega

/-- R33, R35: the tree of a good table: empty exactly when ROOT is NIL, else full, of at most 511 nodes, 255 deep. -/
theorem TreeStands.tree_cases {t : NodeTable} {root nnodes : Idx} (h : TreeStands t root nnodes) :
    (root = NIL ∧ treeOf t root = .empty) ∨
      (root ≠ NIL ∧ (treeOf t root).full = true ∧ (treeOf t root).size ≤ 511 ∧ (treeOf t root).depth ≤ 255 ∧
        nnodes.toNat = (treeOf t root).size) := by
  rcases h with ⟨rfl, -, -⟩ | ⟨sh, rfl, hs, hd, hn, -⟩
  · left; exact ⟨rfl, by simp [treeOf, walkFuel, treeAt]⟩
  · right
    have hdep := hs.depth_le hd
    have he : treeOf t sh.index = sh.tree := hs.treeAt_eq (by simp [walkFuel]; omega)
    rw [he]
    exact ⟨hs.index_ne_NIL, sh.full_tree, by simpa using hs.length_le hd, hdep, by simpa using hn⟩

theorem TreeStands.depth_le {t : NodeTable} {root nnodes : Idx} (h : TreeStands t root nnodes) :
    (treeOf t root).depth ≤ 255 := by
  rcases h.tree_cases with ⟨-, h⟩ | ⟨-, -, -, h, -⟩
  · rw [h]; simp [Tree.depth]
  · exact h

/-- R98: the bits of the entry of a path are the path. -/
theorem codeBits_ofPath {p : List Bool} (h : p.length ≤ 255) : codeBits (CodeEntry.ofPath (some p)) = p := by
  have hlt := bitsValue_lt p
  have hpow : (2 : Nat) ^ p.length ≤ 2 ^ 255 := Nat.pow_le_pow_right (by omega) h
  unfold codeBits CodeEntry.ofPath
  have hl : (BitVec.ofNat 8 p.length).toNat = p.length := by simp; omega
  simp only [hl]
  have bit : ∀ (q : List Bool) (k : Nat) (hk : k < q.length), (bitsValue q).testBit (q.length - 1 - k) = q[k] := by
    intro q
    induction q with
    | nil => intro k hk; simp at hk
    | cons b q ih =>
      intro k hk
      rw [bitsValue_cons, List.length_cons, Nat.add_sub_cancel]
      have hlt' := bitsValue_lt q
      cases k with
      | zero =>
        simp only [Nat.sub_zero, List.getElem_cons_zero]
        cases b with
        | false => simp only [Bool.toNat_false, Nat.zero_mul, Nat.zero_add]; exact Nat.testBit_lt_two_pow hlt'
        | true =>
          simp only [Bool.toNat_true, Nat.one_mul, Nat.testBit_two_pow_add_eq,
            Nat.testBit_lt_two_pow hlt', Bool.not_false]
      | succ k =>
        simp only [List.length_cons] at hk
        rw [List.getElem_cons_succ, ← ih k (by omega)]
        have : q.length - (k + 1) = q.length - 1 - k := by omega
        rw [this]
        cases b with
        | false => simp
        | true =>
          simp only [Bool.toNat_true, Nat.one_mul]
          rw [Nat.testBit_two_pow_add_gt (by omega)]
  apply List.ext_getElem
  · simp
  · intro k h1 h2
    simp only [List.getElem_map, List.getElem_reverse, List.getElem_range, List.length_range]
    rw [BitVec.getLsbD_ofNat, bit p k h2]
    simp
    omega

theorem ofPath_valid (o : Option (List Bool)) : (CodeEntry.ofPath o).valid = o.isSome := by
  cases o <;> rfl

/-- R36: "`bits < 2^len`; all bits at and above `len` are 0". -/
theorem ofPath_tidy {o : Option (List Bool)} (h : ∀ p, o = some p → p.length ≤ 255) :
    (CodeEntry.ofPath o).bits.toNat < 2 ^ (CodeEntry.ofPath o).len.toNat := by
  cases o with
  | none => simp [CodeEntry.ofPath, CodeEntry.invalid]
  | some p =>
    have h1 := h p rfl
    have hl : (BitVec.ofNat 8 p.length).toNat = p.length := by simp; omega
    simp only [CodeEntry.ofPath, hl, BitVec.toNat_ofNat]
    exact Nat.lt_of_le_of_lt (Nat.mod_le _ _) (bitsValue_lt p)

theorem codeOf_length_le {t : Tree} {v : Byte} {p : List Bool} (hd : t.depth ≤ 255) (h : t.codeOf v = some p) :
    p.length ≤ 255 := (Tree.code_length_le_depth (Tree.codeOf_mem h)).trans hd

end Sys2Proof.Machine
end

