-- ==== Sys2Proof/Laws/Build.lean ====
section
/-! SUPPORT. What BUILD's two loops do (`41_build.md` rules R121 to R127): the live set is always a forest that stands in
the node table. -/

namespace Sys2Proof.Machine

/-! ## Keys (R122) -/

theorem keyLt_iff (t : NodeTable) (a b : Idx) :
    keyLt t a b = true ↔
      (nodeAt t a).freq.toNat < (nodeAt t b).freq.toNat ∨
        (nodeAt t a).freq.toNat = (nodeAt t b).freq.toNat ∧ a.toNat < b.toNat := by
  simp [keyLt]

theorem keyLt_trans {t : NodeTable} {a b d : Idx} (h1 : keyLt t a b = true) (h2 : keyLt t b d = true) :
    keyLt t a d = true := by
  rw [keyLt_iff] at *
  omega

theorem keyLt_total {t : NodeTable} {a b : Idx} (h : a ≠ b) (hn : ¬keyLt t a b = true) : keyLt t b a = true := by
  have : a.toNat ≠ b.toNat := fun e => h (BitVec.eq_of_toNat_eq e)
  rw [keyLt_iff] at *
  omega

theorem freq_le_of_keyLt {t : NodeTable} {a b : Idx} (h : keyLt t a b = true) :
    (nodeAt t a).freq.toNat ≤ (nodeAt t b).freq.toNat := by
  rw [keyLt_iff] at h
  omega

theorem smallest_eq_none {t : NodeTable} {l : List Idx} : smallest t l = none ↔ l = [] := by
  cases l with
  | nil => simp [smallest]
  | cons a l =>
    simp only [smallest, reduceCtorEq, iff_false]
    split
    · simp
    · split <;> simp

/-- R121: `smallest` is a member with the smallest key. -/
theorem smallest_spec {t : NodeTable} {l : List Idx} {x : Idx} (h : smallest t l = some x) :
    x ∈ l ∧ ∀ z ∈ l, z ≠ x → keyLt t x z = true := by
  induction l generalizing x with
  | nil => simp [smallest] at h
  | cons a l ih =>
    simp only [smallest] at h
    cases hs : smallest t l with
    | none =>
      rw [hs] at h
      simp only [Option.some.injEq] at h
      subst h
      rw [smallest_eq_none] at hs
      subst hs
      simp
    | some b =>
      rw [hs] at h
      obtain ⟨hb, hz⟩ := ih hs
      simp only at h
      split at h
      · next hab =>
        simp only [Option.some.injEq] at h
        subst h
        refine ⟨List.mem_cons_self, fun z hzm hza => ?_⟩
        rcases List.mem_cons.mp hzm with rfl | hzm
        · exact absurd rfl hza
        · by_cases hzb : z = b
          · rw [hzb]; exact hab
          · exact keyLt_trans hab (hz z hzm hzb)
      · next hab =>
        simp only [Option.some.injEq] at h
        subst h
        refine ⟨List.mem_cons_of_mem _ hb, fun z hzm hzb => ?_⟩
        rcases List.mem_cons.mp hzm with rfl | hzm
        · exact keyLt_total hzb hab
        · exact hz z hzm hzb

theorem smallest_isSome {t : NodeTable} {l : List Idx} (h : l ≠ []) : ∃ x, smallest t l = some x := by
  cases hs : smallest t l with
  | none => exact absurd (smallest_eq_none.mp hs) h
  | some x => exact ⟨x, rfl⟩

/-- R121, R122: one merge, spelt out: which two nodes it takes and what it leaves. -/
theorem mergeOnce_cases {b : Building} (h : 2 ≤ b.live.length) (hd : b.live.Nodup) :
    ∃ x y, x ∈ b.live ∧ y ∈ b.live ∧ x ≠ y ∧ (∀ z ∈ b.live, z ≠ x → keyLt b.node x z = true) ∧
      (∀ z ∈ b.live, z ≠ x → z ≠ y → keyLt b.node y z = true) ∧
      mergeOnce b =
        { node := setNode b.node (BitVec.ofNat 9 (256 + b.k))
            (Node.mkInner x y ((nodeAt b.node x).freq + (nodeAt b.node y).freq)),
          live := (b.live.erase x).erase y ++ [BitVec.ofNat 9 (256 + b.k)], k := b.k + 1 } := by
  obtain ⟨x, hx⟩ := smallest_isSome (t := b.node) (l := b.live) (by rintro e; simp [e] at h)
  obtain ⟨hxm, hxs⟩ := smallest_spec hx
  have hne : b.live.erase x ≠ [] := by
    intro e
    have := List.length_erase_of_mem hxm
    rw [e] at this
    simp only [List.length_nil] at this
    omega
  obtain ⟨y, hy⟩ := smallest_isSome (t := b.node) hne
  obtain ⟨hym, hys⟩ := smallest_spec hy
  rw [hd.mem_erase_iff] at hym
  refine ⟨x, y, hxm, hym.2, fun e => hym.1 e.symm, hxs, fun z hz hzx hzy => hys z ?_ hzy, ?_⟩
  · rw [hd.mem_erase_iff]; exact ⟨hzx, hz⟩
  · simp only [mergeOnce, hx, hy]

/-! ## The forest -/

theorem Shape.index_leaf (i : Idx) (v : Byte) : (Shape.leaf i v).index = i := rfl

theorem Shape.index_fork (i : Idx) (l r : Shape) : (Shape.fork i l r).index = i := rfl

theorem Shape.tree_fork (i : Idx) (l r : Shape) : (Shape.fork i l r).tree = .fork l.tree r.tree := rfl

/-- The exact weight of a tree: the occurrences of its leaves. -/
def weight (f : FreqTable) (t : Tree) : Nat := (t.leaves.map fun v => (freqAt f v).toNat).sum

/-- The live set as a forest in the node table, with everything R123 and R126 say of it. -/
structure Forest (f : FreqTable) (b : Building) (ss : List Shape) : Prop where
  live : b.live.Perm (ss.map Shape.index)
  stands : ∀ s ∈ ss, s.StandsIn b.node
  nodup : (ss.flatMap Shape.indices).Nodup
  others : ∀ i, i ∉ ss.flatMap Shape.indices → nodeAt b.node i = Node.invalid
  low : ∀ i ∈ ss.flatMap Shape.indices, i.toNat < 256 + b.k
  count : ss.length + b.k = (present f).length
  size : (ss.flatMap Shape.indices).length = (present f).length + b.k
  leaves : (ss.flatMap fun s => s.tree.leaves).Perm (present f)
  leafAt : ∀ i, (nodeAt b.node i).valid = true → (nodeAt b.node i).leaf = true →
    i = (nodeAt b.node i).value.setWidth 9 ∧ freqAt f (nodeAt b.node i).value ≠ 0 ∧
      (nodeAt b.node i).freq = freqAt f (nodeAt b.node i).value
  innerAt : ∀ i, (nodeAt b.node i).valid = true → (nodeAt b.node i).leaf = false →
    256 ≤ i.toNat ∧ (nodeAt b.node i).left < i ∧ (nodeAt b.node i).right < i ∧ (nodeAt b.node i).value = 0
  newest : 0 < b.k → BitVec.ofNat 9 (256 + b.k - 1) ∈ b.live
  exact : freqSum f < 2 ^ 64 → ∀ s ∈ ss, (nodeAt b.node s.index).freq.toNat = weight f s.tree
  sums : freqSum f < 2 ^ 64 → ∀ i, (nodeAt b.node i).valid = true → (nodeAt b.node i).leaf = false →
    (nodeAt b.node i).freq.toNat =
      (nodeAt b.node (nodeAt b.node i).left).freq.toNat + (nodeAt b.node (nodeAt b.node i).right).freq.toNat

theorem allSymbols_nodup : allSymbols.Nodup := by decide +kernel

theorem mem_allSymbols (v : Byte) : v ∈ allSymbols := by
  refine List.mem_map.mpr ⟨v.toNat, List.mem_range.mpr v.isLt, by simp⟩

theorem mem_present {f : FreqTable} {v : Byte} : v ∈ present f ↔ freqAt f v ≠ 0 := by
  simp [present, mem_allSymbols]

theorem present_nodup (f : FreqTable) : (present f).Nodup := allSymbols_nodup.filter _

theorem present_length_le (f : FreqTable) : (present f).length ≤ 256 := by
  have := List.length_filter_le (fun v => freqAt f v != 0) allSymbols
  simpa [present, allSymbols] using this

theorem setWidth_inj {a b : Byte} (h : a.setWidth 9 = b.setWidth 9) : a = b := by
  have := congrArg BitVec.toNat h
  simp only [BitVec.toNat_setWidth] at this
  apply BitVec.eq_of_toNat_eq
  omega

theorem setWidth_toNat (v : Byte) : (v.setWidth 9).toNat = v.toNat := by
  simp only [BitVec.toNat_setWidth]
  omega

theorem setWidth_ne_NIL (v : Byte) : v.setWidth 9 ≠ NIL := by
  intro e
  have := congrArg BitVec.toNat e
  rw [setWidth_toNat, NIL_toNat] at this
  omega

/-- The sum of the counters, over the present symbols only. -/
theorem freqSum_eq (f : FreqTable) : freqSum f = ((present f).map fun v => (freqAt f v).toNat).sum := by
  have h1 : f.toList = allSymbols.map (freqAt f) := by
    apply List.ext_getElem
    · simp [allSymbols]
    · intro i h1 h2
      simp only [Vector.length_toList] at h1
      simp [allSymbols, freqAt, Nat.mod_eq_of_lt h1]
  have h2 : ∀ l : List Byte, (l.map fun v => (freqAt f v).toNat).sum =
      ((l.filter fun v => freqAt f v != 0).map fun v => (freqAt f v).toNat).sum := by
    intro l
    induction l with
    | nil => rfl
    | cons a l ih =>
      simp only [List.map_cons, List.sum_cons, List.filter_cons]
      cases ha : freqAt f a != 0 with
      | false =>
        have h0 : freqAt f a = 0 := by simpa using ha
        rw [if_neg (by simp), h0, ih]
        simp
      | true => rw [if_pos rfl, List.map_cons, List.sum_cons, ih]
  unfold freqSum
  rw [h1, List.map_map]
  exact h2 allSymbols

/-- R121: the seeding loop over a list of symbols. -/
theorem seed_spec (f : FreqTable) (vs : List Byte) (hd : vs.Nodup) :
    (vs.foldl (seedSymbol f) { node := noNodes, live := [], k := 0 }).k = 0 ∧
    (vs.foldl (seedSymbol f) { node := noNodes, live := [], k := 0 }).live =
      (vs.filter fun v => freqAt f v != 0).map (fun v => v.setWidth 9) ∧
    (∀ v ∈ vs, freqAt f v ≠ 0 →
      nodeAt (vs.foldl (seedSymbol f) { node := noNodes, live := [], k := 0 }).node (v.setWidth 9) =
        Node.mkLeaf v (freqAt f v)) ∧
    ∀ i, i ∉ (vs.filter fun v => freqAt f v != 0).map (fun v => v.setWidth 9) →
      nodeAt (vs.foldl (seedSymbol f) { node := noNodes, live := [], k := 0 }).node i = Node.invalid := by
  induction vs using List.reverseRecOn with
  | nil => simp
  | append_singleton vs v ih =>
    rw [List.nodup_append] at hd
    obtain ⟨ik, il, iv, io⟩ := ih hd.1
    have hv : v ∉ vs := fun h => hd.2.2 v h v (by simp) rfl
    simp only [List.foldl_append, List.foldl_cons, List.foldl_nil, List.filter_append, List.map_append]
    generalize vs.foldl (seedSymbol f) { node := noNodes, live := [], k := 0 } = b at *
    unfold seedSymbol
    by_cases hf : freqAt f v = 0
    · have hb : (freqAt f v != 0) = false := by simpa using hf
      rw [if_neg (by simpa using hf)]
      refine ⟨ik, by simp [il, hf], ?_, ?_⟩
      · intro w hw hfw
        rcases List.mem_append.mp hw with hw | hw
        · exact iv w hw hfw
        · simp only [List.mem_singleton] at hw
          subst hw
          exact absurd hf hfw
      · intro i hi
        exact io i (by simpa [hf] using hi)
    · have hb : (freqAt f v != 0) = true := by simpa using hf
      have hv1 : [v].filter (fun v => freqAt f v != 0) = [v] := by
        rw [List.filter_cons, if_pos hb, List.filter_nil]
      rw [if_pos hf, hv1]
      refine ⟨ik, by simp [il], ?_, ?_⟩
      · intro w hw hfw
        rcases List.mem_append.mp hw with hw | hw
        · have hne : w.setWidth 9 ≠ v.setWidth 9 := by
            intro e
            rw [setWidth_inj e] at hw
            exact hv hw
          rw [nodeAt_setNode_ne _ _ hne]
          exact iv w hw hfw
        · simp only [List.mem_singleton] at hw
          subst hw
          exact nodeAt_setNode_same _ _ (setWidth_ne_NIL _)
      · intro i hi
        simp only [List.mem_append, not_or] at hi
        have hiv : i ≠ v.setWidth 9 := by
          rintro rfl
          exact hi.2 (by simp)
        rw [nodeAt_setNode_ne _ _ hiv]
        exact io i hi.1

/-- R121, R123: the seeded leaves are a forest. -/
theorem seedLeaves_forest (f : FreqTable) :
    Forest f (seedLeaves f) ((present f).map fun v => Shape.leaf (v.setWidth 9) v) := by
  obtain ⟨hk, hl, hv, ho⟩ := seed_spec f allSymbols allSymbols_nodup
  change (seedLeaves f).k = 0 at hk
  change (seedLeaves f).live = (present f).map (fun v => v.setWidth 9) at hl
  change ∀ v ∈ allSymbols, freqAt f v ≠ 0 → nodeAt (seedLeaves f).node (v.setWidth 9) = _ at hv
  change ∀ i, i ∉ (present f).map (fun v => v.setWidth 9) → nodeAt (seedLeaves f).node i = _ at ho
  have hidx : ((present f).map fun v => Shape.leaf (v.setWidth 9) v).flatMap Shape.indices =
      (present f).map fun v => v.setWidth 9 := by
    simp only [List.flatMap_map, Shape.indices]
    induction present f with
    | nil => rfl
    | cons a l ih => simp [List.flatMap_cons, ih]
  have hvalid : ∀ i, (nodeAt (seedLeaves f).node i).valid = true →
      ∃ v, freqAt f v ≠ 0 ∧ i = v.setWidth 9 ∧ nodeAt (seedLeaves f).node i = Node.mkLeaf v (freqAt f v) := by
    intro i hi
    by_contra hno
    have : i ∉ (present f).map fun v => v.setWidth 9 := by
      intro hm
      obtain ⟨v, hvm, rfl⟩ := List.mem_map.mp hm
      exact hno ⟨v, mem_present.mp hvm, rfl, hv v (mem_allSymbols v) (mem_present.mp hvm)⟩
    rw [ho i this] at hi
    simp at hi
  refine ⟨?_, ?_, ?_, ?_, ?_, ?_, ?_, ?_, ?_, ?_, ?_, ?_, ?_⟩
  · rw [hl, List.map_map]; exact List.Perm.refl _
  · intro s hs
    obtain ⟨v, hvm, rfl⟩ := List.mem_map.mp hs
    simp only [Shape.StandsIn, hv v (mem_allSymbols v) (mem_present.mp hvm)]
    rfl
  · rw [hidx]
    exact (present_nodup f).map (fun a b e => setWidth_inj e)
  · rw [hidx]; exact ho
  · rw [hidx, hk]
    intro i hi
    obtain ⟨v, -, rfl⟩ := List.mem_map.mp hi
    rw [setWidth_toNat]
    have := v.isLt
    omega
  · simp [hk]
  · rw [hidx, hk]; simp
  · simp only [List.flatMap_map, Shape.tree, Tree.leaves]
    rw [List.flatMap_singleton']
  · intro i hi hlf
    obtain ⟨v, hfv, rfl, hn⟩ := hvalid i hi
    rw [hn]
    exact ⟨rfl, hfv, rfl⟩
  · intro i hi hlf
    obtain ⟨v, -, -, hn⟩ := hvalid i hi
    rw [hn] at hlf
    simp at hlf
  · omega
  · intro _ s hs
    obtain ⟨v, hvm, rfl⟩ := List.mem_map.mp hs
    simp [Shape.index, hv v (mem_allSymbols v) (mem_present.mp hvm), weight, Shape.tree, Tree.leaves]
  · intro _ i hi hlf
    obtain ⟨v, -, -, hn⟩ := hvalid i hi
    rw [hn] at hlf
    simp at hlf

theorem Shape.StandsIn.setNode {t : NodeTable} {s : Shape} (h : s.StandsIn t) {i : Idx} (n : Node)
    (hi : i ∉ s.indices) : s.StandsIn (setNode t i n) := by
  induction s with
  | leaf j v =>
    have hj : j ≠ i := by rintro rfl; simp [Shape.indices] at hi
    simp only [Shape.StandsIn] at *
    rw [nodeAt_setNode_ne _ _ hj]
    exact h
  | fork j l r ihl ihr =>
    simp only [Shape.indices, List.mem_cons, List.mem_append, not_or] at hi
    have hj : j ≠ i := fun e => hi.1 e.symm
    obtain ⟨h1, h2, h3⟩ := h
    refine ⟨?_, ihl h2 hi.2.1, ihr h3 hi.2.2⟩
    rw [nodeAt_setNode_ne _ _ hj]
    exact h1

theorem weight_fork (f : FreqTable) (l r : Tree) : weight f (.fork l r) = weight f l + weight f r := by
  simp [weight, Tree.leaves]

/-- The weights of a forest add up to the sum of the counters. -/
theorem Forest.weight_sum {f : FreqTable} {b : Building} {ss : List Shape} (h : Forest f b ss) :
    (ss.map fun s => weight f s.tree).sum = freqSum f := by
  rw [freqSum_eq]
  have h1 := (h.leaves.map fun v => (freqAt f v).toNat).sum_eq
  rw [← h1]
  generalize ss = l
  induction l with
  | nil => rfl
  | cons a l ih =>
    simp only [List.map_cons, List.sum_cons, List.flatMap_cons, List.map_append, List.sum_append, ih]
    rfl

/-- The forest with its frequencies, as R127 sees it. -/
def Forest.trees (t : NodeTable) (ss : List Shape) : List (Tree × Nat) :=
  ss.map fun s => (s.tree, (nodeAt t s.index).freq.toNat)

/-- R121 to R123, R126: a merge of a forest of two or more trees gives a forest of one less, by joining two of minimal
frequency. -/
theorem Forest.mergeOnce {f : FreqTable} {b : Building} {ss : List Shape} (h : Forest f b ss) (h2 : 2 ≤ ss.length) :
    ∃ x y rest, ss.Perm (x :: y :: rest) ∧
      Forest f (mergeOnce b) (.fork (BitVec.ofNat 9 (256 + b.k)) x y :: rest) ∧
      (∀ z ∈ y :: rest, (nodeAt b.node x.index).freq.toNat ≤ (nodeAt b.node z.index).freq.toNat) ∧
      (∀ z ∈ rest, (nodeAt b.node y.index).freq.toNat ≤ (nodeAt b.node z.index).freq.toNat) ∧
      (∀ z ∈ rest, nodeAt (Machine.mergeOnce b).node z.index = nodeAt b.node z.index) ∧
      (nodeAt (Machine.mergeOnce b).node (BitVec.ofNat 9 (256 + b.k))).freq =
        (nodeAt b.node x.index).freq + (nodeAt b.node y.index).freq := by
  have hmap : (ss.map Shape.index).Nodup := by
    have : ∀ l : List Shape, (l.flatMap Shape.indices).Nodup → (l.map Shape.index).Nodup := by
      intro l
      induction l with
      | nil => simp
      | cons a l ih =>
        intro hn
        rw [List.flatMap_cons, List.nodup_append] at hn
        rw [List.map_cons, List.nodup_cons]
        refine ⟨?_, ih hn.2.1⟩
        intro hm
        obtain ⟨s, hs, he⟩ := List.mem_map.mp hm
        exact hn.2.2 a.index a.index_mem s.index (List.mem_flatMap.mpr ⟨s, hs, s.index_mem⟩) he.symm
    exact this ss h.nodup
  have hld : b.live.Nodup := h.live.nodup_iff.mpr hmap
  have hll : b.live.length = ss.length := by simpa using h.live.length_eq
  obtain ⟨x, y, hx, hy, hxy, hxs, hys, hm⟩ := mergeOnce_cases (b := b) (by omega) hld
  obtain ⟨sx, hsx, rfl⟩ := List.mem_map.mp (h.live.mem_iff.mp hx)
  obtain ⟨sy, hsy, rfl⟩ := List.mem_map.mp (h.live.mem_iff.mp hy)
  have hsxy : sy ∈ ss.erase sx := (List.mem_erase_of_ne (fun e => hxy (by rw [e]))).mpr hsy
  have hp : ss.Perm (sx :: sy :: (ss.erase sx).erase sy) :=
    (List.perm_cons_erase hsx).trans ((List.perm_cons_erase hsxy).cons sx)
  generalize (ss.erase sx).erase sy = rest at hp
  have hlive : b.live.Perm (sx.index :: sy.index :: rest.map Shape.index) := h.live.trans (hp.map Shape.index)
  have hidx : (ss.flatMap Shape.indices).Perm (sx.indices ++ (sy.indices ++ rest.flatMap Shape.indices)) := by
    have := hp.flatMap_right Shape.indices
    simpa [List.flatMap_cons] using this
  have hnd : (sx.indices ++ (sy.indices ++ rest.flatMap Shape.indices)).Nodup := hidx.nodup_iff.mp h.nodup
  have hk : b.k < 255 := by
    have := present_length_le f
    have := h.count
    omega
  have hmn : (BitVec.ofNat 9 (256 + b.k)).toNat = 256 + b.k := by simp; omega
  have hmNIL : BitVec.ofNat 9 (256 + b.k) ≠ NIL := by
    intro e
    have := congrArg BitVec.toNat e
    rw [hmn, NIL_toNat] at this
    omega
  have hmnot : ∀ i ∈ ss.flatMap Shape.indices, i ≠ BitVec.ofNat 9 (256 + b.k) := by
    rintro i hi rfl
    have := h.low _ hi
    omega
  have hmnot' : BitVec.ofNat 9 (256 + b.k) ∉ sx.indices ++ (sy.indices ++ rest.flatMap Shape.indices) := by
    intro hi
    exact hmnot _ (hidx.mem_iff.mpr hi) rfl
  have hsub : ∀ s ∈ ss, ∀ i ∈ s.indices, i ∈ ss.flatMap Shape.indices :=
    fun s hs i hi => List.mem_flatMap.mpr ⟨s, hs, hi⟩
  have hrest : ∀ s ∈ rest, s ∈ ss := fun s hs => hp.mem_iff.mpr (by simp [hs])
  have hkeep : ∀ i ∈ ss.flatMap Shape.indices, nodeAt (Machine.mergeOnce b).node i = nodeAt b.node i := by
    intro i hi
    rw [hm]
    exact nodeAt_setNode_ne _ _ (hmnot i hi)
  have hnew : nodeAt (Machine.mergeOnce b).node (BitVec.ofNat 9 (256 + b.k)) =
      Node.mkInner sx.index sy.index ((nodeAt b.node sx.index).freq + (nodeAt b.node sy.index).freq) := by
    rw [hm]
    exact nodeAt_setNode_same _ _ hmNIL
  have hkv : ∀ i, i ≠ BitVec.ofNat 9 (256 + b.k) → nodeAt (Machine.mergeOnce b).node i = nodeAt b.node i := by
    intro i hi
    rw [hm]
    exact nodeAt_setNode_ne _ _ hi
  have hst : ∀ s ∈ ss, s.StandsIn (Machine.mergeOnce b).node := by
    intro s hs
    rw [hm]
    exact (h.stands s hs).setNode _ (fun hi => hmnot _ (hsub s hs _ hi) rfl)
  have hkid : ∀ i, (nodeAt b.node i).valid = true → (nodeAt b.node i).leaf = false →
      (nodeAt b.node i).left ≠ BitVec.ofNat 9 (256 + b.k) ∧ (nodeAt b.node i).right ≠ BitVec.ofNat 9 (256 + b.k) := by
    intro i hi hlf
    have hil : i ∈ ss.flatMap Shape.indices := by
      by_contra hno
      rw [h.others i hno] at hi
      simp at hi
    have h1 := h.low i hil
    obtain ⟨-, h3, h4, -⟩ := h.innerAt i hi hlf
    rw [BitVec.lt_def] at h3 h4
    refine ⟨fun e => ?_, fun e => ?_⟩
    · rw [e, hmn] at h3; omega
    · rw [e, hmn] at h4; omega
  have hkm : (Machine.mergeOnce b).k = b.k + 1 := by rw [hm]
  have hsum : freqSum f < 2 ^ 64 → weight f sx.tree + weight f sy.tree < 2 ^ 64 := by
    intro hs
    have h1 := h.weight_sum
    rw [(hp.map fun s => weight f s.tree).sum_eq] at h1
    simp only [List.map_cons, List.sum_cons] at h1
    omega
  have hadd : freqSum f < 2 ^ 64 →
      ((nodeAt b.node sx.index).freq + (nodeAt b.node sy.index).freq).toNat =
        (nodeAt b.node sx.index).freq.toNat + (nodeAt b.node sy.index).freq.toNat := by
    intro hs
    have := hsum hs
    have e1 := h.exact hs sx hsx
    have e2 := h.exact hs sy hsy
    rw [BitVec.toNat_add, Nat.mod_eq_of_lt (by omega)]
  refine ⟨sx, sy, rest, hp, ?_, ?_, ?_, ?_, ?_⟩
  · refine ⟨?_, ?_, ?_, ?_, ?_, ?_, ?_, ?_, ?_, ?_, ?_, ?_, ?_⟩
    · have h1 : (b.live.erase sx.index).Perm (sy.index :: rest.map Shape.index) := by
        have := hlive.erase sx.index
        simpa using this
      have h2 : ((b.live.erase sx.index).erase sy.index).Perm (rest.map Shape.index) := by
        have := h1.erase sy.index
        simpa using this
      rw [hm]
      simp only [List.map_cons, Shape.index_fork]
      exact (h2.append_right _).trans (List.perm_append_singleton _ _)
    · intro s hs
      rcases List.mem_cons.mp hs with rfl | hs
      · refine ⟨?_, hst sx hsx, hst sy hsy⟩
        rw [hnew]; rfl
      · exact hst s (hrest s hs)
    · simp only [List.flatMap_cons, Shape.indices, List.cons_append, List.append_assoc]
      exact List.nodup_cons.mpr ⟨hmnot', hnd⟩
    · intro i hi
      simp only [List.flatMap_cons, Shape.indices, List.cons_append, List.append_assoc, List.mem_cons, not_or] at hi
      rw [hkv i hi.1]
      exact h.others i (fun hi2 => hi.2 (hidx.mem_iff.mp hi2))
    · intro i hi
      simp only [List.flatMap_cons, Shape.indices, List.cons_append, List.append_assoc, List.mem_cons] at hi
      rw [hkm]
      rcases hi with rfl | hi
      · omega
      · have := h.low i (hidx.mem_iff.mpr hi)
        omega
    · have h1 := hp.length_eq
      have h3 := h.count
      simp only [List.length_cons] at h1 ⊢
      omega
    · have h1 := hidx.length_eq
      have h3 := h.size
      simp only [List.flatMap_cons, Shape.indices, List.cons_append, List.append_assoc, List.length_cons] at h1 ⊢
      omega
    · have h1 := hp.flatMap_right fun s => s.tree.leaves
      refine List.Perm.trans ?_ h.leaves
      refine List.Perm.trans ?_ h1.symm
      simp [List.flatMap_cons, Shape.tree, Tree.leaves]
    · intro i hi hlf
      by_cases hin : i = BitVec.ofNat 9 (256 + b.k)
      · subst hin
        rw [hnew] at hlf
        simp at hlf
      · rw [hkv i hin] at *
        exact h.leafAt i hi hlf
    · intro i hi hlf
      by_cases hin : i = BitVec.ofNat 9 (256 + b.k)
      · subst hin
        rw [hnew]
        have l1 := h.low _ (hsub sx hsx _ sx.index_mem)
        have l2 := h.low _ (hsub sy hsy _ sy.index_mem)
        simp only [mkInner_left, mkInner_right, mkInner_value, BitVec.lt_def, hmn]
        exact ⟨by omega, l1, l2, trivial⟩
      · rw [hkv i hin] at *
        exact h.innerAt i hi hlf
    · intro _
      rw [hm]
      simp
    · intro hs s hsm
      rcases List.mem_cons.mp hsm with rfl | hsm
      · rw [Shape.index_fork, hnew, mkInner_freq, hadd hs, h.exact hs sx hsx, h.exact hs sy hsy, Shape.tree_fork,
          weight_fork]
      · rw [hkeep _ (hsub s (hrest s hsm) _ s.index_mem)]
        exact h.exact hs s (hrest s hsm)
    · intro hs i hi hlf
      by_cases hin : i = BitVec.ofNat 9 (256 + b.k)
      · subst hin
        rw [hnew]
        simp only [mkInner_left, mkInner_right, mkInner_freq]
        rw [hkeep _ (hsub sx hsx _ sx.index_mem), hkeep _ (hsub sy hsy _ sy.index_mem)]
        exact hadd hs
      · rw [hkv i hin] at hi hlf ⊢
        obtain ⟨k1, k2⟩ := hkid i hi hlf
        rw [hkv _ k1, hkv _ k2]
        exact h.sums hs i hi hlf
  · intro z hz
    have hzi : z.index ∈ b.live := hlive.mem_iff.mpr (by
      rcases List.mem_cons.mp hz with rfl | hz
      · simp
      · simp only [List.mem_cons, List.mem_map]; exact .inr (.inr ⟨z, hz, rfl⟩))
    have hzx : z.index ≠ sx.index := by
      have := hlive.nodup_iff.mp hld
      rw [List.nodup_cons] at this
      intro e
      apply this.1
      rw [← e]
      rcases List.mem_cons.mp hz with rfl | hz
      · simp
      · exact List.mem_cons_of_mem _ (List.mem_map.mpr ⟨z, hz, rfl⟩)
    exact freq_le_of_keyLt (hxs _ hzi hzx)
  · intro z hz
    have hzi : z.index ∈ b.live := hlive.mem_iff.mpr (by
      simp only [List.mem_cons, List.mem_map]; exact .inr (.inr ⟨z, hz, rfl⟩))
    have hnd2 := hlive.nodup_iff.mp hld
    rw [List.nodup_cons, List.nodup_cons] at hnd2
    have hzm : z.index ∈ rest.map Shape.index := List.mem_map.mpr ⟨z, hz, rfl⟩
    have hzx : z.index ≠ sx.index := fun e => hnd2.1 (List.mem_cons_of_mem _ (e ▸ hzm))
    have hzy : z.index ≠ sy.index := fun e => hnd2.2.1 (e ▸ hzm)
    exact freq_le_of_keyLt (hys _ hzi hzx hzy)
  · intro z hz
    exact hkeep _ (hsub z (hrest z hz) _ z.index_mem)
  · rw [hnew]; rfl

theorem Merges.perm {l l' : List (Tree × Nat)} {t : Tree} {n : Nat} (h : Merges l t n) (hp : l'.Perm l) :
    Merges l' t n := by
  cases h with
  | one t f => rw [List.perm_singleton.mp hp]; exact .one t n
  | merge h1 h2 h3 h4 h5 => exact .merge (hp.trans h1) h2 h3 h4 h5

/-- R121: the merge loop ends with a forest of at most one tree, and R127: by admitted merges. -/
theorem Forest.mergeLoop {f : FreqTable} (n : Nat) {b : Building} {ss : List Shape} (h : Forest f b ss)
    (hn : ss.length ≤ n) :
    ∃ ss', Forest f (mergeLoop n b) ss' ∧ ss'.length = min 1 ss.length ∧
      (freqSum f < 2 ^ 64 → ∀ s, ss' = [s] →
        Merges (Forest.trees b.node ss) s.tree (nodeAt (Machine.mergeLoop n b).node s.index).freq.toNat) := by
  induction n generalizing b ss with
  | zero =>
    have : ss = [] := List.eq_nil_of_length_eq_zero (by omega)
    subst this
    exact ⟨[], h, rfl, by simp⟩
  | succ n ih =>
    have hl : b.live.length = ss.length := by simpa using h.live.length_eq
    unfold Machine.mergeLoop
    by_cases h1 : b.live.length ≤ 1
    · rw [if_pos h1]
      refine ⟨ss, h, by omega, ?_⟩
      rintro - s rfl
      exact .one _ _
    · rw [if_neg h1]
      obtain ⟨x, y, rest, hp, hf, hx, hy, hk, hfr⟩ := h.mergeOnce (by omega)
      have hlen := hp.length_eq
      simp only [List.length_cons] at hlen
      obtain ⟨ss', f', l', m'⟩ := ih hf (by simp only [List.length_cons]; omega)
      refine ⟨ss', f', ?_, ?_⟩
      · simp only [List.length_cons] at l'
        omega
      · intro hs s hss
        have hm := m' hs s hss
        have hsum : ((nodeAt b.node x.index).freq + (nodeAt b.node y.index).freq).toNat =
            (nodeAt b.node x.index).freq.toNat + (nodeAt b.node y.index).freq.toNat := by
          have e0 := hf.exact hs (.fork (BitVec.ofNat 9 (256 + b.k)) x y) List.mem_cons_self
          simp only [Shape.index_fork, hfr, Shape.tree_fork, weight_fork] at e0
          rw [e0, h.exact hs x (hp.mem_iff.mpr (by simp)), h.exact hs y (hp.mem_iff.mpr (by simp))]
        have hrest : Forest.trees (Machine.mergeOnce b).node rest = Forest.trees b.node rest := by
          apply List.map_congr_left
          intro z hz
          rw [hk z hz]
        have htr : Forest.trees (Machine.mergeOnce b).node (.fork (BitVec.ofNat 9 (256 + b.k)) x y :: rest) =
            (.fork x.tree y.tree, (nodeAt b.node x.index).freq.toNat + (nodeAt b.node y.index).freq.toNat) ::
              Forest.trees b.node rest := by
          rw [← hrest]
          simp only [Forest.trees, List.map_cons, Shape.index_fork, Shape.tree_fork, hfr, hsum]
        rw [htr] at hm
        refine .merge (x := (x.tree, (nodeAt b.node x.index).freq.toNat))
          (y := (y.tree, (nodeAt b.node y.index).freq.toNat)) (hp.map _) ?_ ?_ (.inl rfl) hm
        · intro z hz
          rcases List.mem_cons.mp hz with rfl | hz
          · exact hx y List.mem_cons_self
          · obtain ⟨s', hs', rfl⟩ := List.mem_map.mp hz
            exact hx s' (List.mem_cons_of_mem _ hs')
        · intro z hz
          obtain ⟨s', hs', rfl⟩ := List.mem_map.mp hz
          exact hy s' hs'

/-- What BUILD leaves when a symbol is present. -/
structure Built (f : FreqTable) (t : TreeTable) (sh : Shape) : Prop where
  root : t.root = sh.index
  stands : sh.StandsIn t.node
  nodup : sh.indices.Nodup
  nnodes : t.nnodes.toNat = sh.indices.length
  others : ∀ i, i ∉ sh.indices → nodeAt t.node i = Node.invalid
  size : sh.indices.length = 2 * (present f).length - 1
  leaves : sh.tree.leaves.Perm (present f)
  leafAt : ∀ i, (nodeAt t.node i).valid = true → (nodeAt t.node i).leaf = true →
    i = (nodeAt t.node i).value.setWidth 9 ∧ freqAt f (nodeAt t.node i).value ≠ 0 ∧
      (nodeAt t.node i).freq = freqAt f (nodeAt t.node i).value
  innerAt : ∀ i, (nodeAt t.node i).valid = true → (nodeAt t.node i).leaf = false →
    256 ≤ i.toNat ∧ (nodeAt t.node i).left < i ∧ (nodeAt t.node i).right < i ∧ (nodeAt t.node i).value = 0
  rootAt : 2 ≤ (present f).length → t.root = BitVec.ofNat 9 (256 + (present f).length - 2)
  total : freqSum f < 2 ^ 64 → (nodeAt t.node t.root).freq.toNat = freqSum f
  sums : freqSum f < 2 ^ 64 → ∀ i, (nodeAt t.node i).valid = true → (nodeAt t.node i).leaf = false →
    (nodeAt t.node i).freq.toNat =
      (nodeAt t.node (nodeAt t.node i).left).freq.toNat + (nodeAt t.node (nodeAt t.node i).right).freq.toNat
  merges : freqSum f < 2 ^ 64 →
    Merges ((present f).map fun v => (Tree.leaf v, (freqAt f v).toNat)) sh.tree (freqSum f)

theorem seedLeaves_live (f : FreqTable) : (seedLeaves f).live = (present f).map fun v => v.setWidth 9 :=
  (seed_spec f allSymbols allSymbols_nodup).2.1

/-- R124: no present symbol. -/
theorem buildTree_none {f : FreqTable} (h : present f = []) : buildTree f = TreeTable.none := by
  simp [buildTree, seedLeaves_live, h, mergeLoop]

/-- R121 to R127: BUILD on a table with a present symbol. -/
theorem buildTree_some {f : FreqTable} (h : present f ≠ []) : ∃ sh, Built f (buildTree f) sh := by
  have hs := seedLeaves_forest f
  have hpos : 0 < (present f).length := List.length_pos_of_ne_nil h
  have hlen : (seedLeaves f).live.length = (present f).length := by simp [seedLeaves_live]
  obtain ⟨ss', hf, hl, hm⟩ := hs.mergeLoop (present f).length (by simp)
  simp only [List.length_map] at hl
  obtain ⟨sh, rfl⟩ := List.length_eq_one_iff.mp (show ss'.length = 1 by omega)
  have hlive : (mergeLoop (present f).length (seedLeaves f)).live = [sh.index] := List.perm_singleton.mp hf.live
  have hb : buildTree f =
      { node := (mergeLoop (present f).length (seedLeaves f)).node, root := sh.index,
        nnodes := BitVec.ofNat 9 ((present f).length + (mergeLoop (present f).length (seedLeaves f)).k) } := by
    simp only [buildTree, hlen, hlive]
  have hcount := hf.count
  have hsize := hf.size
  have hle := present_length_le f
  simp only [List.length_singleton, List.flatMap_singleton] at hcount hsize
  have hw := hf.weight_sum
  simp only [List.map_cons, List.map_nil, List.sum_cons, List.sum_nil, Nat.add_zero] at hw
  rw [hb]
  refine ⟨sh, rfl, hf.stands sh (by simp), by simpa using hf.nodup, ?_, ?_, ?_, by simpa using hf.leaves, hf.leafAt,
    hf.innerAt, ?_, ?_, hf.sums, ?_⟩
  · simp only [BitVec.toNat_ofNat]
    omega
  · intro i hi
    exact hf.others i (by simpa using hi)
  · omega
  · intro h2
    have := hf.newest (by omega)
    have hk : 256 + (mergeLoop (present f).length (seedLeaves f)).k - 1 = 256 + (present f).length - 2 := by omega
    rw [hlive, List.mem_singleton, hk] at this
    exact this.symm
  · intro hlt
    rw [hf.exact hlt sh (by simp), hw]
  · intro hlt
    have h1 := hm hlt sh rfl
    rw [hf.exact hlt sh (by simp), hw] at h1
    refine h1.perm ?_
    unfold Forest.trees
    rw [List.map_map]
    refine List.Perm.of_eq (List.map_congr_left fun v hv => ?_)
    have h3 := (seed_spec f allSymbols allSymbols_nodup).2.2.1 v (mem_allSymbols v) (mem_present.mp hv)
    simp only [Function.comp_apply, Shape.tree, Shape.index]
    rw [show nodeAt (seedLeaves f).node (v.setWidth 9) = _ from h3]
    rfl

/-- R33 after BUILD, for any counters at all. -/
theorem buildTree_stands (f : FreqTable) :
    TreeStands (buildTree f).node (buildTree f).root (buildTree f).nnodes := by
  by_cases h : present f = []
  · rw [buildTree_none h]
    exact .inl ⟨rfl, rfl, nodeAt_noNodes⟩
  · obtain ⟨sh, hb⟩ := buildTree_some h
    exact .inr ⟨sh, hb.root, hb.stands, hb.nodup, hb.nnodes, hb.others⟩

theorem Built.treeOf_eq {f : FreqTable} {t : TreeTable} {sh : Shape} (h : Built f t sh) :
    treeOf t.node t.root = sh.tree := by
  have := h.stands.depth_le h.nodup
  rw [h.root]
  exact h.stands.treeAt_eq (by simp [walkFuel]; omega)

end Sys2Proof.Machine
end

