-- ==== Sys2Proof/Laws/Unpack.lean ====
section
/-! SUPPORT. What UNPACK's loop does along a path of the tree, at the end of the payload and on the empty tree
(`44_unpack.md` rules R151 to R156). -/

namespace Sys2Proof.Machine

@[simp] theorem byteBits_length (b : Byte) : (byteBits b).length = 8 := by simp [byteBits]

theorem payloadBits_append (a b : List Byte) : payloadBits (a ++ b) = payloadBits a ++ payloadBits b := by
  simp [payloadBits]

@[simp] theorem payloadBits_length (a : List Byte) : (payloadBits a).length = 8 * a.length := by
  induction a with
  | nil => rfl
  | cons b a ih => simp [payloadBits, List.length_flatMap] at *; omega

/-- R151: the loop is over when the target is reached. -/
theorem unpackLoop_done (t : NodeTable) (root : Idx) {count fuel : Nat} {u : Unpacking} (h : u.emitted = count) :
    unpackLoop t root count fuel u = u := by
  cases fuel <;> simp [unpackLoop, h]

/-- R151: following the code of a leaf of the tree at the current entry uses its bits and ends at that leaf. -/
theorem unpackLoop_path (t : NodeTable) (root : Idx) (count fuel : Nat) (depth : Nat) (u : Unpacking) (v : Byte)
    (p rest : List Bool) (hc : (v, p) ∈ (treeAt t depth u.cur).codes) (hb : u.bits = p ++ rest)
    (he : u.emitted ≠ count) :
    ∃ i, i ≠ NIL ∧ (nodeAt t i).leaf = true ∧ (nodeAt t i).value = v ∧
      unpackLoop t root count (fuel + p.length) u = unpackLoop t root count fuel { u with cur := i, bits := rest } := by
  induction depth generalizing u p with
  | zero => simp [treeAt, Tree.codes] at hc
  | succ depth ih =>
    unfold treeAt at hc
    split at hc
    · simp [Tree.codes] at hc
    · next hn =>
      split at hc
      · next hl =>
        simp only [Tree.codes, List.mem_singleton, Prod.mk.injEq] at hc
        obtain ⟨rfl, rfl⟩ := hc
        refine ⟨u.cur, hn, hl, rfl, ?_⟩
        simp only [List.nil_append] at hb
        simp [← hb]
      · next hl =>
        simp only [Tree.codes, List.mem_append, List.mem_map, Prod.mk.injEq] at hc
        rcases hc with ⟨⟨w, q⟩, hq, rfl, rfl⟩ | ⟨⟨w, q⟩, hq, rfl, rfl⟩
        · obtain ⟨i, h1, h2, h3, h4⟩ :=
            ih { u with cur := (nodeAt t u.cur).left, bits := q ++ rest } q hq rfl he
          refine ⟨i, h1, h2, h3, ?_⟩
          rw [List.length_cons, ← Nat.add_assoc]
          conv_lhs => unfold unpackLoop
          simp only [he, hn, hl, hb, List.cons_append, if_false, Bool.false_eq_true]
          exact h4
        · obtain ⟨i, h1, h2, h3, h4⟩ :=
            ih { u with cur := (nodeAt t u.cur).right, bits := q ++ rest } q hq rfl he
          refine ⟨i, h1, h2, h3, ?_⟩
          rw [List.length_cons, ← Nat.add_assoc]
          conv_lhs => unfold unpackLoop
          simp only [he, hn, hl, hb, List.cons_append, if_false, if_true, Bool.false_eq_true]
          exact h4

/-- R151, R154: one symbol: its code is read, its value emitted, the walk is back at ROOT. -/
theorem unpackLoop_symbol (t : NodeTable) (root : Idx) (count fuel : Nat) (u : Unpacking) (c : Byte × List Bool)
    (rest : List Bool) (hc : c ∈ (treeOf t root).codes) (hr : u.cur = root) (hb : u.bits = c.2 ++ rest)
    (he : u.emitted ≠ count) :
    unpackLoop t root count (fuel + 1 + c.2.length) u =
      unpackLoop t root count fuel
        { u with bits := rest, emitted := u.emitted + 1, out := u.out ++ [c.1] } := by
  obtain ⟨i, h1, h2, h3, h4⟩ := unpackLoop_path t root count (fuel + 1) walkFuel u c.1 c.2 rest
    (by rw [hr]; exact hc) hb he
  rw [h4]
  conv_lhs => unfold unpackLoop
  simp [he, h1, h2, h3, hr]

/-- R151: a sequence of codes is read and emitted, one by one. -/
theorem unpackLoop_symbols (t : NodeTable) (root : Idx) (count : Nat) (cs : List (Byte × List Bool)) (fuel : Nat)
    (u : Unpacking) (rest : List Bool) (hc : ∀ c ∈ cs, c ∈ (treeOf t root).codes) (hr : u.cur = root)
    (hb : u.bits = (cs.flatMap fun c => c.2) ++ rest) (he : u.emitted + cs.length ≤ count) :
    unpackLoop t root count (fuel + cs.length + (cs.flatMap fun c => c.2).length) u =
      unpackLoop t root count fuel
        { u with bits := rest, emitted := u.emitted + cs.length, out := u.out ++ cs.map fun c => c.1 } := by
  induction cs generalizing u with
  | nil =>
    simp only [List.flatMap_nil, List.nil_append] at hb
    simp [← hb]
  | cons c cs ih =>
    simp only [List.length_cons] at he
    have h1 := unpackLoop_symbol t root count (fuel + cs.length + (cs.flatMap fun c => c.2).length) u c
      ((cs.flatMap fun c => c.2) ++ rest) (hc c (by simp)) hr (by simpa using hb) (by omega)
    have hl : fuel + (c :: cs).length + ((c :: cs).flatMap fun c => c.2).length =
        fuel + cs.length + (cs.flatMap fun c => c.2).length + 1 + c.2.length := by
      simp; omega
    have h2 := ih
      { u with
        bits := (cs.flatMap fun c => c.2) ++ rest, emitted := u.emitted + 1, out := u.out ++ [c.1] }
      (fun d hd => hc d (by simp [hd])) hr rfl (by simp; omega)
    rw [hl, h1, h2]
    simp [Nat.add_assoc, Nat.add_comm 1]

/-- Fuel to spare for a sequence of codes that begins the payload. -/
theorem unpackRun_symbols (t : NodeTable) (root : Idx) (count : Nat) (cs : List (Byte × List Bool))
    (payload : List Byte) (rest : List Bool) (hc : ∀ c ∈ cs, c ∈ (treeOf t root).codes) (hl : cs.length ≤ count)
    (hb : payloadBits payload = (cs.flatMap fun c => c.2) ++ rest) :
    unpackRun t root count payload =
      unpackLoop t root count (count - cs.length + rest.length + 1)
        { cur := root, bits := rest, emitted := cs.length, out := cs.map fun c => c.1, err := none } := by
  unfold unpackRun
  have hlen : (payloadBits payload).length = (cs.flatMap fun c => c.2).length + rest.length := by rw [hb]; simp
  have hf : count + (payloadBits payload).length + 1 =
      (count - cs.length + rest.length + 1) + cs.length + (cs.flatMap fun c => c.2).length := by omega
  rw [hf, unpackLoop_symbols t root count cs _ _ rest hc rfl hb (by simpa using hl)]
  simp

/-- R151, R152: success. -/
theorem unpackRun_success {t : NodeTable} {root : Idx} {cs : List (Byte × List Bool)} {payload : List Byte}
    (hc : ∀ c ∈ cs, c ∈ (treeOf t root).codes)
    (hb : (cs.flatMap fun c => c.2).IsPrefix (payloadBits payload)) :
    (unpackRun t root cs.length payload).out = cs.map (fun c => c.1) ∧
      (unpackRun t root cs.length payload).err = none := by
  obtain ⟨rest, hrest⟩ := hb
  rw [unpackRun_symbols t root cs.length cs payload rest hc (le_refl _) hrest.symm, unpackLoop_done]
  · exact ⟨rfl, rfl⟩
  · rfl

/-- R151 test (4): the bits end strictly above a leaf. -/
theorem unpackLoop_exhausted (t : NodeTable) (root : Idx) (count fuel : Nat) (depth : Nat) (u : Unpacking)
    (v : Byte) (more : List Bool) (hm : more ≠ [])
    (hc : (v, u.bits ++ more) ∈ (treeAt t depth u.cur).codes) (he : u.emitted ≠ count) :
    (unpackLoop t root count (fuel + 1 + u.bits.length) u).out = u.out ∧
      (unpackLoop t root count (fuel + 1 + u.bits.length) u).err = some (.payloadExhausted, u.emitted) := by
  induction depth generalizing u with
  | zero => simp [treeAt, Tree.codes] at hc
  | succ depth ih =>
    unfold treeAt at hc
    split at hc
    · simp [Tree.codes] at hc
    · next hn =>
      split at hc
      · simp only [Tree.codes, List.mem_singleton, Prod.mk.injEq, List.append_eq_nil_iff] at hc
        exact absurd hc.2.2 hm
      · next hl =>
        cases hbits : u.bits with
        | nil =>
          simp only [List.length_nil, Nat.add_zero]
          unfold unpackLoop
          simp [he, hn, hl, hbits]
        | cons b bs =>
          rw [List.length_cons, ← Nat.add_assoc]
          simp only [hbits, List.cons_append, Tree.codes, List.mem_append, List.mem_map, Prod.mk.injEq,
            List.cons.injEq] at hc
          rcases hc with ⟨⟨w, q⟩, hq, rfl, rfl, hqe⟩ | ⟨⟨w, q⟩, hq, rfl, rfl, hqe⟩
          · have := ih { u with cur := (nodeAt t u.cur).left, bits := bs } (by simpa [← hqe] using hq) he
            conv => unfold unpackLoop
            simpa [he, hn, hl, hbits] using this
          · have := ih { u with cur := (nodeAt t u.cur).right, bits := bs } (by simpa [← hqe] using hq) he
            conv => unfold unpackLoop
            simpa [he, hn, hl, hbits] using this

theorem unpackRun_exhausted {t : NodeTable} {root : Idx} {count : Nat} {cs : List (Byte × List Bool)}
    {payload : List Byte} {way more : List Bool} {v : Byte} (hc : ∀ c ∈ cs, c ∈ (treeOf t root).codes)
    (hl : cs.length < count) (hb : payloadBits payload = (cs.flatMap fun c => c.2) ++ way) (hm : more ≠ [])
    (hv : (v, way ++ more) ∈ (treeOf t root).codes) :
    (unpackRun t root count payload).out = cs.map (fun c => c.1) ∧
      (unpackRun t root count payload).err = some (.payloadExhausted, cs.length) := by
  rw [unpackRun_symbols t root count cs payload way hc (by omega) hb]
  have hf : count - cs.length + way.length + 1 = (count - cs.length) + 1 + way.length := by omega
  rw [hf]
  exact unpackLoop_exhausted t root count _ walkFuel
    { cur := root, bits := way, emitted := cs.length, out := cs.map fun c => c.1, err := none } v more hm hv
    (by simp; omega)

/-- R155: the empty tree. -/
theorem unpackRun_empty (t : NodeTable) (count : Nat) (payload : List Byte) :
    (unpackRun t NIL count payload).out = [] ∧
      (unpackRun t NIL count payload).err = if count = 0 then none else some (.missingChild, 0) := by
  unfold unpackRun unpackLoop
  by_cases h : count = 0
  · simp [h]
  · have : ¬(0 = count) := fun e => h e.symm
    simp [h, this]

/-- R151: the loop only appends to its output. -/
theorem unpackLoop_out_grows (t : NodeTable) (root : Idx) (count fuel : Nat) (u : Unpacking) :
    u.out.IsPrefix (unpackLoop t root count fuel u).out := by
  induction fuel generalizing u with
  | zero => exact List.prefix_rfl
  | succ fuel ih =>
    unfold unpackLoop
    split
    · exact List.prefix_rfl
    · split
      · exact List.prefix_rfl
      · split
        · have := ih { u with cur := root, emitted := u.emitted + 1, out := u.out ++ [(nodeAt t u.cur).value] }
          exact (List.prefix_append _ _).trans this
        · split
          · exact List.prefix_rfl
          · next bit rest _ =>
            exact ih { u with cur := if bit then (nodeAt t u.cur).right else (nodeAt t u.cur).left, bits := rest }

/-- R70 (c): more payload bits only prolong the output. -/
theorem unpackLoop_out_prefix (t : NodeTable) (root : Idx) (count : Nat) (more : List Bool) (f g : Nat) (hfg : f ≤ g)
    (u : Unpacking) :
    (unpackLoop t root count f u).out.IsPrefix
      (unpackLoop t root count g { u with bits := u.bits ++ more }).out := by
  induction f generalizing g u with
  | zero => exact unpackLoop_out_grows t root count g { u with bits := u.bits ++ more }
  | succ f ih =>
    obtain ⟨g, rfl⟩ : ∃ g', g = g' + 1 := ⟨g - 1, by omega⟩
    unfold unpackLoop
    by_cases he : u.emitted = count
    · simp [he]
    · by_cases hn : u.cur = NIL
      · simp [he, hn]
      · by_cases hl : (nodeAt t u.cur).leaf = true
        · simp only [he, hn, hl, if_false, if_true]
          exact ih g (by omega) _
        · cases hb : u.bits with
          | nil =>
            simp only [he, hn, hl, if_false, List.nil_append, Bool.false_eq_true]
            cases more with
            | nil => exact List.prefix_rfl
            | cons b more =>
              exact unpackLoop_out_grows t root count g
                { u with cur := if b then (nodeAt t u.cur).right else (nodeAt t u.cur).left, bits := more }
          | cons b bs =>
            simp only [he, hn, hl, if_false, List.cons_append, Bool.false_eq_true]
            exact ih g (by omega) { u with cur := _, bits := bs }

theorem unpackRun_out_prefix (t : NodeTable) (root : Idx) (count : Nat) (a b : List Byte) :
    (unpackRun t root count a).out.IsPrefix (unpackRun t root count (a ++ b)).out := by
  unfold unpackRun
  rw [payloadBits_append]
  exact unpackLoop_out_prefix t root count (payloadBits b) _ _ (by simp) _

/-- R151: "The emitted count never exceeds `COUNT_L`". -/
theorem unpackLoop_emitted (t : NodeTable) (root : Idx) (count fuel : Nat) (u : Unpacking)
    (h : u.emitted = u.out.length) (hle : u.emitted ≤ count) :
    (unpackLoop t root count fuel u).emitted = (unpackLoop t root count fuel u).out.length ∧
      (unpackLoop t root count fuel u).emitted ≤ count := by
  induction fuel generalizing u with
  | zero => exact ⟨h, hle⟩
  | succ fuel ih =>
    unfold unpackLoop
    split
    · exact ⟨h, hle⟩
    · split
      · exact ⟨h, hle⟩
      · split
        · exact ih _ (by simp [h]) (by simp; omega)
        · split
          · exact ⟨h, hle⟩
          · exact ih _ h hle

/-- R211: every failure of the loop is of class INVALID_STREAM. -/
theorem unpackRun_error_code {t : NodeTable} {root : Idx} {count : Nat} {payload : List Byte} {e : ErrCause × Nat}
    (h : (unpackRun t root count payload).err = some e) : e.1.code = 3 := by
  have key : ∀ (fuel : Nat) (u : Unpacking), u.err = none →
      (unpackLoop t root count fuel u).err = some e → e.1.code = 3 := by
    intro fuel
    induction fuel with
    | zero => intro u hu h; rw [unpackLoop, hu] at h; cases h
    | succ fuel ih =>
      intro u hu h
      unfold unpackLoop at h
      split at h
      · rw [hu] at h; cases h
      · split at h
        · cases h; rfl
        · split at h
          · exact ih _ (by exact hu) h
          · split at h
            · cases h; rfl
            · exact ih _ (by exact hu) h
  exact key _ _ rfl h

end Sys2Proof.Machine
end

