-- ==== Sys2Proof/Laws/Lookahead.lean ====
section
/-! SUPPORT. UNPACK's lookahead (`20_memory.md` rule R70 (c)): what it promises is pushed whatever the rest of the payload
is, and popping more of the payload only adds to it. -/

namespace Sys2Proof.Machine

/-! ## Trees with one value -/

theorem Tree.common_fork {l r : Tree} {v : Byte} :
    (Tree.fork l r).common = some v ↔ l.common = some v ∧ r.common = some v := by
  simp only [Tree.common]
  cases l.common with
  | none => cases r.common <;> simp
  | some a =>
    cases r.common with
    | none => simp
    | some b =>
      by_cases h : a = b
      · subst h
        simp
      · simp only [h, if_false]
        constructor
        · intro h'
          cases h'
        · rintro ⟨h1, h2⟩
          cases h1
          cases h2
          exact absurd rfl h

/-- A tree with one value has no missing subtree, so it was read deep enough. -/
theorem treeAt_succ_of_common {t : NodeTable} {fuel : Nat} {i : Idx} {v : Byte} (h : (treeAt t fuel i).common = some v) :
    treeAt t (fuel + 1) i = treeAt t fuel i := by
  induction fuel generalizing i with
  | zero => simp [treeAt, Tree.common] at h
  | succ fuel ih =>
    unfold treeAt at h ⊢
    split
    · rfl
    · next hn =>
      split
      · rfl
      · next hl =>
        rw [if_neg hn, if_neg hl, Tree.common_fork] at h
        rw [ih h.1, ih h.2]

theorem treeAt_leaf {t : NodeTable} {i : Idx} (hn : i ≠ NIL) (hl : (nodeAt t i).leaf = true) :
    treeAt t walkFuel i = .leaf (nodeAt t i).value := by
  rw [show walkFuel = 511 + 1 from rfl]
  unfold treeAt
  rw [if_neg hn, if_pos hl]

/-- One edge down from an internal entry whose leaves carry one value. -/
theorem treeAt_child {t : NodeTable} {i : Idx} {v : Byte} (hn : i ≠ NIL) (hl : ¬(nodeAt t i).leaf = true)
    (h : (treeAt t walkFuel i).common = some v) (bit : Bool) :
    (treeAt t walkFuel (if bit then (nodeAt t i).right else (nodeAt t i).left)).common = some v ∧
      (treeAt t walkFuel (if bit then (nodeAt t i).right else (nodeAt t i).left)).depth + 1 ≤
        (treeAt t walkFuel i).depth := by
  have he : treeAt t walkFuel i = .fork (treeAt t 511 (nodeAt t i).left) (treeAt t 511 (nodeAt t i).right) := by
    rw [show walkFuel = 511 + 1 from rfl]
    conv_lhs => unfold treeAt
    rw [if_neg hn, if_neg hl]
  rw [he] at h ⊢
  rw [Tree.common_fork] at h
  have h1 : treeAt t walkFuel (nodeAt t i).left = treeAt t 511 (nodeAt t i).left := treeAt_succ_of_common h.1
  have h2 : treeAt t walkFuel (nodeAt t i).right = treeAt t 511 (nodeAt t i).right := treeAt_succ_of_common h.2
  cases bit
  · simp only [Bool.false_eq_true, if_false, h1, Tree.depth]
    exact ⟨h.1, by omega⟩
  · simp only [if_true, h2, Tree.depth]
    exact ⟨h.2, by omega⟩

/-! ## The lookahead along the walk -/

theorem replicate_prefix {m n : Nat} (h : m ≤ n) (w : Byte) : (List.replicate m w).IsPrefix (List.replicate n w) :=
  ⟨List.replicate (n - m) w, by rw [List.replicate_append_replicate]; congr 1; omega⟩

theorem determinedSymbols_done (t : NodeTable) (root : Idx) (left : Nat) (cur : Idx) :
    determinedSymbols t root left 0 cur = [] := by
  unfold determinedSymbols
  split
  · rfl
  · rw [if_pos (.inl rfl)]

theorem determinedSymbols_NIL (t : NodeTable) (root : Idx) (left owed : Nat) :
    determinedSymbols t root left owed NIL = [] := by
  have h : treeAt t walkFuel NIL = .empty := by
    rw [show walkFuel = 511 + 1 from rfl]
    unfold treeAt
    rw [if_pos rfl]
  simp [determinedSymbols, h, Tree.common]

/-- At a leaf: its value, and what is determined from ROOT on. -/
theorem determinedSymbols_leaf {t : NodeTable} {root : Idx} {left owed : Nat} {cur : Idx} (hn : cur ≠ NIL)
    (hl : (nodeAt t cur).leaf = true) (ho : owed ≠ 0) :
    (determinedSymbols t root left owed cur).IsPrefix
      ((nodeAt t cur).value :: determinedSymbols t root left (owed - 1) root) := by
  have hd := treeAt_leaf hn hl
  unfold determinedSymbols
  rw [hd]
  simp only [Tree.common, Tree.depth, Nat.not_lt_zero, or_false, ho, if_false, Nat.sub_zero]
  rw [show treeAt t walkFuel root = treeOf t root from rfl]
  cases hc : (treeOf t root).common with
  | none => simp
  | some w =>
    simp only [List.prefix_cons_inj]
    by_cases h : owed - 1 = 0 ∨ left < (treeOf t root).depth
    · rw [if_pos h]
      rcases h with h | h
      · simp [h]
      · simp [Nat.div_eq_of_lt h]
    · rw [if_neg h]
      have h1 : 1 ≤ owed - 1 := by omega
      rw [← List.replicate_succ]
      apply replicate_prefix
      rcases Nat.eq_zero_or_pos (treeOf t root).depth with hz | hz
      · simp [hz]
      · have := Nat.div_eq_sub_div (b := (treeOf t root).depth) (a := left) hz (by omega)
        omega

/-- At an internal entry: the next bit, whichever it is, leaves what was determined. -/
theorem determinedSymbols_bit {t : NodeTable} {root : Idx} {left owed : Nat} {cur : Idx} (hn : cur ≠ NIL)
    (hl : ¬(nodeAt t cur).leaf = true) (bit : Bool) :
    (determinedSymbols t root (left + 1) owed cur).IsPrefix
      (determinedSymbols t root left owed (if bit then (nodeAt t cur).right else (nodeAt t cur).left)) := by
  unfold determinedSymbols
  cases hc : (treeAt t walkFuel cur).common with
  | none => exact List.nil_prefix
  | some v =>
    obtain ⟨h1, h2⟩ := treeAt_child hn hl hc bit
    rw [h1]
    generalize (treeAt t walkFuel (if bit then (nodeAt t cur).right else (nodeAt t cur).left)).depth = d' at h2
    simp only
    by_cases h : owed = 0 ∨ left + 1 < (treeAt t walkFuel cur).depth
    · rw [if_pos h]
      exact List.nil_prefix
    · rw [if_neg h, if_neg (by omega)]
      cases (treeOf t root).common with
      | none => exact List.prefix_rfl
      | some w =>
        simp only [List.prefix_cons_inj]
        apply replicate_prefix
        have : (left + 1 - (treeAt t walkFuel cur).depth) / (treeOf t root).depth ≤ (left - d') / (treeOf t root).depth :=
          Nat.div_le_div_right (by omega)
        omega

/-- With no bit left nothing more is determined at an internal entry. -/
theorem determinedSymbols_stuck {t : NodeTable} {root : Idx} {owed : Nat} {cur : Idx}
    (hl : ¬(nodeAt t cur).leaf = true) : determinedSymbols t root 0 owed cur = [] := by
  by_cases hn : cur = NIL
  · rw [hn, determinedSymbols_NIL]
  · unfold determinedSymbols
    cases hc : (treeAt t walkFuel cur).common with
    | none => rfl
    | some v =>
      obtain ⟨-, h2⟩ := treeAt_child hn hl hc false
      simp only
      rw [if_pos (.inr (by omega))]

/-! ## The lookahead and the loop -/

/-- The output that is determined in a state of the loop whose bits are all read, with `left` bits to come. -/
def Unpacking.determined (t : NodeTable) (root : Idx) (count left : Nat) (u : Unpacking) : List Byte :=
  u.out ++ determinedSymbols t root left (count - u.emitted) u.cur

theorem unpackLoop_determined (t : NodeTable) (root : Idx) (count left fuel : Nat) (u : Unpacking)
    (hf : count - u.emitted + u.bits.length < fuel) (he : u.emitted ≤ count) :
    (u.determined t root count (u.bits.length + left)).IsPrefix
      ((unpackLoop t root count fuel u).determined t root count left) := by
  induction fuel generalizing u with
  | zero => omega
  | succ fuel ih =>
    unfold unpackLoop
    by_cases h1 : u.emitted = count
    · rw [if_pos h1]
      simp [Unpacking.determined, h1, determinedSymbols_done]
    · rw [if_neg h1]
      by_cases hn : u.cur = NIL
      · rw [if_pos hn]
        simp [Unpacking.determined, hn, determinedSymbols_NIL]
      · rw [if_neg hn]
        by_cases hl : (nodeAt t u.cur).leaf = true
        · rw [if_pos hl]
          refine List.IsPrefix.trans ?_ (ih _ (by simp only; omega) (by simp only; omega))
          simp only [Unpacking.determined, List.append_assoc]
          rw [List.prefix_append_right_inj, List.singleton_append, Nat.sub_add_eq]
          exact determinedSymbols_leaf hn hl (by omega)
        · rw [if_neg hl]
          cases hb : u.bits with
          | nil => simp [Unpacking.determined]
          | cons bit rest =>
            rw [hb, List.length_cons] at hf
            refine List.IsPrefix.trans ?_ (ih _ (by simp only; omega) he)
            simp only [Unpacking.determined]
            rw [List.prefix_append_right_inj, List.length_cons, Nat.add_right_comm]
            exact determinedSymbols_bit hn hl bit

/-- A loop that has gone on to its end stands on no leaf with symbols owed. -/
theorem unpackLoop_settled (t : NodeTable) (root : Idx) (count fuel : Nat) (u : Unpacking)
    (hf : count - u.emitted + u.bits.length < fuel) (he : u.emitted ≤ count) :
    (unpackLoop t root count fuel u).determined t root count 0 = (unpackLoop t root count fuel u).out := by
  induction fuel generalizing u with
  | zero => omega
  | succ fuel ih =>
    unfold unpackLoop
    by_cases h1 : u.emitted = count
    · rw [if_pos h1]
      simp [Unpacking.determined, h1, determinedSymbols_done]
    · rw [if_neg h1]
      by_cases hn : u.cur = NIL
      · rw [if_pos hn]
        simp [Unpacking.determined, hn, determinedSymbols_NIL]
      · rw [if_neg hn]
        by_cases hl : (nodeAt t u.cur).leaf = true
        · rw [if_pos hl]
          exact ih _ (by simp only; omega) (by simp only; omega)
        · rw [if_neg hl]
          cases hb : u.bits with
          | nil => simp [Unpacking.determined, determinedSymbols_stuck hl]
          | cons bit rest =>
            rw [hb, List.length_cons] at hf
            exact ih _ (by simp only; omega) he

/-- More payload bits only prolong what is determined. -/
theorem unpackLoop_determined_append (t : NodeTable) (root : Idx) (count left f g : Nat) (more : List Bool)
    (u : Unpacking) (hf : count - u.emitted + u.bits.length < f)
    (hg : count - u.emitted + u.bits.length + more.length < g) (he : u.emitted ≤ count) :
    ((unpackLoop t root count f u).determined t root count (more.length + left)).IsPrefix
      ((unpackLoop t root count g { u with bits := u.bits ++ more }).determined t root count left) := by
  induction f generalizing g u with
  | zero => omega
  | succ f ih =>
    obtain ⟨g, rfl⟩ : ∃ g', g = g' + 1 := ⟨g - 1, by omega⟩
    by_cases hstop : u.emitted = count ∨ u.cur = NIL ∨ (¬(nodeAt t u.cur).leaf = true ∧ u.bits = [])
    · have h := unpackLoop_determined t root count left (g + 1) { u with bits := u.bits ++ more }
        (by simp only [List.length_append]; omega) he
      refine List.IsPrefix.trans ?_ h
      simp only [Unpacking.determined, List.length_append]
      unfold unpackLoop
      rcases hstop with h1 | h1 | ⟨h1, h2⟩
      · simp [h1, determinedSymbols_done]
      · by_cases h2 : u.emitted = count <;> simp [h1, h2, determinedSymbols_NIL]
      · by_cases h3 : u.emitted = count
        · simp [h3, determinedSymbols_done]
        · by_cases h4 : u.cur = NIL
          · simp [h3, h4, determinedSymbols_NIL]
          · simp [h1, h2, h3, h4]
    · simp only [not_or, not_and] at hstop
      obtain ⟨h1, h2, h3⟩ := hstop
      unfold unpackLoop
      by_cases hl : (nodeAt t u.cur).leaf = true
      · simp only [h1, h2, hl, if_false, if_true]
        exact ih g _ (by simp only; omega) (by simp only; omega) (by simp only; omega)
      · cases hb : u.bits with
        | nil => exact absurd hb (h3 hl)
        | cons bit rest =>
          rw [hb, List.length_cons] at hf hg
          simp only [h1, h2, hl, if_false, List.cons_append, Bool.false_eq_true]
          exact ih g { u with cur := _, bits := rest } (by simp only; omega) (by simp only; omega) he

/-! ## What R70 (c) asks -/

/-- Popping more of the payload only adds to what is determined. -/
theorem determinedByPrefix_mono (t : NodeTable) (root : Idx) (count : Nat) (a b : List Byte) {m n : Nat}
    (h : m = b.length + n) :
    (determinedByPrefix t root count a m).IsPrefix (determinedByPrefix t root count (a ++ b) n) := by
  unfold determinedByPrefix unpackRun
  rw [payloadBits_append]
  have := unpackLoop_determined_append t root count (8 * n) (count + (payloadBits a).length + 1)
    (count + (payloadBits a ++ payloadBits b).length + 1) (payloadBits b)
    { cur := root, bits := payloadBits a, emitted := 0, out := [], err := none } (by simp)
    (by simp only [List.length_append]; omega) (Nat.zero_le _)
  have e : 8 * m = (payloadBits b).length + 8 * n := by rw [payloadBits_length]; omega
  rw [e]
  exact this

/-- With the whole payload popped what is determined is the output. -/
theorem determinedByPrefix_whole (t : NodeTable) (root : Idx) (count : Nat) (a : List Byte) :
    determinedByPrefix t root count a 0 = (unpackRun t root count a).out :=
  unpackLoop_settled t root count _ _ (by simp) (Nat.zero_le _)

/-- R70 (c): what is determined is the beginning of the output, whatever the rest of the payload is. -/
theorem determinedByPrefix_prefix (t : NodeTable) (root : Idx) (count : Nat) (a b : List Byte) :
    (determinedByPrefix t root count a b.length).IsPrefix (unpackRun t root count (a ++ b)).out := by
  rw [← determinedByPrefix_whole]
  exact determinedByPrefix_mono t root count a b rfl

end Sys2Proof.Machine
end

