-- ==== Sys2Proof/Laws/Pack.lean ====
section
/-! SUPPORT. What PACK's loop has done after any number of bits and bytes (`43_pack.md` rules R141, R142). -/

namespace Sys2Proof.Machine

@[simp] theorem payloadOfStream_length (st : List Bool) :
    (payloadOfStream st).length = (st.length + 7) / 8 := by
  simp [payloadOfStream]

/-- The whole bytes of a bit stream. -/
def wholeBytes (st : List Bool) : List Byte := (List.range (st.length / 8)).map (payloadByte st)

@[simp] theorem wholeBytes_length (st : List Bool) : (wholeBytes st).length = st.length / 8 := by
  simp [wholeBytes]

theorem wholeBytes_eq_take (st : List Bool) : wholeBytes st = (payloadOfStream st).take (st.length / 8) := by
  unfold wholeBytes payloadOfStream
  rw [← List.map_take, List.take_range]
  congr 2
  omega

/-- A whole byte of a stream does not depend on what follows it. -/
theorem payloadByte_append {st : List Bool} (more : List Bool) {k : Nat} (h : 8 * k + 8 ≤ st.length) :
    payloadByte (st ++ more) k = payloadByte st k := by
  unfold payloadByte
  congr 2
  apply List.map_congr_left
  intro j hj
  have : j < 8 := List.mem_range.mp hj
  simp only [List.getD_eq_getElem?_getD]
  rw [List.getElem?_append_left (by omega)]

/-- The eight bits of byte `k` are eight bits of the stream. -/
theorem payloadByte_eq_drop {st : List Bool} {k : Nat} (h : 8 * k + 8 ≤ st.length) :
    payloadByte st k = BitVec.ofNat 8 (bitsValue ((st.drop (8 * k)).take 8)) := by
  unfold payloadByte
  congr 2
  apply List.ext_getElem?
  intro j
  by_cases hj : j < 8
  · simp only [List.getElem?_map, List.getElem?_range hj, Option.map_some, List.getElem?_take, hj, if_true,
      List.getElem?_drop]
    rw [List.getD_eq_getElem?_getD, List.getElem?_eq_getElem (by omega)]
    simp
  · rw [List.getElem?_eq_none (by simp; omega), List.getElem?_eq_none (by simp; omega)]

/-- The last, incomplete byte is the remaining bits, left-packed and zero-filled. -/
theorem payloadByte_last (st : List Bool) :
    payloadByte st (st.length / 8) =
      BitVec.ofNat 8 (bitsValue (st.drop (8 * (st.length / 8))) * 2 ^ (8 - st.length % 8)) := by
  unfold payloadByte
  congr 1
  have hz : ∀ n, bitsValue (List.replicate n false) = 0 := by
    intro n
    induction n with
    | zero => rfl
    | succ n ih => rw [List.replicate_succ, bitsValue_cons, ih]; simp
  have : ((List.range 8).map fun j => st.getD (8 * (st.length / 8) + j) false) =
      st.drop (8 * (st.length / 8)) ++ List.replicate (8 - st.length % 8) false := by
    apply List.ext_getElem?
    intro j
    by_cases hj : j < 8
    · simp only [List.getElem?_map, List.getElem?_range hj, Option.map_some]
      rw [List.getD_eq_getElem?_getD]
      by_cases hj2 : j < st.length % 8
      · rw [List.getElem?_append_left (by simp; omega), List.getElem?_drop,
          List.getElem?_eq_getElem (by omega)]
        simp
      · rw [List.getElem?_append_right (by simp; omega), List.getElem?_eq_none (by omega),
          List.getElem?_replicate, if_pos (by simp; omega)]
        simp
    · rw [List.getElem?_eq_none (by simp; omega), List.getElem?_eq_none (by simp; omega)]
  rw [this, bitsValue_append, hz]
  simp

theorem payloadOfStream_eq (st : List Bool) :
    payloadOfStream st =
      if st.length % 8 = 0 then wholeBytes st else wholeBytes st ++ [payloadByte st (st.length / 8)] := by
  unfold payloadOfStream wholeBytes
  split
  · congr 2; omega
  · have : (st.length + 7) / 8 = st.length / 8 + 1 := by omega
    rw [this, List.range_succ, List.map_append]
    rfl

/-- PACK's variables after the bits `st`, no error so far. -/
structure Packed (p : Packing) (st : List Bool) : Prop where
  acc : p.acc = bitsValue (st.drop (8 * (st.length / 8)))
  nacc : p.nacc = st.length % 8
  out : p.out = wholeBytes st
  err : p.err = none

theorem packed_start : Packed Packing.start [] := ⟨rfl, rfl, rfl, rfl⟩

/-- R141: one bit more. -/
theorem packBit_packed {p : Packing} {st : List Bool} (h : Packed p st) (b : Bool) :
    Packed (packBit p b) (st ++ [b]) ∧ (packBit p b).j = p.j := by
  have hlen : (st ++ [b]).length = st.length + 1 := by simp
  have hd : (st ++ [b]).drop (8 * (st.length / 8)) = st.drop (8 * (st.length / 8)) ++ [b] := by
    rw [List.drop_append_of_le_length (by omega)]
  unfold packBit
  by_cases h8 : p.nacc + 1 = 8
  · rw [if_pos h8]
    have hm : st.length % 8 = 7 := by have := h.nacc; omega
    have hq : (st.length + 1) / 8 = st.length / 8 + 1 := by omega
    refine ⟨⟨?_, ?_, ?_, h.err⟩, rfl⟩
    · simp only [hlen, hq]
      rw [List.drop_eq_nil_of_le (by simp; omega)]
      rfl
    · simp only [hlen]; omega
    · simp only [h.out]
      have h1 : wholeBytes (st ++ [b]) = wholeBytes st ++ [payloadByte (st ++ [b]) (st.length / 8)] := by
        unfold wholeBytes
        rw [hlen, hq, List.range_succ, List.map_append]
        congr 1
        apply List.map_congr_left
        intro k hk
        have : k < st.length / 8 := List.mem_range.mp hk
        exact payloadByte_append [b] (by omega)
      rw [h1, payloadByte_eq_drop (by rw [hlen]; omega), hd]
      congr 3
      rw [List.take_of_length_le (by simp; omega), bitsValue_append, h.acc]
      simp [bitsValue]
      ring
  · rw [if_neg h8]
    have hm : st.length % 8 ≠ 7 := by have := h.nacc; omega
    have hq : (st.length + 1) / 8 = st.length / 8 := by omega
    refine ⟨⟨?_, ?_, ?_, h.err⟩, rfl⟩
    · simp only [hlen, hq, hd]
      rw [bitsValue_append, h.acc]
      simp [bitsValue]
      ring
    · have := h.nacc
      simp only [hlen]; omega
    · rw [h.out]
      unfold wholeBytes
      rw [hlen, hq]
      apply List.map_congr_left
      intro k hk
      have : k < st.length / 8 := List.mem_range.mp hk
      exact (payloadByte_append [b] (by omega)).symm

theorem packBits_packed (bits : List Bool) {p : Packing} {st : List Bool} (h : Packed p st) :
    Packed (bits.foldl packBit p) (st ++ bits) ∧ (bits.foldl packBit p).j = p.j := by
  induction bits generalizing p st with
  | nil => simpa using h
  | cons b bits ih =>
    have h1 := packBit_packed h b
    have h2 := ih h1.1
    simpa [h1.2] using h2

/-- R141: the loop over bytes that all have codes. -/
theorem packBytes_packed (c : CodeTable) (bs : List Byte) (hb : covers c bs = true) {p : Packing} {st : List Bool}
    (h : Packed p st) :
    Packed (bs.foldl (packByte c) p) (st ++ streamOf c bs) ∧ (bs.foldl (packByte c) p).j = p.j + bs.length := by
  induction bs generalizing p st with
  | nil => simpa [streamOf] using h
  | cons b bs ih =>
    simp only [covers, List.all_cons, Bool.and_eq_true] at hb
    have h1 := packBits_packed (codeBits (codeAt c b)) h
    have hp : packByte c p b = { (codeBits (codeAt c b)).foldl packBit p with j := p.j + 1 } := by
      simp [packByte, h.err, hb.1]
    have h2 : Packed (packByte c p b) (st ++ codeBits (codeAt c b)) := by
      rw [hp]
      exact ⟨h1.1.acc, h1.1.nacc, h1.1.out, h1.1.err⟩
    have h3 := ih hb.2 h2
    rw [List.foldl_cons]
    refine ⟨by simpa [streamOf] using h3.1, ?_⟩
    rw [h3.2, hp]
    simp only [List.length_cons]
    omega

theorem packRun_covered {c : CodeTable} {bs : List Byte} (h : covers c bs = true) :
    Packed (packRun c bs) (streamOf c bs) ∧ (packRun c bs).j = bs.length := by
  have := packBytes_packed c bs h packed_start
  simpa [packRun, Packing.start] using this

/-- R96, R142: what PACK pushes when every byte has a code. -/
theorem flushed_of_packed {p : Packing} {st : List Bool} (h : Packed p st) : p.flushed = payloadOfStream st := by
  unfold Packing.flushed
  rw [payloadOfStream_eq]
  simp only [h.err, h.nacc, h.out, h.acc]
  by_cases hz : st.length % 8 = 0
  · simp [hz]
  · have : 0 < st.length % 8 := by omega
    simp [this, hz, payloadByte_last st]

/-- R141: once an error is recorded the rest of the bytes change nothing but the offset. -/
theorem packBytes_after_error (c : CodeTable) (bs : List Byte) {p : Packing} {j : Nat} (h : p.err = some j) :
    (bs.foldl (packByte c) p).out = p.out ∧ (bs.foldl (packByte c) p).err = some j := by
  induction bs generalizing p with
  | nil => exact ⟨rfl, h⟩
  | cons b bs ih =>
    have hp : packByte c p b = { p with j := p.j + 1 } := by simp [packByte, h]
    rw [List.foldl_cons, hp]
    exact ih h

/-- R141, R143: the first byte without a code. -/
theorem packRun_uncovered {c : CodeTable} {front back : List Byte} {b : Byte} (hf : covers c front = true)
    (hb : (codeAt c b).valid = false) :
    (packRun c (front ++ b :: back)).out = wholeBytes (streamOf c front) ∧
      (packRun c (front ++ b :: back)).err = some front.length := by
  have h := packRun_covered hf
  have he : packRun c (front ++ b :: back) = back.foldl (packByte c) (packByte c (packRun c front) b) := by
    simp [packRun]
  have hp : packByte c (packRun c front) b =
      { packRun c front with acc := 0, nacc := 0, err := some front.length, j := (packRun c front).j + 1 } := by
    simp [packByte, h.1.err, hb, h.2]
  have h2 := packBytes_after_error c back (p := packByte c (packRun c front) b) (j := front.length) (by rw [hp])
  rw [he]
  refine ⟨?_, h2.2⟩
  rw [h2.1, hp]
  exact h.1.out

/-- A buffer either has codes for all of its bytes or has a first byte without one. -/
theorem covers_or_first_missing (c : CodeTable) (bs : List Byte) :
    covers c bs = true ∨
      ∃ front b back, bs = front ++ b :: back ∧ covers c front = true ∧ (codeAt c b).valid = false := by
  induction bs with
  | nil => exact .inl rfl
  | cons b bs ih =>
    by_cases hb : (codeAt c b).valid = true
    · rcases ih with h | ⟨front, x, back, rfl, hf, hx⟩
      · exact .inl (by simpa [covers, hb] using h)
      · exact .inr ⟨b :: front, x, back, rfl, by simpa [covers, hb] using hf, hx⟩
    · exact .inr ⟨[], b, bs, rfl, rfl, by simpa using hb⟩

theorem packBits_out_grows (bits : List Bool) (p : Packing) : p.out.IsPrefix (bits.foldl packBit p).out := by
  induction bits generalizing p with
  | nil => exact List.prefix_rfl
  | cons b bits ih =>
    refine List.IsPrefix.trans ?_ (ih (packBit p b))
    unfold packBit
    split
    · exact List.prefix_append _ _
    · exact List.prefix_rfl

theorem packByte_out_grows (c : CodeTable) (p : Packing) (b : Byte) : p.out.IsPrefix (packByte c p b).out := by
  unfold packByte
  simp only
  split
  · exact List.prefix_rfl
  · split
    · exact packBits_out_grows _ p
    · exact List.prefix_rfl

/-- R141: PACK's whole bytes only grow with more input. -/
theorem packRun_out_mono (c : CodeTable) (a b : List Byte) : (packRun c a).out.IsPrefix (packRun c (a ++ b)).out := by
  unfold packRun
  rw [List.foldl_append]
  generalize a.foldl (packByte c) Packing.start = p
  induction b generalizing p with
  | nil => exact List.prefix_rfl
  | cons x b ih => exact (packByte_out_grows c p x).trans (ih _)

/-- R70 (c): PACK's whole bytes after some input begin its output for every longer input. -/
theorem packRun_out_prefix (c : CodeTable) (a b : List Byte) :
    (packRun c a).out.IsPrefix (packRun c (a ++ b)).flushed := by
  refine (packRun_out_mono c a b).trans ?_
  unfold Packing.flushed
  split
  · exact List.prefix_rfl
  · split
    · exact List.prefix_append _ _
    · exact List.prefix_rfl

end Sys2Proof.Machine
end

