-- ==== Sys2Proof/Laws/Engine.lean ====
section
/-! SUPPORT. The engine's moves and turns (`20_memory.md` rules R64, R65, R70; `46_common_semantics.md` rule R206), one
lemma for each, and what an accepted command that is fed and drained does. -/

namespace Sys2Proof.Machine

/-! ## Command words -/

theorem decode_encode (i : Instr) : decode (encode i) = .ok i := by cases i <;> decide

theorem State.running_eq {s : State} (h : s.busy = true) : s.running = (decode s.curCmd).toOption := by
  unfold State.running
  rw [if_pos h]
  cases decode s.curCmd <;> rfl

theorem State.running_of_idle {s : State} (h : s.busy = false) : s.running = none := by
  simp [State.running, h]

theorem State.busy_of_running {s : State} {i : Instr} (h : s.running = some i) : s.busy = true := by
  by_contra hb
  rw [State.running_of_idle (by simpa using hb)] at h
  simp at h

@[simp] theorem State.running_accept (s : State) (i : Instr) : (s.accept i).running = some i := by
  rw [State.running_eq (by rfl)]
  simp [decode_encode, Except.toOption]

theorem State.running_congr {s t : State} (hb : t.busy = s.busy) (hc : t.curCmd = s.curCmd) : t.running = s.running := by
  simp [State.running, hb, hc]

/-! ## Bodies -/

/-- What a body's output and error depend on. -/
theorem body_congr (i : Instr) {s t : State} (inp : List Byte) (hcode : t.code = s.code) (hnode : t.node = s.node)
    (hroot : t.root = s.root) (hcount : t.countL = s.countL) :
    (body i t inp).out = (body i s inp).out ∧ (body i t inp).err = (body i s inp).err := by
  cases i <;> simp [body, clrfBody, histBody, buildBody, gencodeBody, packBody, unpackBody, serBody, deserBody, *]
  split <;> simp

/-- A body changes tables only. -/
theorem body_after (i : Instr) (s : State) (inp : List Byte) :
    ∃ (f : FreqTable) (n : Word) (t : NodeTable) (r k : Idx) (d : CodeTable),
      (body i s inp).after = { s with freq := f, total := n, node := t, root := r, nnodes := k, code := d } := by
  cases i with
  | deser =>
    simp only [body, deserBody]
    split <;> exact ⟨_, _, _, _, _, _, rfl⟩
  | _ => exact ⟨_, _, _, _, _, _, rfl⟩

theorem available_congr (i : Instr) {s t : State} (hg : t.got = s.got) (hl : t.lenL = s.lenL) (hcode : t.code = s.code)
    (hnode : t.node = s.node) (hroot : t.root = s.root) (hcount : t.countL = s.countL) :
    available i t = available i s := by
  unfold available
  rw [hg, hl, (body_congr i s.got hcode hnode hroot hcount).1]
  congr 1
  cases i <;> simp [streamed, *]

theorem inputLen_of_hasLen {i : Instr} (h : hasLen i = true) (v : Word) : inputLen i v = v.toNat := by simp [inputLen, h]

/-- R70 (b), (c): what is due is the beginning of the output of every input that extends the bytes popped. -/
theorem streamed_prefix (i : Instr) (s : State) (more : List Byte) (h : s.got.length + more.length = inputLen i s.lenL) :
    (streamed i s).IsPrefix (body i s (s.got ++ more)).out := by
  cases i with
  | pack => exact packRun_out_prefix s.code s.got more
  | unpack =>
    have he : s.lenL.toNat - s.got.length = more.length := by
      rw [← inputLen_of_hasLen (i := .unpack) rfl]; omega
    simp only [streamed, he]
    exact determinedByPrefix_prefix s.node s.root s.countL.toNat s.got more
  | _ => exact List.nil_prefix

/-- R70: popping more bytes only adds to what is due. -/
theorem streamed_mono (i : Instr) {s t : State} {more : List Byte} (hg : t.got = s.got ++ more) (hl : t.lenL = s.lenL)
    (hle : t.got.length ≤ inputLen i t.lenL) (hcode : t.code = s.code) (hnode : t.node = s.node) (hroot : t.root = s.root)
    (hcount : t.countL = s.countL) : (streamed i s).IsPrefix (streamed i t) := by
  cases i with
  | pack =>
    simp only [streamed, hg, hcode]
    exact packRun_out_mono s.code s.got more
  | unpack =>
    rw [inputLen_of_hasLen rfl, hg, hl, List.length_append] at hle
    simp only [streamed, hg, hl, hnode, hroot, hcount]
    exact determinedByPrefix_mono s.node s.root s.countL.toNat s.got more (by rw [List.length_append]; omega)
  | _ => exact List.nil_prefix

/-! ## Queues -/

theorem fittingIn_unbounded (used : Nat) (bs : List Byte) : fittingIn .unbounded used bs = bs := by cases bs <;> rfl

theorem fittingIn_upTo (m used : Nat) (bs : List Byte) : fittingIn (.upTo m) used bs = bs.take (m + 1 - used) := by
  cases bs with
  | nil => simp [fittingIn]
  | cons b rest => rfl

theorem fittingIn_all {d : Depth} {used : Nat} {bs : List Byte} (h : within d (used + bs.length) = true) :
    fittingIn d used bs = bs := by
  cases d with
  | unbounded => exact fittingIn_unbounded used bs
  | upTo m =>
    simp only [within, decide_eq_true_eq] at h
    rw [fittingIn_upTo]
    exact List.take_of_length_le (by omega)

theorem fittingIn_prefix (d : Depth) (used : Nat) (bs : List Byte) : (fittingIn d used bs).IsPrefix bs := by
  cases d with
  | unbounded => rw [fittingIn_unbounded]
  | upTo m => rw [fittingIn_upTo]; exact List.take_prefix _ _

/-- R65: a push stays within the capacity. -/
theorem within_fittingIn {d : Depth} {used : Nat} (bs : List Byte) (h : within d used = true) :
    within d (used + (fittingIn d used bs).length) = true := by
  cases d with
  | unbounded => rfl
  | upTo m =>
    simp only [within, fittingIn_upTo, decide_eq_true_eq, List.length_take] at *
    omega

theorem within_mono {d : Depth} {a b : Nat} (h : a ≤ b) (hb : within d b = true) : within d a = true := by
  cases d with
  | unbounded => rfl
  | upTo m =>
    simp only [within, decide_eq_true_eq] at *
    omega

theorem roomIn_iff (d : Depth) (used : Nat) : roomIn d used = true ↔ within d (used + 1) = true := by
  cases d <;> simp [roomIn, within]

/-! ## Moves -/

theorem popMany_running {s : State} {i : Instr} (h : s.running = some i) (n : Nat) :
    popMany n s =
      { s with
        got := s.got ++ s.inq.take (min n (inputLen i s.lenL - s.got.length)),
        inq := s.inq.drop (min n (inputLen i s.lenL - s.got.length)) } := by
  simp [popMany, h]

theorem pushMany_running {s : State} {i : Instr} (h : s.running = some i) (n : Nat) :
    pushMany n s =
      { s with
        outq := s.outq ++ fittingIn s.outDepth s.outq.length (((available i s).drop s.sent).take n),
        sent := s.sent + (fittingIn s.outDepth s.outq.length (((available i s).drop s.sent).take n)).length } := by
  simp [pushMany, h]

theorem tryComplete_running {s : State} {i : Instr} (h : s.running = some i) :
    tryComplete s =
      if s.got.length = inputLen i s.lenL ∧ s.sent = (body i s s.got).out.length then (body i s s.got).complete else s := by
  simp [tryComplete, h]

theorem engineMove_idle {s : State} (h : s.running = none) (m : EngineMove) : engineMove s m = s := by
  cases m <;> simp [engineMove, popMany, pushMany, tryComplete, h]

theorem moves_idle {s : State} (h : s.running = none) (ms : List EngineMove) : ms.foldl engineMove s = s := by
  induction ms with
  | nil => rfl
  | cons m ms ih => rw [List.foldl_cons, engineMove_idle h, ih]

theorem engineTurn_idle {s : State} (h : s.busy = false) : engineTurn s = s := by simp [engineTurn, h]

/-- A relation every move keeps is kept by a turn. -/
theorem engineTurn_induction {P : State → Prop} (hturns : ∀ s ts, P s → P { s with turns := ts })
    (hpop : ∀ n s, P s → P (popMany n s)) (hpush : ∀ n s, P s → P (pushMany n s))
    (hcomplete : ∀ s, P s → P (tryComplete s)) (s : State) (h : P s) : P (engineTurn s) := by
  unfold engineTurn
  split
  · split
    · exact hcomplete _ (hpush _ _ (hpop _ _ h))
    · next ms rest _ =>
      have : ∀ (ms : List EngineMove) (t : State), P t → P (ms.foldl engineMove t) := by
        intro ms
        induction ms with
        | nil => exact fun _ h => h
        | cons m ms ih =>
          intro t ht
          rw [List.foldl_cons]
          apply ih
          cases m with
          | pop => exact hpop 1 t ht
          | push => exact hpush 1 t ht
          | complete => exact hcomplete t ht
      exact this ms _ (hturns s rest h)
  · exact h

/-! ## A turn that goes on to the end -/

/-- R64, R65, R70, R206: with its bytes in IN and room in OUT, a running command completes. -/
theorem runUntilWaiting_completes {s : State} {i : Instr} {inp : List Byte} (hr : s.running = some i)
    (hinp : inp = s.got ++ s.inq.take (inputLen i s.lenL - s.got.length)) (hg : s.got.length ≤ inputLen i s.lenL)
    (hs : s.sent ≤ (body i s inp).out.length) (hfed : inputLen i s.lenL ≤ s.got.length + s.inq.length)
    (hroom : (body i s inp).out.length = s.sent ∨ OutTakes s ((body i s inp).out.length - s.sent)) :
    runUntilWaiting s =
      (body i
        { s with
          got := inp, inq := s.inq.drop (inputLen i s.lenL - s.got.length),
          outq := s.outq ++ (body i s inp).out.drop s.sent, sent := (body i s inp).out.length } inp).complete := by
  have hmin : min s.inq.length (inputLen i s.lenL - s.got.length) = inputLen i s.lenL - s.got.length := by omega
  have hlen : inp.length = inputLen i s.lenL := by
    rw [hinp, List.length_append, List.length_take]
    omega
  have hav : ∀ t : State, t.got = inp → t.lenL = s.lenL → t.code = s.code → t.node = s.node → t.root = s.root →
      t.countL = s.countL → available i t = (body i s inp).out := by
    intro t h1 h2 h3 h4 h5 h6
    unfold available
    rw [h1, h2, if_pos hlen]
    exact (body_congr i inp h3 h4 h5 h6).1
  unfold runUntilWaiting
  rw [popMany_running hr, hmin, ← hinp]
  set p : State := { s with got := inp, inq := s.inq.drop (inputLen i s.lenL - s.got.length) } with hp
  have hpr : p.running = some i := (State.running_congr rfl rfl).trans hr
  simp only [hpr]
  have hpa : available i p = (body i s inp).out := hav p rfl rfl rfl rfl rfl rfl
  have htk : ((available i p).drop p.sent).take (available i p).length = (body i s inp).out.drop s.sent := by
    rw [hpa]
    exact List.take_of_length_le (by rw [List.length_drop]; omega)
  have hfit : fittingIn p.outDepth p.outq.length ((body i s inp).out.drop s.sent) = (body i s inp).out.drop s.sent := by
    rcases hroom with hroom | hroom
    · have : (body i s inp).out.drop s.sent = [] := List.drop_eq_nil_of_le (by omega)
      rw [this]
      exact List.prefix_nil.mp (fittingIn_prefix _ _ _)
    · apply fittingIn_all
      rw [List.length_drop]
      exact hroom
  rw [pushMany_running hpr, htk, hfit]
  have hsent : p.sent + ((body i s inp).out.drop s.sent).length = (body i s inp).out.length := by
    rw [List.length_drop]
    change s.sent + _ = _
    omega
  rw [hsent]
  set q : State := { p with outq := p.outq ++ (body i s inp).out.drop s.sent, sent := (body i s inp).out.length } with hq
  have hqr : q.running = some i := (State.running_congr rfl rfl).trans hpr
  rw [tryComplete_running hqr, if_pos]
  refine ⟨hlen, ?_⟩
  have h1 : (body i q inp).out = (body i s inp).out :=
    (body_congr (s := s) (t := q) i inp rfl rfl rfl rfl).1
  exact (congrArg List.length h1).symm

/-- R93, R206: what an accepted command does when the schedule holds nothing up, its bytes are in IN and OUT has room. -/
theorem engineTurn_accept {s : State} (i : Instr) (ht : s.turns = []) (hfed : inputLen i s.len ≤ s.inq.length)
    (hroom : (body i (s.accept i) (s.inq.take (inputLen i s.len))).out = [] ∨
      OutTakes s (body i (s.accept i) (s.inq.take (inputLen i s.len))).out.length) :
    engineTurn (s.accept i) =
      (body i
        { s.accept i with
          got := s.inq.take (inputLen i s.len), inq := s.inq.drop (inputLen i s.len),
          outq := s.outq ++ (body i (s.accept i) (s.inq.take (inputLen i s.len))).out,
          sent := (body i (s.accept i) (s.inq.take (inputLen i s.len))).out.length }
        (s.inq.take (inputLen i s.len))).complete := by
  have he : engineTurn (s.accept i) = runUntilWaiting (s.accept i) := by
    unfold engineTurn
    rw [if_pos (by rfl)]
    have : (s.accept i).turns = [] := by simp [ht]
    rw [this]
  rw [he, runUntilWaiting_completes (State.running_accept s i) (inp := s.inq.take (inputLen i s.len))]
  · simp
  · simp
  · simp
  · simp
  · simpa using hfed
  · rcases hroom with hroom | hroom
    · exact .inl (by simp [hroom])
    · exact .inr (by simpa [OutTakes] using hroom)

/-! ## A command write on an idle block (R93) -/

theorem present_idle {s : State} (hb : s.busy = false) (he : s.err = false) (f : State → State) : s.present f = f s := by
  simp [State.present, State.takesCommands, hb, he]

theorem present_refused {s : State} (h : s.busy = true ∨ s.err = true) (f : State → State) : s.present f = s.drop := by
  rcases h with h | h <;> simp [State.present, State.takesCommands, h]

/-- R93, R112: which acceptance each command has. -/
def issue (i : Instr) (s : State) : State :=
  match i with
  | .hist => issueHist s
  | .clrf => s.accept .clrf
  | .build => s.accept .build
  | .gencode => s.accept .gencode
  | .pack => s.accept .pack
  | .unpack => s.accept .unpack
  | .ser => s.accept .ser
  | .deser => s.accept .deser

/-- Every arm of `exec` has one shape. -/
theorem exec_eq (i : Instr) (s : State) : exec i s = .next (engineTurn (s.present (issue i))) := by
  cases i <;> rfl

theorem issue_accept {i : Instr} {s : State} (h : i = .hist → s.total.toNat + s.len.toNat < 2 ^ 64) :
    issue i s = s.accept i := by
  cases i with
  | hist =>
    have := h rfl
    have hf : histOverflows s = false := by simp only [histOverflows, decide_eq_false_iff_not]; omega
    simp [issue, issueHist, hf]
  | _ => rfl

theorem issue_cases (i : Instr) (s : State) :
    issue i s = s.accept i ∨ i = .hist ∧ 2 ^ 64 ≤ s.total.toNat + s.len.toNat ∧ issue i s = s.raise .countOverflow s.len := by
  by_cases h : i = .hist → s.total.toNat + s.len.toNat < 2 ^ 64
  · exact .inl (issue_accept h)
  · right
    rw [Classical.not_imp] at h
    obtain ⟨rfl, h⟩ := h
    refine ⟨rfl, by omega, ?_⟩
    have hf : histOverflows s = true := by simp only [histOverflows, decide_eq_true_eq]; omega
    simp [issue, issueHist, hf]

/-- R93 case 4, R206: an accepted command that is fed and drained, in one step. -/
theorem exec_completes {i : Instr} {s : State} (h : Ready s)
    (hc : i = .hist → s.total.toNat + s.len.toNat < 2 ^ 64) (hfed : inputLen i s.len ≤ s.inq.length)
    (hroom : (body i (s.accept i) (s.inq.take (inputLen i s.len))).out = [] ∨
      OutTakes s (body i (s.accept i) (s.inq.take (inputLen i s.len))).out.length) :
    exec i s = .next
      (body i
        { s.accept i with
          got := s.inq.take (inputLen i s.len), inq := s.inq.drop (inputLen i s.len),
          outq := s.outq ++ (body i (s.accept i) (s.inq.take (inputLen i s.len))).out,
          sent := (body i (s.accept i) (s.inq.take (inputLen i s.len))).out.length }
        (s.inq.take (inputLen i s.len))).complete := by
  rw [exec_eq, present_idle h.1 h.2.1, issue_accept hc, engineTurn_accept i h.2.2 hfed hroom]

end Sys2Proof.Machine
end

