-- ==== Sys2Proof/Laws/Freq.lean ====
section
/-! SUPPORT. What HIST's loop does to the counters (`40_freq.md` rule R112) and to their sum (`10_state.md` rule R31). -/

namespace Sys2Proof.Machine

theorem sum_set_add (l : List Nat) (k n : Nat) (h : k < l.length) : (l.set k n).sum + l[k] = l.sum + n := by
  induction l generalizing k with
  | nil => simp at h
  | cons a l ih =>
    cases k with
    | zero => simp; omega
    | succ k =>
      have := ih k (by simpa using h)
      simp only [List.set_cons_succ, List.sum_cons, List.getElem_cons_succ]
      omega

theorem freqSum_setFreq (f : FreqTable) (b : Byte) (v : Word) :
    freqSum (setFreq f b v) + (freqAt f b).toNat = freqSum f + v.toNat := by
  have hlen : b.toNat < (f.toList.map BitVec.toNat).length := by
    rw [List.length_map, Vector.length_toList]
    exact b.isLt
  have h1 : (f.set b.toNat v b.isLt).toList = f.toList.set b.toNat v := by
    simp [Vector.toList]
  have h2 : (f.toList.map BitVec.toNat)[b.toNat] = (freqAt f b).toNat := by
    simp [freqAt]
  have h3 := sum_set_add (f.toList.map BitVec.toNat) b.toNat v.toNat hlen
  rw [h2, ← List.map_set, ← h1] at h3
  exact h3

theorem freqAt_le_freqSum (f : FreqTable) (b : Byte) : (freqAt f b).toNat ≤ freqSum f := by
  have := freqSum_setFreq f b 0
  simp only [BitVec.ofNat_eq_ofNat, BitVec.toNat_ofNat] at this
  omega

/-- R112: one byte counted, as long as the sum stays below `2^64`. -/
theorem countByte_spec {f : FreqTable} (b : Byte) (h : freqSum f + 1 < 2 ^ 64) :
    freqSum (countByte f b) = freqSum f + 1 ∧
      ∀ a, (freqAt (countByte f b) a).toNat = (freqAt f a).toNat + if a = b then 1 else 0 := by
  have hle := freqAt_le_freqSum f b
  have hb : (freqAt f b + 1).toNat = (freqAt f b).toNat + 1 := by
    rw [BitVec.toNat_add]
    simp only [BitVec.ofNat_eq_ofNat, BitVec.toNat_ofNat]
    omega
  constructor
  · have := freqSum_setFreq f b (freqAt f b + 1)
    rw [hb] at this
    unfold countByte
    omega
  · intro a
    unfold countByte
    by_cases ha : a = b
    · subst ha; rw [freqAt_setFreq_same, hb]; simp
    · rw [freqAt_setFreq_ne _ _ ha]; simp [ha]

/-- R112: the loop. -/
theorem countBytes_spec {f : FreqTable} (bs : List Byte) (h : freqSum f + bs.length < 2 ^ 64) :
    freqSum (countBytes f bs) = freqSum f + bs.length ∧
      ∀ a, (freqAt (countBytes f bs) a).toNat = (freqAt f a).toNat + bs.count a := by
  induction bs generalizing f with
  | nil => simp [countBytes]
  | cons b bs ih =>
    simp only [List.length_cons] at h
    obtain ⟨h1, h2⟩ := countByte_spec (f := f) b (by omega)
    obtain ⟨h3, h4⟩ := ih (f := countByte f b) (by omega)
    have he : countBytes f (b :: bs) = countBytes (countByte f b) bs := rfl
    rw [he]
    refine ⟨by simp only [List.length_cons]; omega, fun a => ?_⟩
    rw [h4, h2, List.count_cons]
    by_cases ha : a = b
    · subst ha; simp; omega
    · have : (b == a) = false := by simpa using fun e => ha e.symm
      simp [ha, this]

theorem freqSum_zeroFreq : freqSum zeroFreq = 0 := by
  unfold freqSum zeroFreq
  rw [Vector.toList_replicate, List.map_replicate, List.sum_replicate]
  rfl

end Sys2Proof.Machine
end

