-- ==== Sys2Proof/Laws/Parse.lean ====
section
/-! SUPPORT. What DESER's parser accepts, what it builds and which failure it reports (`45_treeser.md` rules R166 to
R172). -/

namespace Sys2Proof.Machine

/-- R172: the tree with its nodes numbered from `n` in pre-order. -/
def numbered : Tree → Nat → Shape
  | .empty, n => .leaf (BitVec.ofNat 9 n) 0
  | .leaf v, n => .leaf (BitVec.ofNat 9 n) v
  | .fork l r, n => .fork (BitVec.ofNat 9 n) (numbered l (n + 1)) (numbered r (n + 1 + l.size))

theorem numbered_index (t : Tree) (n : Nat) : (numbered t n).index = BitVec.ofNat 9 n := by
  cases t <;> rfl

theorem numbered_tree {t : Tree} (h : t.full = true) (n : Nat) : (numbered t n).tree = t := by
  induction t generalizing n with
  | empty => simp [Tree.full] at h
  | leaf v => rfl
  | fork l r ihl ihr =>
    simp only [Tree.full, Bool.and_eq_true] at h
    simp [numbered, Shape.tree, ihl h.1, ihr h.2]

theorem numbered_indices {t : Tree} (h : t.full = true) (n : Nat) :
    (numbered t n).indices = (List.range' n t.size).map (BitVec.ofNat 9) := by
  induction t generalizing n with
  | empty => simp [Tree.full] at h
  | leaf v => rfl
  | fork l r ihl ihr =>
    simp only [Tree.full, Bool.and_eq_true] at h
    have hs : (Tree.fork l r).size = 1 + (l.size + r.size) := by simp only [Tree.size]; omega
    rw [hs]
    simp only [numbered, Shape.indices, ihl h.1, ihr h.2]
    rw [← List.map_append, ← List.range'_append_1, ← List.range'_append_1]
    simp

/-- The nodes of a numbered tree stay where they stand when entries outside its numbers change. -/
theorem numbered_standsIn_congr {t : Tree} (h : t.full = true) {n : Nat} {a b : NodeTable} (hn : n + t.size ≤ 511)
    (hs : (numbered t n).StandsIn a)
    (hab : ∀ i : Idx, n ≤ i.toNat → i.toNat < n + t.size → nodeAt b i = nodeAt a i) :
    (numbered t n).StandsIn b := by
  induction t generalizing n with
  | empty => simp [Tree.full] at h
  | leaf v =>
    simp only [numbered, Shape.StandsIn, Tree.size] at *
    have hm : (BitVec.ofNat 9 n).toNat = n := by simp; omega
    rw [hab _ (by omega) (by omega)]
    exact hs
  | fork l r ihl ihr =>
    simp only [Tree.full, Bool.and_eq_true] at h
    simp only [numbered, Shape.StandsIn, Tree.size] at *
    have hm : (BitVec.ofNat 9 n).toNat = n := by simp; omega
    refine ⟨?_, ?_, ?_⟩
    · rw [hab _ (by omega) (by omega)]
      exact hs.1
    · exact ihl h.1 (by omega) hs.2.1 (fun i h1 h2 => hab i (by omega) (by omega))
    · exact ihr h.2 (by omega) hs.2.2 (fun i h1 h2 => hab i (by omega) (by omega))

/-- R167: what `firstFailure` does with the first byte when a subtree is owed. -/
theorem firstFailure_badTag {tag : Byte} (h : tag ≠ 0x00 ∧ tag ≠ 0x01) (owed pos n : Nat) (rest : List Byte) :
    firstFailure (owed + 1) pos n (tag :: rest) = some (.badTag, pos) := by
  rw [firstFailure.eq_def]
  simp only [if_pos h]

theorem firstFailure_capacity {tag : Byte} (h : ¬(tag ≠ 0x00 ∧ tag ≠ 0x01)) (owed pos : Nat) (rest : List Byte) :
    firstFailure (owed + 1) pos 511 (tag :: rest) = some (.capacity, pos) := by
  rw [firstFailure.eq_def]
  simp only [if_neg h, if_true]

theorem firstFailure_internal {n : Nat} (h : n ≠ 511) (owed pos : Nat) (rest : List Byte) :
    firstFailure (owed + 1) pos n (0x00 :: rest) = firstFailure (owed + 2) (pos + 1) (n + 1) rest := by
  rw [firstFailure.eq_def]
  simp [h]

theorem firstFailure_leaf {n : Nat} (h : n ≠ 511) (owed pos : Nat) (v : Byte) (rest : List Byte) :
    firstFailure (owed + 1) pos n (0x01 :: v :: rest) = firstFailure owed (pos + 2) (n + 1) rest := by
  rw [firstFailure.eq_def]
  simp [h]

theorem firstFailure_leafCut {n : Nat} (h : n ≠ 511) (owed pos : Nat) :
    firstFailure (owed + 1) pos n [0x01] = some (.truncated, pos + 1) := by
  rw [firstFailure.eq_def]
  simp [h]

/-- R172: the left child of an internal node of a numbered tree directly follows it, the right child follows the left
subtree. -/
theorem numbered_children {t : Tree} (h : t.full = true) {n : Nat} {a : NodeTable} (hn : n + t.size ≤ 511)
    (hs : (numbered t n).StandsIn a) (i : Idx) (h1 : n ≤ i.toNat) (h2 : i.toNat < n + t.size) :
    (nodeAt a i).valid = true ∧
      ((nodeAt a i).leaf = false → (nodeAt a i).left.toNat = i.toNat + 1 ∧
        (nodeAt a i).right.toNat = i.toNat + 1 + (treeOf a (nodeAt a i).left).size) := by
  induction t generalizing n with
  | empty => simp [Tree.full] at h
  | leaf v =>
    simp only [numbered, Shape.StandsIn, Tree.size] at *
    have hm : (BitVec.ofNat 9 n).toNat = n := by simp; omega
    have hi : i = BitVec.ofNat 9 n := BitVec.eq_of_toNat_eq (by omega)
    rw [hi, hs]
    simp
  | fork l r ihl ihr =>
    simp only [Tree.full, Bool.and_eq_true] at h
    simp only [numbered, Shape.StandsIn, Tree.size] at *
    have hm : (BitVec.ofNat 9 n).toNat = n := by simp; omega
    have hl : (BitVec.ofNat 9 (n + 1)).toNat = n + 1 := by simp; omega
    have hr : (BitVec.ofNat 9 (n + 1 + l.size)).toNat = n + 1 + l.size := by simp; omega
    by_cases hi : i = BitVec.ofNat 9 n
    · have ht : treeOf a (numbered l (n + 1)).index = l := by
        have hd := Tree.depth_lt_leaves_of_full h.1
        have hz := Tree.size_of_full h.1
        have he := hs.2.1.treeAt_eq (fuel := walkFuel) (by rw [numbered_tree h.1]; simp only [walkFuel]; omega)
        rwa [numbered_tree h.1] at he
      rw [hi, hs.1]
      simp only [mkInner_valid, mkInner_left, mkInner_right, ht, true_and]
      rw [numbered_index, numbered_index, hl, hr, hm]
      exact fun _ => ⟨rfl, rfl⟩
    · have hne : i.toNat ≠ n := fun e => hi (BitVec.eq_of_toNat_eq (by omega))
      by_cases hlt : i.toNat < n + 1 + l.size
      · exact ihl h.1 (by omega) hs.2.1 (by omega) (by omega)
      · exact ihr h.2 (by omega) hs.2.2 (by omega) (by omega)

/-- What a parse from `p` that ended in `q` with index `i` has done, if it recorded no error. -/
structure Parsed (p q : Parsing) (i : Idx) (t : Tree) : Prop where
  full : t.full = true
  bytes : p.rest = t.ser ++ q.rest
  pos : q.pos = p.pos + t.ser.length
  next : q.next = p.next + t.size
  fits : q.next ≤ 511
  index : i = BitVec.ofNat 9 p.next
  stands : (numbered t p.next).StandsIn q.node
  others : ∀ j : Idx, j.toNat < p.next ∨ q.next ≤ j.toNat → nodeAt q.node j = nodeAt p.node j
  zero : ∀ j : Idx, p.next ≤ j.toNat → j.toNat < q.next → (nodeAt q.node j).freq = 0

/-- R166, R167: one call of `parse()` either reports the first failure, or has read exactly one tree. -/
theorem parseNode_spec (fuel : Nat) (p : Parsing) (hf : p.rest.length < fuel) (he : p.err = none)
    (hn : p.next ≤ 511) :
    (∀ e, (parseNode fuel p).1.err = some e → ∀ owed, firstFailure (owed + 1) p.pos p.next p.rest = some e) ∧
      ((parseNode fuel p).1.err = none →
        ∃ t, Parsed p (parseNode fuel p).1 (parseNode fuel p).2 t ∧
          ∀ owed, firstFailure (owed + 1) p.pos p.next p.rest =
            firstFailure owed (parseNode fuel p).1.pos (parseNode fuel p).1.next (parseNode fuel p).1.rest) := by
  induction fuel generalizing p with
  | zero => omega
  | succ fuel ih =>
    have he' : p.err.isSome = false := by simp [he]
    rw [parseNode]
    simp only [he', Bool.false_eq_true, if_false]
    cases hr : p.rest with
    | nil =>
      simp only [Parsing.failed, Option.some.injEq, reduceCtorEq, false_implies, and_true]
      rintro e rfl owed
      simp [firstFailure]
    | cons tag rest =>
      simp only
      by_cases htag : tag ≠ Config.tagInternal ∧ tag ≠ Config.tagLeaf
      · rw [if_pos htag]
        simp only [Parsing.failed, Option.some.injEq, reduceCtorEq, false_implies, and_true]
        rintro e rfl owed
        exact firstFailure_badTag htag owed _ _ _
      · rw [if_neg htag]
        have htag' : ¬(tag ≠ 0x00 ∧ tag ≠ 0x01) := htag
        by_cases hcap : p.next = Config.nodeCap
        · rw [if_pos hcap]
          simp only [Parsing.failed, Option.some.injEq, reduceCtorEq, false_implies, and_true]
          rintro e rfl owed
          rw [hcap]
          exact firstFailure_capacity htag' owed _ _
        · rw [if_neg hcap]
          have hcap' : p.next < 511 := by simp only [Config.nodeCap] at hcap; omega
          have hidx : (BitVec.ofNat 9 p.next).toNat = p.next := by simp; omega
          have hnil : BitVec.ofNat 9 p.next ≠ NIL := fun e => by
            have := congrArg BitVec.toNat e
            rw [hidx, NIL_toNat] at this
            omega
          by_cases hleaf : tag = Config.tagLeaf
          · subst hleaf
            simp only [if_true]
            cases rest with
            | nil =>
              simp only [Parsing.failed, Option.some.injEq, reduceCtorEq, false_implies, and_true]
              rintro e rfl owed
              exact firstFailure_leafCut (by omega) owed _
            | cons v rest' =>
              simp only
              refine ⟨fun e h => by simp [he] at h, fun _ => ⟨.leaf v, ⟨rfl, ?_, ?_, ?_, ?_, rfl, ?_, ?_, ?_⟩, ?_⟩⟩
              · simp [hr, Tree.ser, Config.tagLeaf]
              · simp [Tree.ser]
              · simp [Tree.size]
              · simp; omega
              · simp only [numbered, Shape.StandsIn]
                rw [nodeAt_setNode_same _ _ hnil]
                rfl
              · intro j hj
                apply nodeAt_setNode_ne
                rintro rfl
                simp only [hidx] at hj
                omega
              · intro j h1 h2
                have hj : j = BitVec.ofNat 9 p.next := BitVec.eq_of_toNat_eq (by rw [hidx]; simp only at h2; omega)
                rw [hj, nodeAt_setNode_same _ _ hnil]
                rfl
              · intro owed
                exact firstFailure_leaf (by omega) owed _ _ _
          · rw [if_neg hleaf]
            have htag0 : tag = 0 := by
              by_contra h
              exact htag ⟨h, hleaf⟩
            set q : Parsing := { p with rest := rest, pos := p.pos + 1, next := p.next + 1 } with hq
            have hlen : rest.length < fuel := by rw [hr] at hf; simp at hf; omega
            have hstep : ∀ owed, firstFailure (owed + 1) p.pos p.next (tag :: rest) =
                firstFailure (owed + 2) q.pos q.next q.rest := by
              intro owed
              rw [htag0]
              exact firstFailure_internal (by omega) owed _ _
            have hl := ih q (by simpa [hq] using hlen) he (by simp [hq]; omega)
            cases hle : (parseNode fuel q).1.err with
            | some e =>
              have hrr : parseNode fuel (parseNode fuel q).1 = ((parseNode fuel q).1, NIL) := by
                cases fuel with
                | zero => rfl
                | succ f =>
                  have : (parseNode (f + 1) q).1.err.isSome = true := by simp [hle]
                  rw [parseNode.eq_def (f + 1) (parseNode (f + 1) q).1]
                  simp only [this, if_true]
              rw [hrr]
              simp only [hle, Option.isSome_some, if_true, Option.some.injEq, reduceCtorEq, false_implies, and_true]
              rintro e' rfl owed
              rw [hstep]
              exact hl.1 e hle (owed + 1)
            | none =>
              obtain ⟨tl, pl, fl⟩ := hl.2 hle
              have hlen2 : (parseNode fuel q).1.rest.length < fuel := by
                have := congrArg List.length pl.bytes
                simp only [List.length_append] at this
                have h2 : q.rest.length = rest.length := rfl
                omega
              have hr2 := ih (parseNode fuel q).1 hlen2 hle pl.fits
              cases hre : (parseNode fuel (parseNode fuel q).1).1.err with
              | some e =>
                simp only [Option.isSome_some, if_true, hre, Option.some.injEq, reduceCtorEq, false_implies, and_true]
                rintro e' rfl owed
                rw [hstep, fl (owed + 1)]
                exact hr2.1 e hre owed
              | none =>
                obtain ⟨tr, pr, fr⟩ := hr2.2 hre
                simp only [Option.isSome_none, Bool.false_eq_true, if_false, reduceCtorEq, false_implies,
                  implies_true, true_and, forall_const]
                have hqn : q.next = p.next + 1 := rfl
                have hsz := pl.next
                have hsz2 := pr.next
                have hfit := pr.fits
                refine ⟨.fork tl tr, ⟨by simp [Tree.full, pl.full, pr.full], ?_, ?_, ?_, hfit, rfl, ?_, ?_, ?_⟩, ?_⟩
                · have h1 : rest = tl.ser ++ (parseNode fuel q).1.rest := pl.bytes
                  rw [hr, htag0, h1, pr.bytes]
                  simp [Tree.ser]
                · have h1 := pr.pos
                  have h2 := pl.pos
                  have h3 : q.pos = p.pos + 1 := rfl
                  simp only [Tree.ser, List.length_cons, List.length_append]
                  omega
                · simp only [Tree.size]
                  omega
                · have hli : (parseNode fuel q).2 = (numbered tl (p.next + 1)).index := by
                    rw [numbered_index, pl.index]
                  have hri : (parseNode fuel (parseNode fuel q).1).2 = (numbered tr (p.next + 1 + tl.size)).index := by
                    rw [numbered_index, pr.index, pl.next]
                  have hlow : ∀ i : Idx, p.next + 1 ≤ i.toNat → i ≠ BitVec.ofNat 9 p.next := by
                    rintro i hi rfl
                    omega
                  simp only [numbered, Shape.StandsIn]
                  refine ⟨?_, ?_, ?_⟩
                  · rw [nodeAt_setNode_same _ _ hnil, hli, hri]
                    rfl
                  · refine numbered_standsIn_congr pl.full (by omega) pl.stands (fun i h1 h2 => ?_)
                    rw [nodeAt_setNode_ne _ _ (hlow i (by omega))]
                    exact pr.others i (.inl (by omega))
                  · have hst := pr.stands
                    rw [hsz, hqn] at hst
                    refine numbered_standsIn_congr pr.full (by omega) hst (fun i h1 h2 => ?_)
                    rw [nodeAt_setNode_ne _ _ (hlow i (by omega))]
                · intro j hj
                  have hjn : j ≠ BitVec.ofNat 9 p.next := by
                    rintro rfl
                    simp only [hidx] at hj
                    omega
                  simp only at hj ⊢
                  rw [nodeAt_setNode_ne _ _ hjn, pr.others j (by omega), pl.others j (by omega)]
                · intro j h1 h2
                  simp only at h2 ⊢
                  by_cases hj : j = BitVec.ofNat 9 p.next
                  · rw [hj, nodeAt_setNode_same _ _ hnil]
                    rfl
                  · rw [nodeAt_setNode_ne _ _ hj]
                    have hne : j.toNat ≠ p.next := fun e => hj (BitVec.eq_of_toNat_eq (by rw [hidx, e]))
                    by_cases hlt : (parseNode fuel q).1.next ≤ j.toNat
                    · exact pr.zero j hlt h2
                    · rw [pr.others j (.inl (by omega))]
                      exact pl.zero j (by omega) (by omega)
                · intro owed
                  rw [hstep, fl (owed + 1), fr owed]

/-- R97: reading `ser(T)` byte by byte takes one owed subtree off. -/
theorem firstFailure_ser {t : Tree} (h : t.full = true) (owed pos n : Nat) (rest : List Byte)
    (hn : n + t.size ≤ 511) :
    firstFailure (owed + 1) pos n (t.ser ++ rest) = firstFailure owed (pos + t.ser.length) (n + t.size) rest := by
  induction t generalizing owed pos n rest with
  | empty => simp [Tree.full] at h
  | leaf v =>
    have : n ≠ 511 := by simp only [Tree.size] at hn; omega
    exact firstFailure_leaf this owed pos v rest
  | fork l r ihl ihr =>
    simp only [Tree.full, Bool.and_eq_true] at h
    simp only [Tree.size] at hn
    have hn0 : n ≠ 511 := by omega
    have h1 := ihl h.1 (owed + 1) (pos + 1) (n + 1) (r.ser ++ rest) (by omega)
    have h2 := ihr h.2 owed (pos + 1 + l.ser.length) (n + 1 + l.size) rest (by omega)
    rw [h2] at h1
    simp only [Tree.ser, List.cons_append, List.append_assoc, Tree.size, List.length_cons, List.length_append]
    rw [firstFailure_internal hn0, h1]
    congr 1 <;> omega

/-- R171: "one byte sequence per tree", also when something follows. -/
theorem ser_append_inj {t u : Tree} (ht : t.full = true) (hu : u.full = true) {a b : List Byte}
    (h : t.ser ++ a = u.ser ++ b) : t = u ∧ a = b := by
  induction t generalizing u a b with
  | empty => simp [Tree.full] at ht
  | leaf v =>
    cases u with
    | empty => simp [Tree.full] at hu
    | leaf w => simp [Tree.ser] at h; simp [h]
    | fork l r => simp [Tree.ser] at h
  | fork l r ihl ihr =>
    cases u with
    | empty => simp [Tree.full] at hu
    | leaf w => simp [Tree.ser] at h
    | fork l' r' =>
      simp only [Tree.full, Bool.and_eq_true] at ht hu
      simp only [Tree.ser, List.cons_append, List.append_assoc, List.cons.injEq, true_and] at h
      obtain ⟨rfl, h2⟩ := ihl ht.1 hu.1 h
      obtain ⟨rfl, h3⟩ := ihr ht.2 hu.2 h2
      exact ⟨rfl, h3⟩

/-- What a successful parse of nonzero length leaves. -/
structure ParsedWhole (inp : List Byte) (t : TreeTable) (tr : Tree) : Prop where
  full : tr.full = true
  bytes : inp = tr.ser
  size : tr.size ≤ 511
  root : t.root = 0
  nnodes : t.nnodes.toNat = tr.size
  stands : (numbered tr 0).StandsIn t.node
  others : ∀ j : Idx, tr.size ≤ j.toNat → nodeAt t.node j = Node.invalid
  zero : ∀ j : Idx, (nodeAt t.node j).freq = 0

/-- R166 to R168: the parser fails with the first failure, or the bytes are the serialized form of the tree it built. -/
theorem parseTree_spec (inp : List Byte) (h : inp ≠ []) :
    (∀ e, parseTree inp = .error e → firstFailure 1 0 0 inp = some e) ∧
      ∀ t, parseTree inp = .ok t → firstFailure 1 0 0 inp = none ∧ ∃ tr, ParsedWhole inp t tr := by
  have hemp : inp.isEmpty = false := by simpa using h
  have hp := parseNode_spec (inp.length + 1) (Parsing.start inp) (by simp [Parsing.start]) rfl (by simp [Parsing.start])
  unfold parseTree
  simp only [hemp, Bool.false_eq_true, if_false]
  cases he : (parseNode (inp.length + 1) (Parsing.start inp)).1.err with
  | some e =>
    simp only [Except.error.injEq, reduceCtorEq, false_implies, implies_true, and_true]
    rintro e' rfl
    exact hp.1 e he 0
  | none =>
    obtain ⟨tr, pd, ff⟩ := hp.2 he
    have hb : inp = tr.ser ++ (parseNode (inp.length + 1) (Parsing.start inp)).1.rest := pd.bytes
    have hpos := pd.pos
    have hnext := pd.next
    have hfit := pd.fits
    have hstart : (Parsing.start inp).pos = 0 := rfl
    have hstart2 : (Parsing.start inp).next = 0 := rfl
    have hf := ff 0
    simp only [Parsing.start] at hf
    have hlen := congrArg List.length hb
    simp only [List.length_append] at hlen
    simp only
    split
    · next hne =>
      simp only [Except.error.injEq, reduceCtorEq, false_implies, implies_true, and_true]
      rintro e rfl
      have : (parseNode (inp.length + 1) (Parsing.start inp)).1.rest ≠ [] := by
        intro hnil
        rw [hnil] at hlen
        simp only [List.length_nil] at hlen
        omega
      simp only [Parsing.start] at this ⊢
      rw [hf]
      cases hrest : (parseNode (inp.length + 1) { rest := inp, pos := 0, next := 0, node := noNodes, err := none }).1.rest with
      | nil => exact absurd hrest this
      | cons b bs => simp [firstFailure]
    · next heq =>
      have hrest : (parseNode (inp.length + 1) (Parsing.start inp)).1.rest = [] := by
        apply List.eq_nil_of_length_eq_zero
        simp only [ne_eq, not_not] at heq
        omega
      refine ⟨fun e h => by simp at h, ?_⟩
      intro t ht
      simp only [Except.ok.injEq] at ht
      subst ht
      refine ⟨?_, tr, pd.full, ?_, ?_, ?_, ?_, pd.stands, ?_, ?_⟩
      · have hrest' := hrest
        simp only [Parsing.start] at hrest'
        rw [hf, hrest']
        rfl
      · rw [hrest, List.append_nil] at hb
        exact hb
      · omega
      · rw [pd.index]; rfl
      · simp only [BitVec.toNat_ofNat]
        omega
      · intro j hj
        rw [pd.others j (.inr (by omega))]
        simp [Parsing.start]
      · intro j
        by_cases hj : j.toNat < (parseNode (inp.length + 1) (Parsing.start inp)).1.next
        · exact pd.zero j (by omega) hj
        · have h1 := pd.others j (.inr (by omega))
          simp only at h1 ⊢
          rw [h1]
          simp [Parsing.start, Node.invalid]

/-- R171, R172: the serialized form of a full tree that fits is accepted, and gives that tree. -/
theorem parseTree_ser {tr : Tree} (h : tr.full = true) (hs : tr.size ≤ 511) :
    ∃ t, parseTree tr.ser = .ok t ∧ ParsedWhole tr.ser t tr := by
  have hne : tr.ser ≠ [] := by cases tr <;> simp [Tree.ser, Tree.full] at *
  have hsp := parseTree_spec tr.ser hne
  have hnone : firstFailure 1 0 0 tr.ser = none := by
    have := firstFailure_ser h 0 0 0 [] (by omega)
    simpa [firstFailure] using this
  cases hp : parseTree tr.ser with
  | error e =>
    have := hsp.1 e hp
    rw [hnone] at this
    simp at this
  | ok t =>
    obtain ⟨-, tr', hw⟩ := hsp.2 t hp
    obtain ⟨rfl, -⟩ := ser_append_inj (a := []) (b := []) h hw.full (by simpa using hw.bytes)
    exact ⟨t, rfl, hw⟩

theorem parseTree_nil : parseTree [] = .ok TreeTable.none := rfl

/-- R33 after DESER: the table holds the tree. -/
theorem ParsedWhole.treeStands {inp : List Byte} {t : TreeTable} {tr : Tree} (h : ParsedWhole inp t tr) :
    TreeStands t.node t.root t.nnodes := by
  have hi := numbered_indices h.full 0
  refine .inr ⟨numbered tr 0, ?_, h.stands, ?_, ?_, ?_⟩
  · rw [numbered_index, h.root]; rfl
  · rw [hi, List.nodup_map_iff_inj_on (List.nodup_range')]
    intro x hx y hy hxy
    have := h.size
    simp only [List.mem_range'_1] at hx hy
    have := congrArg BitVec.toNat hxy
    simp only [BitVec.toNat_ofNat] at this
    omega
  · rw [hi, h.nnodes]; simp
  · intro i hi2
    apply h.others
    rw [hi] at hi2
    by_contra hlt
    apply hi2
    refine List.mem_map.mpr ⟨i.toNat, ?_, by simp⟩
    simp only [List.mem_range'_1]
    omega

theorem ParsedWhole.treeOf_eq {inp : List Byte} {t : TreeTable} {tr : Tree} (h : ParsedWhole inp t tr) :
    treeOf t.node t.root = tr := by
  have h1 := Tree.size_of_full h.full
  have h2 := Tree.depth_lt_leaves_of_full h.full
  have h3 := h.size
  have h4 := h.stands.treeAt_eq (fuel := walkFuel) (by rw [numbered_tree h.full]; simp [walkFuel]; omega)
  rw [numbered_tree h.full, numbered_index] at h4
  rw [treeOf, h.root]
  exact h4

/-- R211: every failure of the parser is of class MALFORMED_TREE. -/
theorem firstFailure_code {owed pos nodes : Nat} {bs : List Byte} {c : ErrCause × Nat}
    (h : firstFailure owed pos nodes bs = some c) : c.1.code = 2 := by
  induction bs using List.twoStepInduction generalizing owed pos nodes with
  | nil =>
    cases owed with
    | zero => simp [firstFailure] at h
    | succ owed => simp [firstFailure] at h; rw [← h]; rfl
  | singleton tag =>
    cases owed with
    | zero => simp [firstFailure] at h; rw [← h]; rfl
    | succ owed =>
      simp only [firstFailure] at h
      split at h
      · cases h; rfl
      · split at h
        · cases h; rfl
        · split at h <;> cases h <;> rfl
  | cons_cons tag v rest ih1 ih2 =>
    cases owed with
    | zero => simp [firstFailure] at h; rw [← h]; rfl
    | succ owed =>
      rw [firstFailure] at h
      split at h
      · cases h; rfl
      · split at h
        · cases h; rfl
        · split at h
          · exact ih2 v h
          · exact ih1 h

theorem parseTree_error_code {inp : List Byte} {e : ErrCause × Nat} (h : parseTree inp = .error e) : e.1.code = 2 := by
  by_cases hn : inp = []
  · subst hn
    rw [parseTree_nil] at h
    cases h
  · exact firstFailure_code ((parseTree_spec inp hn).1 e h)

end Sys2Proof.Machine
end

