-- ==== Sys2Proof/Laws/Commands.lean ====
section
/-! SUPPORT. What each command leaves when it is accepted, fed and drained, in terms of the functions its body is made
of. -/

namespace Sys2Proof.Machine

theorem exec_hist {s : State} (h : Ready s) (hc : s.total.toNat + s.len.toNat < 2 ^ 64)
    (hl : s.len.toNat ≤ s.inq.length) :
    exec .hist s = .next
      { s with
        curCmd := encode .hist, lenL := s.len, countL := s.count, outCount := 0, busy := false, done := true, got := [],
        sent := 0, freq := countBytes s.freq (s.inq.take s.len.toNat), total := s.total + s.len,
        inq := s.inq.drop s.len.toNat } := by
  rw [exec_completes (i := .hist) h (fun _ => hc) hl (.inl rfl)]
  simp [body, histBody, Body.complete, inputLen, hasLen, State.accept]

theorem exec_build {s : State} (h : Ready s) :
    exec .build s = .next
      { s with
        curCmd := encode .build, lenL := s.len, countL := s.count, outCount := 0, busy := false, done := true, got := [],
        sent := 0, node := (buildTree s.freq).node, root := (buildTree s.freq).root,
        nnodes := (buildTree s.freq).nnodes, code := noCodes } := by
  rw [exec_completes (i := .build) h (by simp) (Nat.zero_le _) (.inl rfl)]
  simp [body, buildBody, Body.complete, inputLen, hasLen, State.accept, State.withTree]

theorem exec_gencode {s : State} (h : Ready s) :
    exec .gencode s = .next
      { s with
        curCmd := encode .gencode, lenL := s.len, countL := s.count, outCount := 0, busy := false, done := true,
        got := [], sent := 0, code := genCodes s.node s.root } := by
  rw [exec_completes (i := .gencode) h (by simp) (Nat.zero_le _) (.inl rfl)]
  simp [body, gencodeBody, Body.complete, inputLen, hasLen, State.accept]

theorem exec_pack {s : State} (h : Ready s) (hl : s.len.toNat ≤ s.inq.length)
    (ho : OutTakes s (packRun s.code (s.inq.take s.len.toNat)).flushed.length) :
    exec .pack s = .next
      (Body.complete
        { after := { s with
            curCmd := encode .pack, lenL := s.len, countL := s.count, done := false, inq := s.inq.drop s.len.toNat,
            outq := s.outq ++ (packRun s.code (s.inq.take s.len.toNat)).flushed },
          out := (packRun s.code (s.inq.take s.len.toNat)).flushed,
          err := (packRun s.code (s.inq.take s.len.toNat)).error }) := by
  have hi : inputLen .pack s.len = s.len.toNat := rfl
  rw [exec_completes (i := .pack) h (by simp) hl (.inr ho)]
  simp only [hi, body, packBody, Body.complete, State.accept]

theorem exec_unpack {s : State} (h : Ready s) (hl : s.len.toNat ≤ s.inq.length)
    (ho : (unpackRun s.node s.root s.count.toNat (s.inq.take s.len.toNat)).out = [] ∨
      OutTakes s (unpackRun s.node s.root s.count.toNat (s.inq.take s.len.toNat)).out.length) :
    exec .unpack s = .next
      (Body.complete
        { after := { s with
            curCmd := encode .unpack, lenL := s.len, countL := s.count, done := false, inq := s.inq.drop s.len.toNat,
            outq := s.outq ++ (unpackRun s.node s.root s.count.toNat (s.inq.take s.len.toNat)).out },
          out := (unpackRun s.node s.root s.count.toNat (s.inq.take s.len.toNat)).out,
          err := (unpackRun s.node s.root s.count.toNat (s.inq.take s.len.toNat)).error }) := by
  have hi : inputLen .unpack s.len = s.len.toNat := rfl
  rw [exec_completes (i := .unpack) h (by simp) hl ho]
  simp only [hi, body, unpackBody, Body.complete, State.accept]

theorem exec_ser {s : State} (h : Ready s) (ho : OutTakes s s.tree.ser.length) :
    exec .ser s = .next
      { s with
        curCmd := encode .ser, lenL := s.len, countL := s.count, outCount := BitVec.ofNat 64 s.tree.ser.length,
        busy := false, done := true, got := [], sent := 0, outq := s.outq ++ s.tree.ser } := by
  have hs : serialize s.node s.root = s.tree.ser := emitTree_eq_ser s.node walkFuel s.root
  have hb : ∀ inp, (body .ser (s.accept .ser) inp).out = s.tree.ser := fun _ => hs
  rw [exec_completes (i := .ser) h (by simp) (Nat.zero_le _) (.inr (by rw [hb]; exact ho))]
  simp [body, serBody, Body.complete, inputLen, hasLen, State.accept, hs]

theorem exec_deser {s : State} (h : Ready s) (hl : s.len.toNat ≤ s.inq.length) :
    exec .deser s = .next
      (match parseTree (s.inq.take s.len.toNat) with
      | .ok t =>
        { s with
          curCmd := encode .deser, lenL := s.len, countL := s.count, outCount := 0, busy := false, done := true,
          got := [], sent := 0, inq := s.inq.drop s.len.toNat, node := t.node, root := t.root, nnodes := t.nnodes,
          code := noCodes }
      | .error e =>
        { s with
          curCmd := encode .deser, lenL := s.len, countL := s.count, outCount := 0, busy := false, done := false,
          got := [], sent := 0, inq := s.inq.drop s.len.toNat, node := noNodes, root := NIL, nnodes := 0,
          code := noCodes, err := true, errCode := e.1.code, errSub := e.1.sub, errInfo := BitVec.ofNat 64 e.2 }) := by
  have hi : inputLen .deser s.len = s.len.toNat := rfl
  have hout : ∀ (t : State) inp, (body .deser t inp).out = [] := by
    intro t inp
    simp only [body, deserBody]
    split <;> rfl
  rw [exec_completes (i := .deser) h (by simp) hl (.inl (hout _ _))]
  simp only [hi, hout]
  simp only [body, deserBody]
  cases parseTree (s.inq.take s.len.toNat) <;>
    simp [Body.complete, State.accept, State.withTree, State.raise, TreeTable.none]

end Sys2Proof.Machine
end

