-- ==== Sys2Proof/Laws/Turns.lean ====
section
/-! SUPPORT. Everything a turn of the engine can do, said once (`20_memory.md` rules R64, R65, R70; `46_common_semantics.md`
rule R206): either the running command has made progress through the queues and nothing else has changed, or it has also
completed. -/

namespace Sys2Proof.Machine

theorem available_prefix (i : Instr) {s t : State} {more : List Byte} (hg : t.got = s.got ++ more) (hl : t.lenL = s.lenL)
    (hle : t.got.length ≤ inputLen i t.lenL) (hcode : t.code = s.code) (hnode : t.node = s.node) (hroot : t.root = s.root)
    (hcount : t.countL = s.countL) : (available i s).IsPrefix (available i t) := by
  have hlen := congrArg List.length hg
  rw [List.length_append] at hlen
  by_cases h1 : s.got.length = inputLen i s.lenL
  · have hm : more = [] := List.eq_nil_of_length_eq_zero (by rw [hl] at hle; omega)
    rw [hm, List.append_nil] at hg
    rw [available_congr i hg hl hcode hnode hroot hcount]
  · have ha : available i s = streamed i s := by unfold available; rw [if_neg h1]
    rw [ha]
    unfold available
    split
    · next h2 =>
      have h3 := streamed_prefix i s more (by rw [← hl, ← h2, hg, List.length_append])
      rw [← hg, ← (body_congr i t.got hcode hnode hroot hcount).1] at h3
      exact h3
    · exact streamed_mono i hg hl hle hcode hnode hroot hcount

/-- What pops and pushes alone do. -/
structure Progress (s t : State) : Prop where
  same : t = { s with inq := t.inq, outq := t.outq, got := t.got, sent := t.sent, turns := t.turns }
  popped : ∃ xs, t.got = s.got ++ xs ∧ s.inq = xs ++ t.inq
  pushed : ∃ ys, t.outq = s.outq ++ ys ∧ t.sent = s.sent + ys.length
  gotLe : ∀ i, s.running = some i → s.got.length ≤ inputLen i s.lenL → t.got.length ≤ inputLen i s.lenL
  due : ∀ i, s.running = some i → s.got.length ≤ inputLen i s.lenL → s.sent ≤ (available i s).length →
    t.sent ≤ (available i t).length ∧
      t.outq = s.outq ++ ((available i t).drop s.sent).take (t.sent - s.sent)
  fit : QueuesFit s → QueuesFit t

theorem Progress.refl (s : State) : Progress s s :=
  ⟨rfl, ⟨[], by simp⟩, ⟨[], by simp⟩, fun _ _ h => h, fun i _ _ h => ⟨h, by simp⟩, id⟩

theorem Progress.busy {s t : State} (h : Progress s t) : t.busy = s.busy := by rw [h.same]
theorem Progress.curCmd {s t : State} (h : Progress s t) : t.curCmd = s.curCmd := by rw [h.same]
theorem Progress.lenL {s t : State} (h : Progress s t) : t.lenL = s.lenL := by rw [h.same]
theorem Progress.countL {s t : State} (h : Progress s t) : t.countL = s.countL := by rw [h.same]
theorem Progress.code {s t : State} (h : Progress s t) : t.code = s.code := by rw [h.same]
theorem Progress.node {s t : State} (h : Progress s t) : t.node = s.node := by rw [h.same]
theorem Progress.root {s t : State} (h : Progress s t) : t.root = s.root := by rw [h.same]
theorem Progress.running {s t : State} (h : Progress s t) : t.running = s.running :=
  State.running_congr h.busy h.curCmd

theorem Progress.trans {s t u : State} (h : Progress s t) (k : Progress t u) : Progress s u := by
  obtain ⟨xs, hx1, hx2⟩ := h.popped
  obtain ⟨xs', hx1', hx2'⟩ := k.popped
  obtain ⟨ys, hy1, hy2⟩ := h.pushed
  obtain ⟨ys', hy1', hy2'⟩ := k.pushed
  refine ⟨?_, ⟨xs ++ xs', ?_, ?_⟩, ⟨ys ++ ys', ?_, ?_⟩, ?_, ?_, fun hf => k.fit (h.fit hf)⟩
  · rw [k.same, h.same]
  · rw [hx1', hx1, List.append_assoc]
  · rw [hx2, hx2', List.append_assoc]
  · rw [hy1', hy1, List.append_assoc]
  · rw [hy2', hy2, List.length_append]; omega
  · intro i hr hl
    have h1 := k.gotLe i (h.running.trans hr) (by rw [h.lenL]; exact h.gotLe i hr hl)
    rwa [h.lenL] at h1
  · intro i hr hl hs
    obtain ⟨h1, h2⟩ := h.due i hr hl hs
    have hlt := h.gotLe i hr hl
    have hrt := h.running.trans hr
    have hlt' : t.got.length ≤ inputLen i t.lenL := by rw [h.lenL]; exact hlt
    obtain ⟨h3, h4⟩ := k.due i hrt hlt' h1
    have hpre := available_prefix i hx1' k.lenL (by rw [k.lenL]; exact k.gotLe i hrt hlt') k.code k.node k.root k.countL
    refine ⟨h3, ?_⟩
    obtain ⟨z, hz⟩ := hpre
    have e1 : ((available i t).drop s.sent).take (t.sent - s.sent) =
        ((available i u).drop s.sent).take (t.sent - s.sent) := by
      rw [← hz, List.drop_append_of_le_length (by omega), List.take_append_of_le_length (by rw [List.length_drop]; omega)]
    have e2 : (available i u).drop t.sent = ((available i u).drop s.sent).drop (t.sent - s.sent) := by
      rw [List.drop_drop]; congr 1; omega
    have e3 : u.sent - s.sent = (t.sent - s.sent) + (u.sent - t.sent) := by omega
    rw [h4, h2, e1, e2, e3, List.append_assoc, List.take_add]

theorem within_of_shorter {d : Depth} {a b : List Byte} (h : within d a.length = true) (hl : b.length ≤ a.length) :
    within d b.length = true := within_mono hl h

theorem progress_popMany (n : Nat) (s : State) : Progress s (popMany n s) := by
  cases hr : s.running with
  | none => simp only [popMany, hr]; exact Progress.refl s
  | some i =>
    rw [popMany_running hr]
    have hg : ∀ j, s.running = some j → j = i := fun j hj => by rw [hr] at hj; exact (Option.some.inj hj).symm
    have hlen : ∀ k : Nat, (s.inq.take (min k (inputLen i s.lenL - s.got.length))).length ≤
        inputLen i s.lenL - s.got.length := by
      intro k; rw [List.length_take]; omega
    refine ⟨rfl, ⟨_, rfl, (List.take_append_drop _ _).symm⟩, ⟨[], by simp⟩, ?_, ?_, ?_⟩
    · intro j hj hl
      obtain rfl := hg j hj
      have := hlen n
      rw [List.length_append]
      omega
    · intro j hj hl hs
      obtain rfl := hg j hj
      have := hlen n
      have hpre := available_prefix (t := { s with
        got := s.got ++ s.inq.take (min n (inputLen j s.lenL - s.got.length)),
        inq := s.inq.drop (min n (inputLen j s.lenL - s.got.length)) }) j rfl rfl
        (by simp only [List.length_append]; omega) rfl rfl rfl rfl
      refine ⟨hs.trans hpre.length_le, ?_⟩
      simp
    · rintro ⟨h1, h2⟩
      exact ⟨within_of_shorter h1 (by simp), h2⟩

theorem progress_pushMany (n : Nat) (s : State) : Progress s (pushMany n s) := by
  cases hr : s.running with
  | none => simp only [pushMany, hr]; exact Progress.refl s
  | some i =>
    rw [pushMany_running hr]
    have hg : ∀ j, s.running = some j → j = i := fun j hj => by rw [hr] at hj; exact (Option.some.inj hj).symm
    refine ⟨rfl, ⟨[], by simp⟩, ⟨_, rfl, rfl⟩, fun _ _ h => h, ?_, ?_⟩
    · intro j hj hl hs
      obtain rfl := hg j hj
      have hav : ∀ (o : List Byte) (m : Nat), available j { s with outq := o, sent := m } = available j s :=
        fun o m => available_congr j rfl rfl rfl rfl rfl rfl
      have hp := (fittingIn_prefix s.outDepth s.outq.length (((available j s).drop s.sent).take n)).trans
        (List.take_prefix n _)
      generalize fittingIn s.outDepth s.outq.length (((available j s).drop s.sent).take n) = bs at hp
      have hle := hp.length_le
      rw [List.length_drop] at hle
      refine ⟨by rw [hav]; simp only; omega, ?_⟩
      rw [hav]
      simp only [Nat.add_sub_cancel_left]
      rw [← List.prefix_iff_eq_take.mp hp]
    · rintro ⟨h1, h2⟩
      refine ⟨h1, ?_⟩
      simp only [List.length_append]
      exact within_fittingIn _ h2

/-- A command has completed: R206's condition for it held. -/
structure Completes (s t : State) (i : Instr) (u : State) : Prop where
  progress : Progress s u
  running : u.running = some i
  popped : u.got.length = inputLen i u.lenL
  pushed : u.sent = (body i u u.got).out.length
  result : t = (body i u u.got).complete

theorem Completes.idle {s t u : State} {i : Instr} (h : Completes s t i u) : t.running = none :=
  State.running_of_idle (by rw [h.result]; simp)

/-- Pops and pushes, or these and the completion. -/
def Turned (s t : State) : Prop := Progress s t ∨ ∃ i u, Completes s t i u

theorem Turned.trans_progress {s t u : State} (h : Progress s t) (k : Turned t u) : Turned s u := by
  rcases k with k | ⟨i, v, k⟩
  · exact .inl (h.trans k)
  · exact .inr ⟨i, v, h.trans k.progress, k.running, k.popped, k.pushed, k.result⟩

theorem turned_tryComplete (s : State) : Turned s (tryComplete s) := by
  cases hr : s.running with
  | none => simp only [tryComplete, hr]; exact .inl (Progress.refl s)
  | some i =>
    rw [tryComplete_running hr]
    split
    · next h => exact .inr ⟨i, s, Progress.refl s, hr, h.1, h.2, rfl⟩
    · exact .inl (Progress.refl s)

theorem turned_runUntilWaiting (s : State) : Turned s (runUntilWaiting s) := by
  unfold runUntilWaiting
  exact Turned.trans_progress ((progress_popMany _ s).trans (progress_pushMany _ _)) (turned_tryComplete _)

theorem turned_moves (ms : List EngineMove) (s : State) : Turned s (ms.foldl engineMove s) := by
  induction ms generalizing s with
  | nil => exact .inl (Progress.refl s)
  | cons m ms ih =>
    rw [List.foldl_cons]
    cases m with
    | pop => exact Turned.trans_progress (progress_popMany 1 s) (ih _)
    | push => exact Turned.trans_progress (progress_pushMany 1 s) (ih _)
    | complete =>
      rcases turned_tryComplete s with h | ⟨i, u, h⟩
      · exact Turned.trans_progress h (ih _)
      · have he : ms.foldl engineMove (engineMove s .complete) = engineMove s .complete := moves_idle h.idle ms
        rw [he]
        exact .inr ⟨i, u, h⟩

/-- R70, R206: everything an engine turn can do. -/
theorem engineTurn_cases (s : State) : Turned s (engineTurn s) := by
  unfold engineTurn
  split
  · split
    · exact turned_runUntilWaiting s
    · next ms rest _ =>
      have he : ∀ i, available i { s with turns := rest } = available i s :=
        fun i => available_congr i rfl rfl rfl rfl rfl rfl
      refine Turned.trans_progress ?_ (turned_moves ms _)
      refine ⟨rfl, ⟨[], by simp⟩, ⟨[], by simp⟩, fun _ _ h => h, fun i _ _ h => ?_, id⟩
      rw [he]
      exact ⟨h, by simp⟩
  · exact .inl (Progress.refl s)

/-- R64: what has been popped once the whole input has. -/
theorem Progress.popped_all {s u : State} {i : Instr} (p : Progress s u) (h : u.got.length = inputLen i u.lenL) :
    u.got = s.got ++ s.inq.take (inputLen i s.lenL - s.got.length) ∧
      u.inq = s.inq.drop (inputLen i s.lenL - s.got.length) := by
  obtain ⟨xs, h2, h3⟩ := p.popped
  rw [p.lenL, h2, List.length_append] at h
  have : inputLen i s.lenL - s.got.length = xs.length := by omega
  rw [this, h3, h2]
  simp

/-- Moves leave the schedule as it is. -/
theorem moves_turns (ms : List EngineMove) (s : State) : (ms.foldl engineMove s).turns = s.turns := by
  induction ms generalizing s with
  | nil => rfl
  | cons m ms ih =>
    rw [List.foldl_cons, ih]
    cases m with
    | pop => simp only [engineMove, popMany]; split <;> rfl
    | push => simp only [engineMove, pushMany]; split <;> rfl
    | complete =>
      simp only [engineMove, tryComplete]
      split
      · rfl
      · next i _ =>
        split
        · obtain ⟨f, n, t, r, k, d, hb⟩ := body_after i s s.got
          simp [hb]
        · rfl

/-- R42, R206: what no turn touches. -/
theorem engineTurn_untouched (s : State) :
    (engineTurn s).len = s.len ∧ (engineTurn s).count = s.count ∧ (engineTurn s).ieDone = s.ieDone ∧
      (engineTurn s).ieErr = s.ieErr ∧ (engineTurn s).rst = s.rst ∧ (engineTurn s).inDepth = s.inDepth ∧
      (engineTurn s).outDepth = s.outDepth ∧ (engineTurn s).script = s.script ∧ (engineTurn s).resp = s.resp ∧
      (engineTurn s).taken = s.taken ∧ (engineTurn s).draws = s.draws ∧ (engineTurn s).ovr = s.ovr ∧
      (engineTurn s).curCmd = s.curCmd ∧ (engineTurn s).lenL = s.lenL ∧ (engineTurn s).countL = s.countL := by
  rcases engineTurn_cases s with h | ⟨i, u, h⟩
  · rw [h.same]; simp
  · obtain ⟨f, n, t, r, k, d, hb⟩ := body_after i u u.got
    rw [h.result]
    simp only [Body.complete_len, Body.complete_count, Body.complete_ieDone, Body.complete_ieErr, Body.complete_rst,
      Body.complete_inDepth, Body.complete_outDepth, Body.complete_script, Body.complete_resp, Body.complete_taken,
      Body.complete_draws, Body.complete_ovr, Body.complete_curCmd, Body.complete_lenL, Body.complete_countL, hb]
    rw [h.progress.same]
    simp

end Sys2Proof.Machine
end

