-- ==== Sys2Proof/Laws/Steps.lean ====
section
/-! SUPPORT. A step is the host's action followed by the engine's turn (`00_scope.md` rule R17): the action as one function,
and everything it can do to the block, case by case. -/

namespace Sys2Proof.Machine

/-- The state after the host's action and before the engine's turn. -/
def acted (s : State) : State :=
  match fetch s with
  | .command i t => t.present (issue i)
  | .acted t => t

theorem afterAction_idle {s : State} (h : s.busy = false) : afterAction s = s := by
  unfold afterAction
  rw [engineTurn_idle h]
  exact ite_self s

theorem fetch_command {s t : State} {i : Instr} (h : fetch s = .command i t) : t.rst = false := by
  unfold fetch at h
  split at h <;> try simp at h
  next a v rest _ =>
    unfold busWrite at h
    split at h
    · simp at h
    · next hr =>
      simp only [Bool.or_eq_true, not_or, Bool.not_eq_true] at hr
      simp only at h
      split at h
      · split at h
        · simp only [Fetched.command.injEq] at h
          rw [← h.2]
          exact hr.1
        · simp at h
      · simp at h

theorem issue_rst (i : Instr) (s : State) : (s.present (issue i)).rst = s.rst := by
  unfold State.present
  split
  · rcases issue_cases i s with h | ⟨-, -, h⟩ <;> rw [h] <;> simp
  · simp

/-- R17, R62: a step is the action, then the turn. -/
theorem step_eq (s : State) : step s = .next (afterAction (acted s)) := by
  unfold step acted
  cases h : fetch s with
  | acted t => rfl
  | command i t =>
    simp only
    rw [exec_eq, afterAction, issue_rst, fetch_command h]
    rfl

/-- Everything a host action can do, before the engine's turn: to the host's side it may do anything (`resp`, `script`,
`taken`, `draws`), to the block one of these. -/
inductive Action (s : State) : State → Prop where
  /-- No change of the block: a read, a bus error, an ignored write, a wait, an offer or a take that waits. -/
  | quiet (p : List HostAction) (r : BusResp) (n : Nat) :
      Action s { s with script := p, resp := r, draws := n }
  /-- R64: a byte enters IN, which has room. -/
  | push (b : Byte) (p : List HostAction) : s.rst = false → within s.inDepth (s.inq.length + 1) = true →
      Action s { s with script := p, inq := s.inq ++ [b] }
  /-- R65: the head of OUT leaves. -/
  | pop (p : List HostAction) : s.rst = false →
      Action s { s with script := p, outq := s.outq.drop 1, taken := s.taken ++ s.outq.take 1 }
  /-- R22: a CTRL write without SRST. -/
  | ctrl (p : List HostAction) (d e : Bool) : s.rst = false →
      Action s { s with script := p, resp := .written, ieDone := d, ieErr := e }
  /-- R23: DONE is cleared. -/
  | ack (p : List HostAction) : s.rst = false → Action s { s with script := p, resp := .written, done := false }
  /-- R25: LEN. -/
  | len (p : List HostAction) (v : Word) : s.rst = false → Action s { s with script := p, resp := .written, len := v }
  /-- R25: COUNT. -/
  | count (p : List HostAction) (v : Word) : s.rst = false →
      Action s { s with script := p, resp := .written, count := v }
  /-- R217, R242: SRST. -/
  | srst (p : List HostAction) : s.rst = false → resets s = true →
      Action s (State.softReset { s with script := p, resp := .written })
  /-- R241: `rst` goes to 1. -/
  | reset (p : List HostAction) : resets s = true → Action s { s.softReset with script := p, rst := true }
  /-- R241: `rst` goes to 0. -/
  | release (p : List HostAction) : Action s { s with script := p, rst := false }
  /-- R93: a CMD write of a command word. -/
  | command (i : Instr) (p : List HostAction) : s.rst = false →
      Action s (State.present (issue i) { s with script := p, resp := .written })
  /-- R94: a CMD write of another word. -/
  | illegal (v : Word) (p : List HostAction) : s.rst = false →
      Action s (issueIllegal v { s with script := p, resp := .written })

theorem ofOffset_ctrl {off : Nat} (h : Reg.ofOffset off = .ctrl) : off = 0x0008 := by
  by_cases h0 : off = 0x0000
  · rw [h0] at h
    exact absurd h (by decide)
  · by_contra h1
    unfold Reg.ofOffset at h
    rw [if_neg h0, if_neg h1] at h
    clear h0 h1
    iterate 12 (
      rw [ite_eq_iff] at h
      rcases h with ⟨-, h⟩ | ⟨-, h⟩
      · exact Reg.noConfusion h)
    exact Reg.noConfusion h

theorem action_busRead (s : State) (a : Access) (p : List HostAction) : Action s (State.busRead a { s with script := p }) := by
  unfold State.busRead
  split
  · exact .quiet p .busError s.draws
  · exact .quiet p _ _

/-- The action of a step is one of these. -/
theorem acted_action (s : State) : Action s (acted s) := by
  unfold acted fetch
  cases hs : s.script with
  | nil =>
    have := Action.quiet (s := s) [] s.resp s.draws
    rwa [← hs] at this
  | cons act rest =>
    have hself : Action s s := .quiet s.script s.resp s.draws
    cases act with
    | rd a => exact action_busRead s a rest
    | push b =>
      simp only [offerByte]
      split
      · next h =>
        simp only [State.inReady, Bool.and_eq_true, Bool.not_eq_true', roomIn_iff] at h
        exact .push b rest h.1 h.2
      · exact hself
    | pop =>
      simp only [takeByte]
      split
      · next h =>
        simp only [State.outValid, Bool.and_eq_true, Bool.not_eq_true'] at h
        exact .pop rest h.1
      · exact hself
    | wait =>
      simp only [waitIdle]
      have hq : ∀ p, Action s { s.busRead (Access.full 0x0010) with script := p } := by
        intro p
        unfold State.busRead
        split
        · exact .quiet p .busError s.draws
        · exact .quiet p _ _
      have ht : Action s (s.busRead (Access.full 0x0010)) := by
        have := hq (s.busRead (Access.full 0x0010)).script
        exact this
      split
      · split
        · exact ht
        · exact hq rest
      · exact ht
      · exact ht
      · exact ht
    | rst level =>
      cases level with
      | true => exact .reset rest (by simp [resets, hs])
      | false => exact .release rest
    | wr a v =>
      simp only [busWrite]
      by_cases hl : (s.rst || !a.legalWrite) = true
      · rw [if_pos hl]
        exact .quiet rest .busError s.draws
      · rw [if_neg hl]
        simp only [Bool.or_eq_true, Bool.not_eq_true', not_or, Bool.not_eq_true, Bool.not_eq_false] at hl
        by_cases hc : Reg.ofOffset a.off = .cmd
        · rw [if_pos hc]
          cases decode v with
          | ok i => exact .command i rest hl.1
          | error e => exact .illegal v rest hl.1
        · rw [if_neg hc]
          have hq : Action s { s with script := rest, resp := BusResp.written } := .quiet rest .written s.draws
          cases hr : Reg.ofOffset a.off with
          | cmd => exact absurd hr hc
          | ctrl =>
            simp only [State.writeReg, State.writeCtrl]
            split
            · next hv =>
              refine .srst rest hl.1 ?_
              have ho := ofOffset_ctrl hr
              simp [resets, hs, hl.1, hl.2, ho, hv]
            · exact .ctrl rest _ _ hl.1
          | status =>
            simp only [State.writeReg, State.writeStatus]
            split
            · exact .ack rest hl.1
            · exact hq
          | len => exact .len rest v hl.1
          | count => exact .count rest v hl.1
          | id => exact hq
          | outCount => exact hq
          | errInfo => exact hq
          | total => exact hq
          | tree => exact hq
          | freq b => exact hq
          | codeLen b => exact hq
          | codeBits b w => exact hq
          | node i w => exact hq
          | unmapped => exact hq

end Sys2Proof.Machine
end

