-- ==== Sys2Proof/Laws/Driver.lean ====
section
/-! SUPPORT. What the firmware's loop on the block does (`49_firmware_protocol.md` rule R190; `70_reset_and_hazards.md` rules
R253, R258): a command it serves is fed and drained, for any queue capacities and whatever moves the engine is given, so it
ends, and what it leaves is its body's result. -/

namespace Sys2Proof.Machine

/-! ## The parts of a state that a command streams through -/

/-- The block's registers and tables of `s`; the queues, the progress in them and the host side of `h`. -/
def State.withHost (s h : State) : State :=
  { s with
    inq := h.inq, outq := h.outq, got := h.got, sent := h.sent, script := h.script, turns := h.turns, resp := h.resp,
    taken := h.taken, draws := h.draws }

/-- R14: a body's result does not depend on the queues, nor on the host. -/
theorem body_withHost (i : Instr) (s h : State) (inp : List Byte) :
    (body i (s.withHost h) inp).out = (body i s inp).out ∧ (body i (s.withHost h) inp).err = (body i s inp).err ∧
      (body i (s.withHost h) inp).after = (body i s inp).after.withHost h := by
  cases i with
  | deser =>
    simp only [body, deserBody]
    split <;> exact ⟨rfl, rfl, rfl⟩
  | _ => exact ⟨rfl, rfl, rfl⟩

theorem complete_withHost (i : Instr) (s h : State) (inp : List Byte) :
    (body i (s.withHost h) inp).complete = (body i s inp).complete.withHost { h with got := [], sent := 0 } := by
  obtain ⟨h1, h2, h3⟩ := body_withHost i s h inp
  unfold Body.complete
  rw [h1, h2, h3]
  cases (body i s inp).err <;> rfl

theorem Progress.withHost {s t : State} (h : Progress s t) : t = s.withHost t := by
  have h1 := engineTurn_untouched t
  conv_lhs => rw [h.same]
  have e1 : t.script = s.script := by rw [h.same]
  have e2 : t.resp = s.resp := by rw [h.same]
  have e3 : t.taken = s.taken := by rw [h.same]
  have e4 : t.draws = s.draws := by rw [h.same]
  simp only [State.withHost, e1, e2, e3, e4]

/-! ## How far a turn gets -/

/-- A turn uses up its entry of the schedule. -/
theorem engineTurn_turns (s : State) : (engineTurn s).turns = if s.busy then s.turns.drop 1 else s.turns := by
  unfold engineTurn
  split
  · split
    · next h =>
      have hp : ∀ n (u : State), (popMany n u).turns = u.turns := fun n u => by unfold popMany; split <;> rfl
      have hq : ∀ n (u : State), (pushMany n u).turns = u.turns := fun n u => by unfold pushMany; split <;> rfl
      have hc : ∀ u : State, (tryComplete u).turns = u.turns := fun u => moves_turns [.complete] u
      unfold runUntilWaiting
      rw [hc, hq, hp, h]
      rfl
    · next ms rest h =>
      rw [moves_turns, h]
      rfl
  · rfl

/-- A turn that is not cut short gets something done if a byte is there to pop. -/
theorem runUntilWaiting_pops {s : State} {i : Instr} (hr : s.running = some i) (hq : s.inq ≠ [])
    (hg : s.got.length < inputLen i s.lenL) :
    (∃ u, Completes s (runUntilWaiting s) i u) ∨
      (Progress s (runUntilWaiting s) ∧ s.got.length < (runUntilWaiting s).got.length) := by
  have h1 := progress_popMany s.inq.length s
  have hl : s.got.length < (popMany s.inq.length s).got.length := by
    rw [popMany_running hr]
    have := List.length_pos_iff.mpr hq
    simp only [List.length_append, List.length_take]
    omega
  obtain ⟨n, hn⟩ : ∃ n, runUntilWaiting s = tryComplete (pushMany n (popMany s.inq.length s)) := ⟨_, rfl⟩
  have h2 := progress_pushMany n (popMany s.inq.length s)
  rw [hn]
  generalize pushMany n (popMany s.inq.length s) = p at h2
  obtain ⟨xs, hx, -⟩ := h2.popped
  have h3 := h1.trans h2
  have hrp := h3.running.trans hr
  rw [tryComplete_running hrp]
  split
  · next h => exact .inl ⟨p, h3, hrp, h.1, h.2, rfl⟩
  · refine .inr ⟨h3, ?_⟩
    rw [hx, List.length_append]
    omega

/-- The same when all input is popped and OUT is empty. -/
theorem runUntilWaiting_pushes {s : State} {i : Instr} (hr : s.running = some i) (hg : s.got.length = inputLen i s.lenL)
    (ho : s.outq = []) (hs : s.sent ≤ (body i s s.got).out.length) :
    (∃ u, Completes s (runUntilWaiting s) i u) ∨
      (Progress s (runUntilWaiting s) ∧ s.sent < (runUntilWaiting s).sent) := by
  have hp : popMany s.inq.length s = s := by
    rw [popMany_running hr, hg, Nat.sub_self, Nat.min_zero]
    simp
  have hav : available i s = (body i s s.got).out := by unfold available; rw [if_pos hg]
  unfold runUntilWaiting
  rw [hp]
  simp only [hr]
  have h2 := progress_pushMany (available i s).length s
  have hsent : s.sent = (body i s s.got).out.length ∨ s.sent < (pushMany (available i s).length s).sent := by
    rcases Nat.lt_or_ge s.sent (body i s s.got).out.length with hlt | hge
    · right
      have htk : ((available i s).drop s.sent).take (available i s).length = (body i s s.got).out.drop s.sent := by
        rw [hav]
        exact List.take_of_length_le (by rw [List.length_drop]; omega)
      have hb : 0 < ((body i s s.got).out.drop s.sent).length := by
        rw [List.length_drop]
        omega
      rw [pushMany_running hr, htk, ho]
      simp only [List.length_nil]
      generalize (body i s s.got).out.drop s.sent = bs at hb
      cases s.outDepth with
      | unbounded => rw [fittingIn_unbounded]; omega
      | upTo m => rw [fittingIn_upTo, List.length_take]; omega
    · exact .inl (by omega)
  generalize pushMany (available i s).length s = p at h2 hsent
  have hrp := h2.running.trans hr
  rw [tryComplete_running hrp]
  split
  · next h => exact .inl ⟨p, h2, hrp, h.1, h.2, rfl⟩
  · next h =>
    refine .inr ⟨h2, ?_⟩
    rcases hsent with hsent | hsent
    · exfalso
      apply h
      obtain ⟨xs, hx, -⟩ := h2.popped
      obtain ⟨ys, -, hy⟩ := h2.pushed
      have hle := h2.gotLe i hr (by omega)
      have hdue := h2.due i hr (by omega) (by rw [hav]; exact hs)
      have hxs : xs = [] := by
        apply List.eq_nil_of_length_eq_zero
        have := congrArg List.length hx
        rw [List.length_append] at this
        omega
      rw [hxs, List.append_nil] at hx
      have hL : p.lenL = s.lenL := h2.lenL
      have hbo : (body i p p.got).out = (body i s s.got).out := by
        rw [hx]
        exact (body_congr i s.got h2.code h2.node h2.root h2.countL).1
      refine ⟨by rw [hx, hL, hg], ?_⟩
      rw [hbo]
      have : available i p = (body i p p.got).out := by unfold available; rw [if_pos (by rw [hx, hL, hg])]
      rw [this, hbo] at hdue
      omega
    · exact hsent

/-! ## A command while it is served -/

/-- The command `i`, accepted in state `a` with the input `inp`, is on its way in state `t`; `rest` of the input is still with
the firmware. -/
structure Underway (i : Instr) (a : State) (inp rest : List Byte) (t : State) : Prop where
  same : t = a.withHost t
  input : t.got ++ t.inq ++ rest = inp
  due : t.sent ≤ (available i t).length
  output : t.taken ++ t.outq = a.taken ++ (body i a inp).out.take t.sent

/-- The command has completed; some of its output is still in OUT. -/
structure Served (i : Instr) (a : State) (inp rest : List Byte) (t : State) : Prop where
  same : t = (body i a inp).complete.withHost t
  input : t.inq ++ rest = []
  cleared : t.got = [] ∧ t.sent = 0
  output : t.taken ++ t.outq = a.taken ++ (body i a inp).out

/-- One or the other. -/
def Serving (i : Instr) (a : State) (inp rest : List Byte) (t : State) : Prop :=
  Underway i a inp rest t ∨ Served i a inp rest t

/-- How much is left to do. -/
def leftToDo (i : Instr) (a : State) (inp rest : List Byte) (t : State) : Nat :=
  if t.busy then
    rest.length + (inp.length - t.got.length) + t.turns.length + 2 * ((body i a inp).out.length - t.sent) + t.outq.length + 1
  else t.outq.length

theorem body_out_of_same {i : Instr} {a t : State} (h : t = a.withHost t) (b : List Byte) :
    (body i t b).out = (body i a b).out := by
  rw [h]
  exact (body_withHost i a t b).1

/-- What is due is the beginning of the command's output. -/
theorem available_of_same {i : Instr} {a t : State} {inp rest : List Byte} (h : t = a.withHost t)
    (hin : t.got ++ t.inq ++ rest = inp) (hL : inp.length = inputLen i t.lenL) :
    (available i t).IsPrefix (body i a inp).out := by
  have hp := available_prefix (s := t) (t := { t with got := inp }) (more := t.inq ++ rest) i
    (by rw [← List.append_assoc]; exact hin.symm) rfl hL.le rfl rfl rfl rfl
  have he : available i { t with got := inp } = (body i { t with got := inp } inp).out := by
    unfold available
    rw [if_pos hL]
  rw [he, (body_congr (s := t) (t := { t with got := inp }) i inp rfl rfl rfl rfl).1, body_out_of_same h] at hp
  exact hp

/-- R70: a turn of the engine keeps a command underway, or it completes it. -/
theorem Underway.progress {i : Instr} {a t u : State} {inp rest : List Byte} (h : Underway i a inp rest t)
    (hr : t.running = some i) (hL : inp.length = inputLen i t.lenL) (p : Progress t u) : Underway i a inp rest u := by
  obtain ⟨xs, h1, h2⟩ := p.popped
  have hlen := congrArg List.length h.input
  simp only [List.length_append] at hlen
  have hd := p.due i hr (by omega) h.due
  obtain ⟨ys, h3, h4⟩ := p.pushed
  have hin : u.got ++ u.inq ++ rest = inp := by rw [h1, List.append_assoc t.got, ← h2]; exact h.input
  have hsame : u = a.withHost u := by
    conv_lhs => rw [p.withHost, h.same]
    rfl
  have hav := available_of_same hsame hin (by rw [hL]; exact congrArg _ p.lenL.symm)
  refine ⟨hsame, hin, hd.1, ?_⟩
  have ht : u.taken = t.taken := by rw [p.same]
  rw [ht, hd.2, ← List.append_assoc, h.output, List.append_assoc]
  congr 1
  obtain ⟨z, hz⟩ := hav
  have hs : t.sent ≤ u.sent := by omega
  rw [← hz, List.take_append_of_le_length (by omega), List.take_append_of_le_length hd.1]
  conv_rhs => rw [← Nat.add_sub_cancel' hs, List.take_add]

theorem Underway.completes {i : Instr} {a t u v : State} {inp rest : List Byte} (h : Underway i a inp rest t)
    (hr : t.running = some i) (hL : inp.length = inputLen i t.lenL) (c : Completes t u i v) : Served i a inp rest u := by
  have hv := h.progress hr hL c.progress
  have hlen := congrArg List.length hv.input
  have hg := c.popped
  rw [c.progress.lenL, ← hL] at hg
  simp only [List.length_append] at hlen
  have h1 : v.inq = [] := List.eq_nil_of_length_eq_zero (by omega)
  have h2 : rest = [] := List.eq_nil_of_length_eq_zero (by omega)
  have h3 : v.got = inp := by have := hv.input; rwa [h1, h2, List.append_nil, List.append_nil] at this
  have hb := (body_withHost i a v inp).1
  have hres : u = ((body i a inp).complete).withHost { v with got := [], sent := 0 } := by
    rw [c.result, h3]
    conv_lhs => rw [hv.same]
    exact complete_withHost i a v inp
  have hs := c.pushed
  rw [h3, body_out_of_same hv.same] at hs
  refine ⟨?_, ?_, ?_, ?_⟩
  · conv_lhs => rw [hres]
    conv_rhs => rw [hres]
    rfl
  · rw [hres, h2, List.append_nil]; exact h1
  · rw [hres]; exact ⟨rfl, rfl⟩
  · have := hv.output
    rw [hs, List.take_of_length_le (Nat.le_refl _)] at this
    rw [hres]
    exact this

/-- What the host does to the queues between turns keeps a command underway. -/
theorem Underway.hosted {i : Instr} {a t u : State} {inp rest rest' : List Byte} (h : Underway i a inp rest t)
    (hu : u = t.withHost u) (hg : u.got = t.got) (hs : u.sent = t.sent) (hin : u.got ++ u.inq ++ rest' = inp)
    (ho : u.taken ++ u.outq = t.taken ++ t.outq) : Underway i a inp rest' u := by
  refine ⟨?_, hin, ?_, ?_⟩
  · conv_lhs => rw [hu, h.same]
    rfl
  · have : available i u = available i t := by
      rw [hu]
      exact available_congr i hg rfl rfl rfl rfl rfl
    rw [this, hs]
    exact h.due
  · rw [ho, hs]
    exact h.output

theorem Served.hosted {i : Instr} {a t u : State} {inp rest rest' : List Byte} (h : Served i a inp rest t)
    (hu : u = t.withHost u) (hg : u.got = t.got) (hs : u.sent = t.sent) (hin : u.inq ++ rest' = [])
    (ho : u.taken ++ u.outq = t.taken ++ t.outq) : Served i a inp rest' u := by
  refine ⟨?_, hin, ⟨hg.trans h.cleared.1, hs.trans h.cleared.2⟩, ho.trans h.output⟩
  conv_lhs => rw [hu, h.same]
  rfl

theorem Served.idle {i : Instr} {a t : State} {inp rest : List Byte} (h : Served i a inp rest t) : t.busy = false := by
  rw [h.same]
  exact Body.complete_busy _

theorem Underway.output_le {i : Instr} {a t : State} {inp rest : List Byte} (h : Underway i a inp rest t)
    (hL : inp.length = inputLen i t.lenL) : t.sent ≤ (body i a inp).out.length ∧ t.got.length ≤ inp.length := by
  have hlen := congrArg List.length h.input
  simp only [List.length_append] at hlen
  exact ⟨h.due.trans (available_of_same h.same h.input hL).length_le, by omega⟩

/-- Any turn keeps the command served, and leaves no more to do than there was. -/
theorem Underway.turn {i : Instr} {a t : State} {inp rest : List Byte} (h : Underway i a inp rest t)
    (hr : t.running = some i) (hL : inp.length = inputLen i t.lenL) :
    Serving i a inp rest (engineTurn t) ∧ leftToDo i a inp rest (engineTurn t) ≤ leftToDo i a inp rest t ∧
      (t.turns ≠ [] → leftToDo i a inp rest (engineTurn t) < leftToDo i a inp rest t) ∧
      (Progress t (engineTurn t) → t.got.length < (engineTurn t).got.length ∨ t.sent < (engineTurn t).sent →
        leftToDo i a inp rest (engineTurn t) < leftToDo i a inp rest t) ∧
      ((∃ u, Completes t (engineTurn t) i u) → leftToDo i a inp rest (engineTurn t) < leftToDo i a inp rest t) := by
  have hb := State.busy_of_running hr
  have ht := engineTurn_turns t
  rw [if_pos hb] at ht
  have htl : (engineTurn t).turns.length = t.turns.length - 1 := by rw [ht, List.length_drop]
  have hc : ∀ u, Completes t (engineTurn t) i u →
      Served i a inp rest (engineTurn t) ∧ leftToDo i a inp rest (engineTurn t) < leftToDo i a inp rest t := by
    intro u c
    have hs := h.completes hr hL c
    refine ⟨hs, ?_⟩
    unfold leftToDo
    rw [if_pos hb, hs.idle]
    simp only [Bool.false_eq_true, if_false]
    obtain ⟨ys, h1, h2⟩ := c.progress.pushed
    have hu := h.progress hr hL c.progress
    have h3 := (hu.output_le (by rw [hL]; exact congrArg _ c.progress.lenL.symm)).1
    have h4 : (engineTurn t).outq = u.outq := by
      obtain ⟨f, n, tt, r, k, d, hb⟩ := body_after i u u.got
      rw [c.result, Body.complete_outq, hb]
    rw [h4, h1, List.length_append]
    omega
  have hp : Progress t (engineTurn t) → Underway i a inp rest (engineTurn t) ∧
      leftToDo i a inp rest (engineTurn t) ≤ leftToDo i a inp rest t ∧
      (t.turns ≠ [] ∨ t.got.length < (engineTurn t).got.length ∨ t.sent < (engineTurn t).sent →
        leftToDo i a inp rest (engineTurn t) < leftToDo i a inp rest t) := by
    intro p
    have hu := h.progress hr hL p
    have hle := hu.output_le (by rw [hL]; exact congrArg _ p.lenL.symm)
    obtain ⟨xs, h1, -⟩ := p.popped
    obtain ⟨ys, h3, h4⟩ := p.pushed
    have e1 := congrArg List.length h1
    have e3 := congrArg List.length h3
    rw [List.length_append] at e1 e3
    unfold leftToDo
    rw [if_pos hb, if_pos (by rw [p.busy, hb])]
    refine ⟨hu, by omega, fun hx => ?_⟩
    have : t.turns ≠ [] → 0 < t.turns.length := List.length_pos_iff.mpr
    rcases hx with hx | hx | hx
    · have := this hx
      omega
    · omega
    · omega
  rcases engineTurn_cases t with p | ⟨j, u, c⟩
  · obtain ⟨h1, h2, h3⟩ := hp p
    exact ⟨.inl h1, h2, fun hx => h3 (.inl hx), fun _ hx => h3 (.inr hx), fun ⟨u, c⟩ => (hc u c).2⟩
  · have hj : j = i := by
      have := c.running
      rw [c.progress.running, hr] at this
      exact (Option.some.inj this).symm
    subst hj
    obtain ⟨h1, h2⟩ := hc u c
    exact ⟨.inr h1, h2.le, fun _ => h2, fun _ _ => h2, fun _ => h2⟩

/-- With an empty schedule, OUT drained and nothing left to push, a turn gets something done. -/
theorem Underway.stirs {i : Instr} {a t : State} {inp rest : List Byte} (h : Underway i a inp rest t)
    (hr : t.running = some i) (hL : inp.length = inputLen i t.lenL) (hin : rest = [] ∨ t.inq ≠ []) (ho : t.outq = []) :
    leftToDo i a inp rest (engineTurn t) < leftToDo i a inp rest t := by
  obtain ⟨-, -, h1, h2, h3⟩ := h.turn hr hL
  by_cases ht : t.turns = []
  · have he : engineTurn t = runUntilWaiting t := by
      unfold engineTurn
      rw [if_pos (State.busy_of_running hr), ht]
    have hlen := congrArg List.length h.input
    simp only [List.length_append] at hlen
    rw [he] at h2 h3 ⊢
    by_cases hq : t.inq = []
    · have hrest : rest = [] := hin.resolve_right (fun hn => hn hq)
      have hg : t.got = inp := by have := h.input; rwa [hq, hrest, List.append_nil, List.append_nil] at this
      rcases runUntilWaiting_pushes hr (by rw [hg, hL]) ho
        (by rw [hg, body_out_of_same h.same]; exact (h.output_le hL).1) with hx | ⟨p, hx⟩
      · exact h3 hx
      · exact h2 p (.inr hx)
    · have hq' := List.length_pos_iff.mpr hq
      rcases runUntilWaiting_pops hr hq (by omega) with hx | ⟨p, hx⟩
      · exact h3 hx
      · exact h2 p (.inl hx)
  · exact h1 ht

/-! ## The firmware's actions -/

namespace Driver

theorem act_eq (a : HostAction) (s : State) : act a s = afterAction (acted { s with script := [a] }) := by
  unfold act
  rw [step_eq]

theorem act_push {s : State} (b : Byte) (h : s.inReady = true) :
    act (.push b) s = engineTurn { s with script := [], inq := s.inq ++ [b] } := by
  have hr : s.rst = false := by
    simp only [State.inReady, Bool.and_eq_true, Bool.not_eq_true'] at h
    exact h.1
  have hi : State.inReady { s with script := [HostAction.push b] } = true := h
  rw [act_eq]
  simp only [acted, fetch, offerByte, hi, if_true, afterAction]
  rw [if_neg (by simp [State.pushIn, hr])]
  rfl

theorem act_pop {s : State} (h : s.outValid = true) :
    act .pop s = engineTurn { s with script := [], outq := s.outq.drop 1, taken := s.taken ++ s.outq.take 1 } := by
  have hr : s.rst = false := by
    simp only [State.outValid, Bool.and_eq_true, Bool.not_eq_true'] at h
    exact h.1
  have hi : State.outValid { s with script := [HostAction.pop] } = true := h
  rw [act_eq]
  simp only [acted, fetch, takeByte, hi, if_true, afterAction]
  rw [if_neg (by simp [State.popOut, hr])]
  rfl

/-- A legal read: the register's value, then the engine's turn. -/
theorem act_rd {s : State} (off : Nat) (hr : s.rst = false) (h8 : off % 8 = 0) (hle : off ≤ 0x7FF8) :
    act (.rd (Access.full off)) s = engineTurn
      { s with
        script := [], resp := .data (s.readValue (Reg.ofOffset off)),
        draws := if s.readDraws (Reg.ofOffset off) then s.draws + 1 else s.draws } := by
  have hl : (Access.full off).legalRead = true := by simp [Access.legalRead, Access.full, h8, hle]
  rw [act_eq]
  simp only [acted, fetch, State.busRead, hr, hl, Bool.not_true, Bool.or_self, Bool.false_eq_true, if_false, afterAction]
  rfl

theorem readData_engineTurn (s : State) : readData (engineTurn s) = readData s := by
  unfold readData
  rw [(engineTurn_untouched s).2.2.2.2.2.2.2.2.1]

/-- R23, R61: bit 0 of a STATUS read is BUSY, exact also while BUSY. -/
theorem readValue_status_busy (s : State) : (s.readValue .status).getLsbD 0 = s.busy := by
  have h : ∀ e g, (statusWith s e g).getLsbD 0 = s.busy := by
    intro e g
    exact (BitVec.getLsbD_append (n := 63) (m := 1)).trans (by simp)
  unfold State.readValue
  split
  · exact h _ _
  · exact h _ _

/-! ## Serving a command to its end -/

theorem inq_ne_nil_of_not_ready {s : State} (hr : s.rst = false) (h : ¬s.inReady = true) : s.inq ≠ [] := by
  intro he
  apply h
  unfold State.inReady
  rw [hr, he]
  cases s.inDepth <;> simp [roomIn]

theorem outq_nil_of_not_valid {s : State} (hr : s.rst = false) (h : ¬s.outValid = true) : s.outq = [] := by
  simp only [State.outValid, hr, Bool.not_false, Bool.true_and, Bool.not_eq_true', Bool.not_eq_false] at h
  simpa using h

/-- More actions than are needed change nothing. -/
theorem serve_mono {fuel more : Nat} {rest : List Byte} {t : State} {r : State × Word} (h : serve fuel rest t = some r)
    (hm : fuel ≤ more) : serve more rest t = some r := by
  induction fuel generalizing more rest t with
  | zero => cases h
  | succ fuel ih =>
    obtain ⟨more, rfl⟩ : ∃ m, more = m + 1 := ⟨more - 1, by omega⟩
    have hm' : fuel ≤ more := by omega
    unfold serve at h ⊢
    split
    · next hp =>
      rw [if_pos hp] at h
      exact ih h hm'
    · next hp =>
      rw [if_neg hp] at h
      split
      · next hv =>
        rw [if_pos hv] at h
        exact ih h hm'
      · next hv =>
        rw [if_neg hv] at h
        simp only at h ⊢
        cases hd : readData (act (.rd (Access.full 0x010)) t) with
        | none => rw [hd] at h; cases h
        | some v =>
          rw [hd] at h
          simp only at h ⊢
          split
          · next hb =>
            rw [if_pos hb] at h
            exact ih h hm'
          · next hb =>
            rw [if_neg hb] at h
            exact h

/-- The firmware's loop ends, with the command completed and OUT drained. -/
theorem serve_spec {i : Instr} {a : State} {inp : List Byte} (hr : a.running = some i)
    (hL : inp.length = inputLen i a.lenL) (hrst : a.rst = false) :
    ∀ (fuel : Nat) (rest : List Byte) (t : State), Serving i a inp rest t → leftToDo i a inp rest t < fuel →
      ∃ u, serve fuel rest t = some (u, u.status) ∧ Served i a inp [] u ∧ u.outq = [] := by
  have hau : ∀ {rest t}, Underway i a inp rest t → t.running = some i ∧ inp.length = inputLen i t.lenL ∧ t.rst = false := by
    intro rest t h
    rw [h.same]
    exact ⟨(State.running_congr rfl rfl).trans hr, hL, hrst⟩
  have has : ∀ {rest t}, Served i a inp rest t → t.rst = false := by
    intro rest t h
    obtain ⟨f, n, tt, r, k, d, hb⟩ := body_after i a inp
    rw [h.same]
    show (body i a inp).complete.rst = false
    rw [Body.complete_rst, hb]
    exact hrst
  intro fuel
  induction fuel with
  | zero => intro _ _ _ h; omega
  | succ fuel ih =>
    intro rest t h hm
    unfold serve
    split
    · next hp =>
      obtain ⟨hne, hrdy⟩ := hp
      obtain ⟨b, rest, rfl⟩ := List.exists_cons_of_ne_nil hne
      simp only [List.drop_one, List.tail_cons, List.headD_cons]
      rcases h with h | h
      · rw [act_push b hrdy]
        have h' : Underway i a inp rest { t with script := [], inq := t.inq ++ [b] } :=
          h.hosted rfl rfl rfl (by rw [← h.input]; simp) rfl
        obtain ⟨h1, h2, -⟩ := h'.turn (hau h').1 (hau h').2.1
        refine ih _ _ h1 (Nat.lt_of_le_of_lt h2 ?_)
        have hb := State.busy_of_running (hau h).1
        unfold leftToDo at hm ⊢
        simp only [hb, if_true, List.length_cons] at hm ⊢
        omega
      · exact absurd h.input (by simp)
    · next hp =>
      split
      · next hv =>
        rw [act_pop hv]
        have hne : 0 < t.outq.length := by
          simp only [State.outValid, Bool.and_eq_true, Bool.not_eq_true', List.isEmpty_eq_false_iff] at hv
          exact List.length_pos_iff.mpr hv.2
        rcases h with h | h
        · have h' : Underway i a inp rest
              { t with script := [], outq := t.outq.drop 1, taken := t.taken ++ t.outq.take 1 } :=
            h.hosted rfl rfl rfl h.input (by simp only [List.append_assoc, List.take_append_drop])
          obtain ⟨h1, h2, -⟩ := h'.turn (hau h').1 (hau h').2.1
          refine ih _ _ h1 (Nat.lt_of_le_of_lt h2 ?_)
          have hb := State.busy_of_running (hau h).1
          unfold leftToDo at hm ⊢
          simp only [hb, if_true, List.length_drop] at hm ⊢
          omega
        · have h' : Served i a inp rest
              { t with script := [], outq := t.outq.drop 1, taken := t.taken ++ t.outq.take 1 } :=
            h.hosted rfl rfl rfl h.input (by simp only [List.append_assoc, List.take_append_drop])
          rw [engineTurn_idle h'.idle]
          refine ih _ _ (.inr h') ?_
          have hb := h.idle
          unfold leftToDo at hm ⊢
          simp only [hb, Bool.false_eq_true, if_false, List.length_drop] at hm ⊢
          omega
      · next hv =>
        have htr : t.rst = false := by
          rcases h with h | h
          · exact (hau h).2.2
          · exact has h
        have hrd := act_rd 0x010 htr (by decide) (by decide)
        rw [show Reg.ofOffset 0x010 = .status from rfl] at hrd
        generalize hread : ({ t with
          script := [], resp := .data (t.readValue .status),
          draws := if t.readDraws .status then t.draws + 1 else t.draws } : State) = r at hrd
        have hrr : r = t.withHost r ∧ r.got = t.got ∧ r.sent = t.sent ∧ r.inq = t.inq ∧
            r.taken ++ r.outq = t.taken ++ t.outq ∧ r.outq = t.outq ∧ r.turns = t.turns ∧ r.busy = t.busy ∧
            readData r = some (t.readValue .status) ∧ r.status = t.status := by
          subst hread
          exact ⟨rfl, rfl, rfl, rfl, rfl, rfl, rfl, rfl, rfl, rfl⟩
        obtain ⟨hr1, hr2, hr3, hr4, hr5, hr6, hr7, hr8, hr9, hr10⟩ := hrr
        simp only [hrd, readData_engineTurn, hr9, readValue_status_busy]
        rcases h with h | h
        · have hb := State.busy_of_running (hau h).1
          have h' : Underway i a inp rest r := h.hosted hr1 hr2 hr3 (by rw [hr2, hr4]; exact h.input) hr5
          have hlt := h'.stirs (hau h').1 (hau h').2.1 (by
            by_cases hrest : rest = []
            · exact .inl hrest
            · exact .inr (hr4 ▸ inq_ne_nil_of_not_ready htr fun hi => hp ⟨hrest, hi⟩))
            (hr6.trans (outq_nil_of_not_valid htr hv))
          rw [if_pos hb]
          refine ih _ _ (h'.turn (hau h').1 (hau h').2.1).1 (Nat.lt_of_lt_of_le hlt ?_)
          unfold leftToDo at hm ⊢
          rw [hr8, hr2, hr3, hr6, hr7]
          omega
        · have hb := h.idle
          have h' : Served i a inp rest r := h.hosted hr1 hr2 hr3 (by rw [hr4]; exact h.input) hr5
          rw [if_neg (by simp [hb]), engineTurn_idle h'.idle]
          rw [(List.append_eq_nil_iff.mp h.input).2] at h'
          refine ⟨r, ?_, h', hr6.trans (outq_nil_of_not_valid htr hv)⟩
          rw [hr10]
          simp only [State.readValue, hb, Bool.false_eq_true, if_false]
          rfl

/-! ## A whole command -/

/-- R253 (c): what is fed before the command stands in IN. -/
theorem feed_spec (input : List Byte) {s : State} (hb : s.busy = false) :
    ∃ q p, (feed input s).2 = { s with inq := q, script := p } ∧ q ++ (feed input s).1 = s.inq ++ input := by
  induction input generalizing s with
  | nil => exact ⟨s.inq, s.script, rfl, rfl⟩
  | cons b rest ih =>
    unfold feed
    split
    · next h =>
      have hb' : State.busy { s with script := [], inq := s.inq ++ [b] } = false := hb
      rw [act_push b h, engineTurn_idle hb']
      obtain ⟨q, p, h1, h2⟩ := ih hb'
      exact ⟨q, p, h1, by rw [h2]; simp⟩
    · exact ⟨s.inq, s.script, rfl, rfl⟩

/-- A register write to an idle block, other than one to CMD. -/
theorem act_wr {s : State} (off : Nat) (v : Word) (hb : s.busy = false) (hr : s.rst = false) (h8 : off % 8 = 0)
    (hle : off ≤ 0x7FF8) (hc : Reg.ofOffset off ≠ .cmd) :
    act (.wr (Access.full off) v) s =
      State.writeReg (Reg.ofOffset off) v { s with script := [], resp := .written } := by
  have hl : (Access.full off).legalWrite = true := by simp [Access.legalWrite, Access.legalRead, Access.full, h8, hle]
  rw [act_eq]
  simp only [acted, fetch, busWrite, hr, hl, Bool.not_true, Bool.or_self, Bool.false_eq_true, if_false]
  rw [show (Access.full off).off = off from rfl, if_neg hc]
  refine afterAction_idle ?_
  cases Reg.ofOffset off <;> simp only [State.writeReg] <;> try exact hb
  · unfold State.writeCtrl
    split
    · rfl
    · exact hb
  · unfold State.writeStatus
    split <;> exact hb

/-- R24, R93: the CMD write of a command's word on an idle block without an error. -/
theorem act_cmd {s : State} (i : Instr) (hb : s.busy = false) (he : s.err = false) (hr : s.rst = false) :
    act (.wr (Access.full 0x018) (encode i)) s = engineTurn (issue i { s with script := [], resp := .written }) := by
  have hi : issue i { s with script := [], resp := .written } =
      State.present (issue i) { s with script := [], resp := .written } := (present_idle (by exact hb) (by exact he) _).symm
  rw [act_eq, hi]
  simp only [acted, fetch, busWrite, hr]
  rw [if_neg (by decide), if_pos (by decide), decode_encode]
  simp only
  unfold afterAction
  rw [issue_rst, if_neg (by simp)]

/-- The script lines of the commands (R99). -/
def line (i : Instr) (l c : Word) : List HostAction :=
  match i with
  | .clrf => Script.clrf
  | .hist => Script.hist l
  | .build => Script.build
  | .gencode => Script.gencode
  | .pack => Script.pack l
  | .unpack => Script.unpack l c
  | .ser => Script.ser
  | .deser => Script.deser l

/-- R99: a command line on an idle block without an error. LEN and COUNT are written for the commands that have them. -/
theorem acts_line (i : Instr) (l c : Word) {s : State} (hb : s.busy = false) (he : s.err = false) (hr : s.rst = false) :
    acts (line i l c) s = engineTurn (issue i
      { s with
        script := [], resp := .written, len := if hasLen i then l else s.len,
        count := if i = .unpack then c else s.count }) := by
  have hcmd : ∀ (t : State), t.busy = false → t.err = false → t.rst = false →
      acts (Script.wr 0x018 (encode i)) t = engineTurn (issue i { t with script := [], resp := .written }) :=
    fun t h1 h2 h3 => act_cmd i h1 h2 h3
  have hlen : ∀ t : State, t.busy = false → t.rst = false →
      acts (Script.wr 0x020 l) t = { t with script := [], resp := .written, len := l } :=
    fun t h1 h3 => act_wr 0x020 l h1 h3 (by decide) (by decide) (by decide)
  have hcount : ∀ t : State, t.busy = false → t.rst = false →
      acts (Script.wr 0x028 c) t = { t with script := [], resp := .written, count := c } :=
    fun t h1 h3 => act_wr 0x028 c h1 h3 (by decide) (by decide) (by decide)
  have happ : ∀ (x y : List HostAction) (t : State), acts (x ++ y) t = acts y (acts x t) :=
    fun x y t => List.foldl_append
  have hcl : ∀ (t : State), t.busy = false → t.err = false → t.rst = false →
      acts (Script.wr 0x020 l ++ Script.wr 0x018 (encode i)) t =
        engineTurn (issue i { t with script := [], resp := .written, len := l }) := by
    intro t h1 h2 h3
    rw [happ, hlen t h1 h3, hcmd _ (by exact h1) (by exact h2) (by exact h3)]
  cases i with
  | clrf => exact hcmd s hb he hr
  | build => exact hcmd s hb he hr
  | gencode => exact hcmd s hb he hr
  | ser => exact hcmd s hb he hr
  | hist => exact hcl s hb he hr
  | pack => exact hcl s hb he hr
  | deser => exact hcl s hb he hr
  | unpack =>
    show acts (Script.wr 0x020 l ++ Script.wr 0x028 c ++ Script.wr 0x018 (encode .unpack)) s = _
    rw [happ, happ, hlen s hb hr, hcount _ (by exact hb) (by exact hr), hcmd _ (by exact hb) (by exact he) (by exact hr)]
    rfl

/-- A block between two commands: idle, no error, both queues empty, `rst` low. -/
structure Between (s : State) : Prop where
  busy : s.busy = false
  err : s.err = false
  rst : s.rst = false
  inq : s.inq = []
  outq : s.outq = []

/-- The state in which the command starts, without its input. -/
def start (i : Instr) (l c : Word) (s : State) : State :=
  State.accept i { s with len := if hasLen i then l else s.len, count := if i = .unpack then c else s.count }

/-- A command that the firmware gives and serves completes, with its body's result and OUT drained. -/
theorem runCommand_spec (i : Instr) (l c : Word) {inp : List Byte} {s : State} (hs : Between s)
    (hL : inp.length = inputLen i l) (hh : i = .hist → s.total.toNat + l.toNat < 2 ^ 64) :
    ∃ n u, (∀ fuel, n ≤ fuel → runCommand fuel (line i l c) inp s = some (u, u.status)) ∧
      Served i (start i l c s) inp [] u ∧ u.outq = [] := by
  obtain ⟨q, p, h1, h2⟩ := feed_spec inp hs.busy
  have hacts := acts_line i l c (s := { s with inq := q, script := p }) hs.busy hs.err hs.rst
  have hiss : ∀ t : State, t.total = s.total → t.len = (if hasLen i then l else s.len) → issue i t = t.accept i := by
    intro t ht hl
    apply issue_accept
    intro hi
    subst hi
    rw [ht, hl]
    exact hh rfl
  have hacts := hacts.trans (congrArg engineTurn (hiss _ rfl rfl))
  have hlen : (start i l c s).lenL = if hasLen i then l else s.len := rfl
  have hL' : inp.length = inputLen i (start i l c s).lenL := by
    rw [hlen, hL]
    unfold inputLen
    cases hasLen i <;> rfl
  have hr : (start i l c s).running = some i := State.running_accept _ i
  generalize hA : State.accept i _ = t at hacts
  have hU : Underway i (start i l c s) inp (feed inp s).1 t := by
    subst hA
    refine ⟨rfl, ?_, Nat.zero_le _, ?_⟩
    · rw [hs.inq] at h2
      exact h2
    · show s.taken ++ s.outq = s.taken ++ _
      rw [hs.outq]
      rfl
  have ht : t.running = some i ∧ inp.length = inputLen i t.lenL := by
    rw [hU.same]
    exact ⟨(State.running_congr rfl rfl).trans hr, hL'⟩
  have hS := (hU.turn ht.1 ht.2).1
  obtain ⟨u, h3, h4⟩ := serve_spec hr hL' hs.rst _ _ _ hS (Nat.lt_succ_self _)
  refine ⟨leftToDo i (start i l c s) inp (feed inp s).1 (engineTurn t) + 1, u, fun fuel hf => ?_, h4⟩
  unfold runCommand
  rw [h1, hacts]
  exact serve_mono h3 hf

/-- The bits above a field of a word. -/
theorem getLsbD_above {n m : Nat} (x : BitVec n) (y : BitVec m) (k : Nat) : (x ++ y).getLsbD (m + k) = x.getLsbD k := by
  simp [BitVec.getLsbD_append]

theorem getLsbD_within {n m : Nat} (x : BitVec n) (y : BitVec m) {k : Nat} (h : k < m) :
    (x ++ y).getLsbD k = y.getLsbD k := by
  simp [BitVec.getLsbD_append, h]

/-- R23: bit 2 of STATUS is ERR, bits 11:8 are ERRCODE. -/
theorem status_err (s : State) : s.status.getLsbD 2 = s.err ∧ s.status.extractLsb' 8 4 = s.errCode := by
  constructor
  · refine (getLsbD_above (n := 63) (m := 1) _ _ 1).trans ?_
    refine (getLsbD_above (n := 62) (m := 1) _ _ 0).trans ?_
    refine (getLsbD_within (n := 61) (m := 1) _ _ (by decide)).trans ?_
    simp
  · apply BitVec.eq_of_getLsbD_eq
    intro k hk
    rw [BitVec.getLsbD_extractLsb', show 8 + k = 1 + (1 + (1 + (1 + (1 + (1 + (2 + k)))))) by omega]
    simp only [hk, decide_true, Bool.true_and]
    refine (getLsbD_above (n := 63) (m := 1) _ _ _).trans ?_
    refine (getLsbD_above (n := 62) (m := 1) _ _ _).trans ?_
    refine (getLsbD_above (n := 61) (m := 1) _ _ _).trans ?_
    refine (getLsbD_above (n := 60) (m := 1) _ _ _).trans ?_
    refine (getLsbD_above (n := 59) (m := 1) _ _ _).trans ?_
    refine (getLsbD_above (n := 58) (m := 1) _ _ _).trans ?_
    refine (getLsbD_above (n := 56) (m := 2) _ _ _).trans ?_
    exact getLsbD_within (n := 52) (m := 4) _ _ hk

/-- The error a command of the firmware records is found in ERR and ERRCODE. -/
theorem complete_flags (i : Instr) {a : State} (inp : List Byte) (ha : a.err = false) :
    (body i a inp).complete.err = (body i a inp).err.isSome ∧
      ∀ e, (body i a inp).err = some e → (body i a inp).complete.errCode = e.1.code := by
  obtain ⟨f, n, tt, r, k, d, hb⟩ := body_after i a inp
  refine ⟨by rw [Body.complete_err, hb]; simp [ha], ?_⟩
  intro e he
  rw [Body.complete_of_error he]

/-- What a command of a pass leaves: a block between commands, with the result of the command's body. -/
structure Ran (i : Instr) (a : State) (inp : List Byte) (s u : State) : Prop where
  between : Between u
  same : u = (body i a inp).complete.withHost u
  output : u.taken = s.taken ++ (body i a inp).out

/-- R190: a command that records no error. -/
theorem command_ok (i : Instr) (l c : Word) {inp : List Byte} {s : State} (hs : Between s)
    (hL : inp.length = inputLen i l) (hh : i = .hist → s.total.toNat + l.toNat < 2 ^ 64)
    (hok : (body i (start i l c s) inp).err = none) :
    ∃ n u, (∀ fuel, n ≤ fuel → command fuel (line i l c) inp s = some (u, .ok ())) ∧
      Ran i (start i l c s) inp s u := by
  obtain ⟨n, u, h1, h2, h3⟩ := runCommand_spec i l c hs hL hh
  obtain ⟨f1, -⟩ := complete_flags i inp (a := start i l c s) hs.err
  obtain ⟨f, m, tt, r, k, d, hb⟩ := body_after i (start i l c s) inp
  have he : u.err = false := by
    rw [h2.same]
    exact f1.trans (by rw [hok]; rfl)
  refine ⟨n, u, fun fuel hf => ?_, ⟨h2.idle, he, ?_, ?_, h3⟩, h2.same, ?_⟩
  · unfold command
    rw [h1 fuel hf]
    simp only [(status_err u).1, he, Bool.false_eq_true, if_false]
  · rw [h2.same]
    show (body i (start i l c s) inp).complete.rst = false
    rw [Body.complete_rst, hb]
    exact hs.rst
  · simpa using h2.input
  · have := h2.output
    rw [h3, List.append_nil] at this
    exact this

/-- R217, R242: SRST on an idle block with `rst` low. -/
theorem acts_srst {s : State} (hb : s.busy = false) (hr : s.rst = false) :
    acts Script.srst s = State.softReset { s with script := [], resp := .written } := by
  have := act_wr 0x008 0x1 hb hr (by decide) (by decide) (by decide)
  exact this

/-- R190: a command that records an error: the class of the error, and SRST. -/
theorem command_error (i : Instr) (l c : Word) {inp : List Byte} {s : State} {e : ErrCause × Word} (hs : Between s)
    (hL : inp.length = inputLen i l) (hh : i = .hist → s.total.toNat + l.toNat < 2 ^ 64)
    (herr : (body i (start i l c s) inp).err = some e) :
    ∃ n u, (∀ fuel, n ≤ fuel → command fuel (line i l c) inp s = some (u, .error (Firmware.errorClass e.1.code))) ∧
      Between u ∧ u.softReset = u := by
  obtain ⟨n, u, h1, h2, h3⟩ := runCommand_spec i l c hs hL hh
  obtain ⟨f1, f2⟩ := complete_flags i inp (a := start i l c s) hs.err
  obtain ⟨f, m, tt, r, k, d, hb⟩ := body_after i (start i l c s) inp
  have he : u.err = true := by
    rw [h2.same]
    exact f1.trans (by rw [herr]; rfl)
  have hcode : u.errCode = e.1.code := by
    rw [h2.same]
    exact f2 e herr
  have hr : u.rst = false := by
    rw [h2.same]
    show (body i (start i l c s) inp).complete.rst = false
    rw [Body.complete_rst, hb]
    exact hs.rst
  refine ⟨n, acts Script.srst u, fun fuel hf => ?_, ?_⟩
  · unfold command
    rw [h1 fuel hf]
    simp only [(status_err u).1, (status_err u).2, he, hcode, if_true]
  · rw [acts_srst h2.idle hr]
    exact ⟨⟨rfl, rfl, hr, rfl, rfl⟩, rfl⟩

/-- R28: RD OUT_COUNT and the bytes taken. -/
theorem output_spec (already : Nat) {s : State} (hs : Between s) :
    ∃ t, output already s = some (t, .ok ((s.taken.drop already).take s.outCount.toNat)) ∧ Between t ∧
      t = s.withHost t ∧ t.taken = s.taken := by
  have h := act_rd 0x030 hs.rst (by decide) (by decide)
  rw [show Reg.ofOffset 0x030 = .outCount from rfl, engineTurn_idle (by exact hs.busy)] at h
  unfold output
  rw [h]
  have hv : s.readValue .outCount = s.outCount := by simp [State.readValue, hs.busy, State.regValue]
  simp only [readData, hv]
  exact ⟨_, rfl, ⟨hs.busy, hs.err, hs.rst, hs.inq, hs.outq⟩, rfl, rfl⟩

end Driver

end Sys2Proof.Machine
end

