-- ==== Sys2Proof/Laws/Streams.lean ====
section
/-! SUPPORT. The packed payload and the bits UNPACK reads from it (`30_encoding.md` rules R96, R98; `20_memory.md` rule
R67), and the code bits of a buffer as paths of the tree. -/

namespace Sys2Proof.Machine

/-- R67, R98: the bits of a byte made of eight bits are these bits. -/
theorem byteBits_bitsValue {p : List Bool} (h : p.length = 8) : byteBits (BitVec.ofNat 8 (bitsValue p)) = p := by
  have h8 : (BitVec.ofNat 8 8).toNat = 8 := by decide
  match p, h with
  | [a, b, c', d, e, f, g, i], _ =>
    revert a b c' d e f g i
    decide

theorem payloadBits_map (l : List Byte) : payloadBits l = l.flatMap byteBits := rfl

/-- R96: the payload's bits are the stream and then only fill bits. -/
theorem stream_prefix_payloadBits (st : List Bool) : st.IsPrefix (payloadBits (payloadOfStream st)) := by
  have hbyte : ∀ k, byteBits (payloadByte st k) = (List.range 8).map fun j => st.getD (8 * k + j) false :=
    fun k => byteBits_bitsValue (by simp)
  have hbits : ∀ n, payloadBits ((List.range n).map (payloadByte st)) =
      (List.range (8 * n)).map fun i => st.getD i false := by
    intro n
    induction n with
    | zero => rfl
    | succ n ih =>
      rw [List.range_succ, List.map_append, payloadBits_append, ih, List.map_singleton]
      have h1 : payloadBits [payloadByte st n] = byteBits (payloadByte st n) := by simp [payloadBits]
      rw [h1, hbyte, show 8 * (n + 1) = 8 * n + 8 by omega, List.range_add, List.map_append, List.map_map]
      rfl
  rw [payloadOfStream, hbits]
  have hle : st.length ≤ 8 * ((st.length + 7) / 8) := by omega
  refine List.prefix_iff_eq_take.mpr ?_
  rw [← List.map_take, List.take_range, Nat.min_eq_left hle]
  apply List.ext_getElem
  · simp
  · intro i h1 h2
    simp [h1]

/-- R36, R98: with the codes of a tree, the bit stream of a buffer is the paths of its bytes. -/
theorem streamOf_paths {t : Tree} {d : CodeTable} (hd : t.depth ≤ 255)
    (hc : ∀ b, codeAt d b = CodeEntry.ofPath (t.codeOf b)) {buf : List Byte} (h : covers d buf = true) :
    ∃ cs : List (Byte × List Bool), (∀ x ∈ cs, x ∈ t.codes) ∧ cs.map (fun x => x.1) = buf ∧
      (cs.flatMap fun x => x.2) = streamOf d buf := by
  induction buf with
  | nil => exact ⟨[], by simp [streamOf]⟩
  | cons b buf ih =>
    simp only [covers, List.all_cons, Bool.and_eq_true] at h
    obtain ⟨cs, h1, h2, h3⟩ := ih h.2
    have hv := h.1
    rw [hc b, ofPath_valid, Option.isSome_iff_exists] at hv
    obtain ⟨p, hp⟩ := hv
    refine ⟨(b, p) :: cs, ?_, by simp [h2], ?_⟩
    · intro x hx
      rcases List.mem_cons.mp hx with rfl | hx
      · exact Tree.codeOf_mem hp
      · exact h1 x hx
    · have : codeBits (codeAt d b) = p := by rw [hc b, hp, codeBits_ofPath (codeOf_length_le hd hp)]
      simp only [streamOf, List.flatMap_cons, this] at h3 ⊢
      rw [h3]

theorem streamOf_length_le (d : CodeTable) (buf : List Byte) : (streamOf d buf).length ≤ 255 * buf.length := by
  induction buf with
  | nil => simp [streamOf]
  | cons b buf ih =>
    have : (codeBits (codeAt d b)).length ≤ 255 := by
      simp only [codeBits, List.length_map, List.length_reverse, List.length_range]
      have := (codeAt d b).len.isLt
      omega
    simp only [streamOf, List.flatMap_cons, List.length_append, List.length_cons] at ih ⊢
    omega

end Sys2Proof.Machine
end

