-- ==== Sys2Proof/Laws/Due.lean ====
section
/-! SUPPORT. That the engine may push all that is determined (`20_memory.md` rule R70 (c), "in any way"): for UNPACK the
lookahead, for PACK the whole bytes, is the longest beginning that the outputs of all continuations of the input share. -/

namespace Sys2Proof.Machine

/-! ## UNPACK -/

/-- An entry of the node table below which a tree stands. -/
def Subtree (t : NodeTable) (i : Idx) : Prop := ∃ sh : Shape, i = sh.index ∧ sh.StandsIn t ∧ sh.tree.depth ≤ 255

theorem Subtree.ne_NIL {t : NodeTable} {i : Idx} (h : Subtree t i) : i ≠ NIL := by
  obtain ⟨sh, rfl, h1, -⟩ := h
  exact h1.index_ne_NIL

theorem Subtree.treeAt {t : NodeTable} {i : Idx} (h : Subtree t i) :
    ∃ sh : Shape, i = sh.index ∧ treeAt t walkFuel i = sh.tree ∧ sh.StandsIn t ∧ sh.tree.depth ≤ 255 := by
  obtain ⟨sh, rfl, h1, h2⟩ := h
  exact ⟨sh, rfl, h1.treeAt_eq (by unfold walkFuel; omega), h1, h2⟩

/-- An internal entry has two subtrees. -/
theorem Subtree.fork {t : NodeTable} {i : Idx} (h : Subtree t i) (hl : ¬(nodeAt t i).leaf = true) :
    Subtree t (nodeAt t i).left ∧ Subtree t (nodeAt t i).right ∧
      Sys2Proof.Machine.treeAt t walkFuel i =
        .fork (Sys2Proof.Machine.treeAt t walkFuel (nodeAt t i).left)
          (Sys2Proof.Machine.treeAt t walkFuel (nodeAt t i).right) := by
  obtain ⟨sh, rfl, h1, h2, h3⟩ := h.treeAt
  cases sh with
  | leaf j v =>
    simp only [Shape.index, Shape.StandsIn] at hl h2
    rw [h2] at hl
    exact absurd rfl hl
  | fork j l r =>
    simp only [Shape.index, Shape.StandsIn, Shape.tree, Tree.depth] at *
    obtain ⟨h4, h5, h6⟩ := h2
    have e1 : (nodeAt t j).left = l.index := by rw [h4]; rfl
    have e2 : (nodeAt t j).right = r.index := by rw [h4]; rfl
    rw [e1, e2, h1, h5.treeAt_eq (by unfold walkFuel; omega), h6.treeAt_eq (by unfold walkFuel; omega)]
    exact ⟨⟨l, rfl, h5, by omega⟩, ⟨r, rfl, h6, by omega⟩, rfl⟩

/-- What both values of the next bit leave determined is determined before it is read. -/
theorem determinedSymbols_of_both {t : NodeTable} {root cur : Idx} {n owed : Nat} {q : List Byte} (hs : Subtree t cur)
    (hl : ¬(nodeAt t cur).leaf = true) (h0 : q.IsPrefix (determinedSymbols t root n owed (nodeAt t cur).left))
    (h1 : q.IsPrefix (determinedSymbols t root n owed (nodeAt t cur).right)) :
    q.IsPrefix (determinedSymbols t root (n + 1) owed cur) := by
  obtain ⟨-, -, hf⟩ := hs.fork hl
  unfold determinedSymbols at *
  rw [hf]
  generalize treeAt t walkFuel (nodeAt t cur).left = l at *
  generalize treeAt t walkFuel (nodeAt t cur).right = r at *
  generalize treeOf t root = T at *
  cases q with
  | nil => exact List.nil_prefix
  | cons a q =>
    cases hlc : l.common with
    | none => rw [hlc] at h0; exact absurd h0 (by simp)
    | some v =>
      cases hrc : r.common with
      | none => rw [hrc] at h1; exact absurd h1 (by simp)
      | some w =>
        rw [hlc] at h0
        rw [hrc] at h1
        simp only at h0 h1
        by_cases c0 : owed = 0 ∨ n < l.depth
        · rw [if_pos c0] at h0; exact absurd h0 (by simp)
        · by_cases c1 : owed = 0 ∨ n < r.depth
          · rw [if_pos c1] at h1; exact absurd h1 (by simp)
          · rw [if_neg c0] at h0
            rw [if_neg c1] at h1
            cases hT : T.common with
            | none =>
              rw [hT] at h0 h1
              simp only [List.cons_prefix_cons] at h0 h1
              obtain rfl : v = w := h0.1.symm.trans h1.1
              rw [Tree.common_fork.mpr ⟨hlc, hrc⟩]
              have hdep : (Tree.fork l r).depth = max l.depth r.depth + 1 := rfl
              simp only
              rw [if_neg (by omega)]
              simpa using h0
            | some x =>
              rw [hT] at h0 h1
              simp only [List.cons_prefix_cons] at h0 h1
              obtain rfl : v = w := h0.1.symm.trans h1.1
              rw [Tree.common_fork.mpr ⟨hlc, hrc⟩]
              have hdep : (Tree.fork l r).depth = max l.depth r.depth + 1 := rfl
              simp only
              rw [if_neg (by omega), hdep]
              simp only [List.cons_prefix_cons]
              refine ⟨h0.1, ?_⟩
              rcases Nat.le_total l.depth r.depth with hle | hle
              · rw [Nat.max_eq_right hle, Nat.add_sub_add_right]
                exact h1.2
              · rw [Nat.max_eq_left hle, Nat.add_sub_add_right]
                exact h0.2

/-- At a leaf of a tree that has more than one node nothing is determined but its value and what is from ROOT on. -/
theorem determinedSymbols_at_leaf {t : NodeTable} {root cur : Idx} {n owed : Nat} (hr : Subtree t root)
    (hrl : ¬(nodeAt t root).leaf = true) (hn : cur ≠ NIL) (hl : (nodeAt t cur).leaf = true) (ho : owed ≠ 0) :
    determinedSymbols t root n owed cur = (nodeAt t cur).value :: determinedSymbols t root n (owed - 1) root := by
  have hd := treeAt_leaf hn hl
  obtain ⟨-, -, hf⟩ := hr.fork hrl
  have hpos : 0 < (treeOf t root).depth := by
    unfold treeOf
    rw [hf, Tree.depth]
    omega
  unfold determinedSymbols
  rw [hd]
  simp only [Tree.common, Tree.depth, Nat.not_lt_zero, or_false, ho, if_false, Nat.sub_zero]
  rw [show treeAt t walkFuel root = treeOf t root from rfl]
  cases hc : (treeOf t root).common with
  | none => simp
  | some w =>
    simp only [List.cons.injEq, true_and]
    by_cases h : owed - 1 = 0 ∨ n < (treeOf t root).depth
    · rw [if_pos h]
      rcases h with h | h
      · simp [h]
      · simp [Nat.div_eq_of_lt h]
    · rw [if_neg h, ← List.replicate_succ]
      congr 1
      have := Nat.div_eq_sub_div hpos (a := n) (by omega)
      omega

/-- A common beginning, past a common part. -/
theorem prefix_append_of_both {p o x y z : List Byte} (h : ∀ q : List Byte, q.IsPrefix x → q.IsPrefix y → q.IsPrefix z)
    (hx : p.IsPrefix (o ++ x)) (hy : p.IsPrefix (o ++ y)) : p.IsPrefix (o ++ z) := by
  rcases List.prefix_or_prefix_of_prefix hx (List.prefix_append o x) with hp | ⟨q, rfl⟩
  · exact hp.trans (List.prefix_append o z)
  · rw [List.prefix_append_right_inj] at hx hy ⊢
    exact h q hx hy

/-- What every continuation of `n` bits gives is in the lookahead. -/
theorem unpackLoop_exact {t : NodeTable} {root : Idx} {count : Nat} (hr : Subtree t root)
    (hrl : ¬(nodeAt t root).leaf = true) (p : List Byte) (fuel n : Nat) (u : Unpacking) (hs : Subtree t u.cur)
    (he : u.emitted ≤ count) (hf : count - u.emitted + n < fuel)
    (h : ∀ bs : List Bool, bs.length = n → p.IsPrefix (unpackLoop t root count fuel { u with bits := bs }).out) :
    p.IsPrefix (u.determined t root count n) := by
  induction fuel generalizing n u with
  | zero => omega
  | succ fuel ih =>
    unfold unpackLoop at h
    by_cases h1 : u.emitted = count
    · simp only [h1, if_true] at h
      exact (h (List.replicate n false) (by simp)).trans (List.prefix_append _ _)
    · have hn := hs.ne_NIL
      simp only [h1, hn, if_false] at h
      by_cases hl : (nodeAt t u.cur).leaf = true
      · simp only [hl, if_true] at h
        have := ih n { u with cur := root, emitted := u.emitted + 1, out := u.out ++ [(nodeAt t u.cur).value] } hr
          (by simp only; omega) (by simp only; omega) h
        simp only [Unpacking.determined] at this ⊢
        rw [determinedSymbols_at_leaf hr hrl hn hl (by omega)]
        simpa [Nat.sub_add_eq] using this
      · obtain ⟨hs0, hs1, -⟩ := hs.fork hl
        cases n with
        | zero =>
          have := h [] rfl
          simp only [hl, Bool.false_eq_true, if_false] at this
          exact this.trans (List.prefix_append _ _)
        | succ n =>
          have hb : ∀ bit : Bool, p.IsPrefix
              (u.out ++ determinedSymbols t root n (count - u.emitted)
                (if bit then (nodeAt t u.cur).right else (nodeAt t u.cur).left)) := by
            intro bit
            refine ih n { u with cur := if bit then (nodeAt t u.cur).right else (nodeAt t u.cur).left } ?_ he (by simp only; omega) ?_
            · cases bit
              · exact hs0
              · exact hs1
            · intro bs hbs
              have := h (bit :: bs) (by simp [hbs])
              simpa only [hl, Bool.false_eq_true, if_false] using this
          exact prefix_append_of_both (fun q => determinedSymbols_of_both hs hl) (hb false) (hb true)

/-- The same after some bits are read. -/
theorem unpackLoop_exact_after {t : NodeTable} {root : Idx} {count : Nat} (p : List Byte) (n f g : Nat) (u : Unpacking)
    (hin : ¬(nodeAt t root).leaf = true → root ≠ NIL → Subtree t root ∧ Subtree t u.cur)
    (hout : (nodeAt t root).leaf = true ∨ root = NIL → u.cur = root) (he : u.emitted ≤ count)
    (hf : count - u.emitted + u.bits.length < f) (hg : count - u.emitted + u.bits.length + n < g)
    (h : ∀ bs : List Bool, bs.length = n →
      p.IsPrefix (unpackLoop t root count g { u with bits := u.bits ++ bs }).out) :
    p.IsPrefix ((unpackLoop t root count f u).determined t root count n) := by
  induction f generalizing g u with
  | zero => omega
  | succ f ih =>
    obtain ⟨g, rfl⟩ : ∃ g', g = g' + 1 := ⟨g - 1, by omega⟩
    by_cases h1 : u.emitted = count
    · have := h (List.replicate n false) (by simp)
      rw [unpackLoop_done t root (by exact h1)] at this
      rw [unpackLoop_done t root h1]
      exact this.trans (List.prefix_append _ _)
    · by_cases hn : u.cur = NIL
      · have := h (List.replicate n false) (by simp)
        unfold unpackLoop at this ⊢
        simp only [h1, hn, if_false, if_true] at this ⊢
        exact this.trans (List.prefix_append _ _)
      · by_cases hl : (nodeAt t u.cur).leaf = true
        · have h' : ∀ bs : List Bool, bs.length = n → p.IsPrefix (unpackLoop t root count g
              { u with
                cur := root, bits := u.bits ++ bs, emitted := u.emitted + 1, out := u.out ++ [(nodeAt t u.cur).value] }).out := by
            intro bs hbs
            have := h bs hbs
            unfold unpackLoop at this
            simpa only [h1, hn, hl, if_false, if_true] using this
          unfold unpackLoop
          simp only [h1, hn, hl, if_false, if_true]
          exact ih g { u with cur := root, emitted := u.emitted + 1, out := u.out ++ [(nodeAt t u.cur).value] }
            (fun a b => ⟨(hin a b).1, (hin a b).1⟩) (fun _ => rfl) (by simp only; omega) (by simp only; omega)
            (by simp only; omega) h'
        · have hri : ¬(nodeAt t root).leaf = true ∧ root ≠ NIL := by
            by_contra hc
            have : (nodeAt t root).leaf = true ∨ root = NIL := by tauto
            have hcur := hout this
            rw [hcur] at hl hn
            exact hc ⟨hl, hn⟩
          obtain ⟨hsr, hsc⟩ := hin hri.1 hri.2
          cases hb : u.bits with
          | nil =>
            unfold unpackLoop
            simp only [h1, hn, hl, hb, if_false, Bool.false_eq_true]
            rw [hb] at h hg
            exact unpackLoop_exact hsr hri.1 p (g + 1) n u hsc he (by simpa using hg) h
          | cons bit rest =>
            rw [hb, List.length_cons] at hf hg
            have h' : ∀ bs : List Bool, bs.length = n → p.IsPrefix (unpackLoop t root count g
                { u with cur := if bit then (nodeAt t u.cur).right else (nodeAt t u.cur).left, bits := rest ++ bs }).out := by
              intro bs hbs
              have := h bs hbs
              unfold unpackLoop at this
              simpa only [h1, hn, hl, hb, List.cons_append, if_false, Bool.false_eq_true] using this
            have hs' : Subtree t (if bit then (nodeAt t u.cur).right else (nodeAt t u.cur).left) := by
              obtain ⟨a, b, -⟩ := hsc.fork hl
              cases bit
              · exact a
              · exact b
            unfold unpackLoop
            simp only [h1, hn, hl, hb, if_false, Bool.false_eq_true]
            exact ih g { u with cur := if bit then (nodeAt t u.cur).right else (nodeAt t u.cur).left, bits := rest }
              (fun _ _ => ⟨hsr, hs'⟩) (fun hc => absurd hc (by tauto)) he (by simp only; omega) (by simp only; omega) h'

/-- R67: eight bits are the bits of a byte, so that every sequence of `8 n` bits is a payload of `n` bytes. -/
theorem exists_payload (n : Nat) (bs : List Bool) (h : bs.length = 8 * n) :
    ∃ more : List Byte, more.length = n ∧ payloadBits more = bs := by
  induction n generalizing bs with
  | zero => exact ⟨[], rfl, (List.eq_nil_of_length_eq_zero (by omega)).symm⟩
  | succ n ih =>
    obtain ⟨more, h1, h2⟩ := ih (bs.drop 8) (by rw [List.length_drop]; omega)
    refine ⟨BitVec.ofNat 8 (bitsValue (bs.take 8)) :: more, by simp [h1], ?_⟩
    have hb := byteBits_bitsValue (p := bs.take 8) (by rw [List.length_take]; omega)
    simp only [payloadBits, List.flatMap_cons] at h2 ⊢
    rw [hb, h2, List.take_append_drop]

/-- R70 (c): UNPACK's lookahead holds everything that the bytes popped determine. -/
theorem determinedByPrefix_exact {t : NodeTable} {root nnodes : Idx} (hT : TreeStands t root nnodes) (count n : Nat)
    (a p : List Byte)
    (h : ∀ more : List Byte, more.length = n → p.IsPrefix (unpackRun t root count (a ++ more)).out) :
    p.IsPrefix (determinedByPrefix t root count a n) := by
  have hroot : root ≠ NIL → Subtree t root := by
    intro hne
    rcases hT with ⟨h1, -⟩ | ⟨sh, rfl, h1, h2, -⟩
    · exact absurd h1 hne
    · exact ⟨sh, rfl, h1, h1.depth_le h2⟩
  refine unpackLoop_exact_after p (8 * n) _ (count + (payloadBits a).length + 8 * n + 1)
    { cur := root, bits := payloadBits a, emitted := 0, out := [], err := none }
    (fun _ hn => ⟨hroot hn, hroot hn⟩) (fun _ => rfl) (Nat.zero_le _) (by simp) (by simp only; omega) ?_
  intro bs hbs
  obtain ⟨more, h1, rfl⟩ := exists_payload n bs hbs
  have := h more h1
  unfold unpackRun at this
  rw [payloadBits_append, List.length_append, payloadBits_length more, h1, ← Nat.add_assoc] at this
  exact this

/-! ## PACK -/

theorem covers_of_no_error {c : CodeTable} {bs : List Byte} (h : (packRun c bs).err = none) : covers c bs = true := by
  rcases covers_or_first_missing c bs with hc | ⟨front, b, back, rfl, hf, hb⟩
  · exact hc
  · rw [(packRun_uncovered hf hb).2] at h
    cases h

theorem covers_append {c : CodeTable} (a b : List Byte) : covers c (a ++ b) = (covers c a && covers c b) := by
  simp [covers]

theorem streamOf_append (c : CodeTable) (a b : List Byte) : streamOf c (a ++ b) = streamOf c a ++ streamOf c b := by
  simp [streamOf]

/-- A tree with a leaf for each of the 256 values has a code that begins with 0 and one that begins with 1. -/
theorem codes_begin_both {T : Tree} (hfull : T.full = true) (hsize : T.size ≤ 511)
    (hall : ∀ b : Byte, (T.codeOf b).isSome = true) (x : Bool) : ∃ b p, T.codeOf b = some (x :: p) := by
  have hlen := Tree.size_of_full hfull
  cases T with
  | empty => simp [Tree.full] at hfull
  | leaf v =>
    have h := hall (v + 1)
    rw [codeOf_leaf, if_neg] at h
    · cases h
    · revert v
      decide
  | fork l r =>
    simp only [Tree.full, Bool.and_eq_true] at hfull
    have hl := Tree.leaves_pos_of_full hfull.1
    have hr := Tree.leaves_pos_of_full hfull.2
    simp only [Tree.leaves, List.length_append] at hlen
    cases x with
    | true =>
      obtain ⟨v, hv⟩ := List.exists_mem_of_length_pos hr
      obtain ⟨p, hp⟩ := Option.isSome_iff_exists.mp (Tree.codeOf_isSome.mpr hv)
      exact ⟨v, p, by rw [codeOf_fork, hp]⟩
    | false =>
      have : ∃ b : Byte, b ∉ r.leaves := by
        by_contra hc
        simp only [not_exists, not_not] at hc
        have := allSymbols_nodup.subperm (l₂ := r.leaves) (fun b _ => hc b)
        have := this.length_le
        rw [show allSymbols.length = 256 by simp [allSymbols]] at this
        omega
      obtain ⟨b, hb⟩ := this
      have hn : r.codeOf b = none := by
        rw [← Option.not_isSome_iff_eq_none, Tree.codeOf_isSome]
        exact hb
      have h := hall b
      rw [codeOf_fork, hn] at h
      simp only [Option.isSome_map] at h
      obtain ⟨p, hp⟩ := Option.isSome_iff_exists.mp h
      exact ⟨b, p, by rw [codeOf_fork, hn, hp]; rfl⟩

/-- Two streams that part at a bit of byte `k` part there as payloads. -/
theorem payloadByte_ne {st0 st1 : List Bool} {i : Nat} (h : st0.getD i false ≠ st1.getD i false) :
    payloadByte st0 (i / 8) ≠ payloadByte st1 (i / 8) := by
  intro he
  have hb : ∀ st : List Bool, byteBits (payloadByte st (i / 8)) = (List.range 8).map fun j => st.getD (8 * (i / 8) + j) false :=
    fun st => byteBits_bitsValue (by simp)
  have h2 := (hb st0).symm.trans ((congrArg byteBits he).trans (hb st1))
  have h3 := List.map_inj_left.mp h2 (i % 8) (List.mem_range.mpr (Nat.mod_lt _ (by decide)))
  rw [Nat.div_add_mod] at h3
  exact h h3

/-- R70 (c): PACK's whole bytes are everything that the bytes popped determine while one is still to come, with no codes
or those of a tree. -/
theorem packRun_exact {t : NodeTable} {root nnodes : Idx} {c : CodeTable} (hT : TreeStands t root nnodes)
    (hc : c = noCodes ∨ c = genCodes t root) (a p : List Byte) (n : Nat)
    (h : ∀ more : List Byte, more.length = n + 1 → p.IsPrefix (packRun c (a ++ more)).flushed) :
    p.IsPrefix (packRun c a).out := by
  cases he : (packRun c a).err with
  | some j =>
    have := h (List.replicate (n + 1) 0) (by simp)
    have h2 := packBytes_after_error c (List.replicate (n + 1) 0) he
    unfold packRun at this h2 ⊢
    rw [List.foldl_append] at this
    unfold Packing.flushed at this
    rw [h2.2] at this
    rwa [← h2.1]
  | none =>
    have hcov := covers_of_no_error he
    by_cases hall : ∀ b : Byte, (codeAt c b).valid = true
    · have hgen : c = genCodes t root := by
        rcases hc with rfl | hc
        · have := hall 0
          rw [codeAt_noCodes] at this
          cases this
        · exact hc
      have hcode : ∀ b, codeAt c b = CodeEntry.ofPath ((treeOf t root).codeOf b) := by
        intro b
        rw [hgen]
        exact codeAt_genCodes t root b
      have hall' : ∀ b : Byte, ((treeOf t root).codeOf b).isSome = true := by
        intro b
        rw [← ofPath_valid, ← hcode]
        exact hall b
      rcases hT.tree_cases with ⟨-, hE⟩ | ⟨-, h1, h2, h3, -⟩
      · have := hall' 0
        rw [hE] at this
        cases this
      · have key : ∀ x : Bool, ∃ more : List Byte, more.length = n + 1 ∧ ∃ rest,
            streamOf c (a ++ more) = streamOf c a ++ x :: rest := by
          intro x
          obtain ⟨b, q, hq⟩ := codes_begin_both h1 h2 hall' x
          refine ⟨b :: List.replicate n b, by simp, q ++ streamOf c (List.replicate n b), ?_⟩
          rw [streamOf_append]
          have hb : codeBits (codeAt c b) = x :: q := by
            rw [hcode, hq]
            exact codeBits_ofPath (codeOf_length_le h3 hq)
          simp only [streamOf, List.flatMap_cons, hb, List.cons_append]
        have hcov' : ∀ more : List Byte, covers c (a ++ more) = true := by
          intro more
          simp only [covers, List.all_eq_true]
          exact fun b _ => hall b
        have hpay : ∀ more : List Byte, (packRun c (a ++ more)).flushed = payloadOfStream (streamOf c (a ++ more)) :=
          fun more => flushed_of_packed (packRun_covered (hcov' more)).1
        have hout : (packRun c a).out.length = (streamOf c a).length / 8 := by
          rw [(packRun_covered hcov).1.out]
          simp [wholeBytes]
        obtain ⟨m0, l0, r0, e0⟩ := key false
        obtain ⟨m1, l1, r1, e1⟩ := key true
        have p0 := h m0 l0
        have p1 := h m1 l1
        by_cases hlen : p.length ≤ (packRun c a).out.length
        · exact List.prefix_of_prefix_length_le p0 (packRun_out_prefix c a m0) hlen
        · exfalso
          rw [hpay, e0] at p0
          rw [hpay, e1] at p1
          have hk : (streamOf c a).length / 8 < p.length := by omega
          have g0 := List.IsPrefix.getElem p0 hk
          have g1 := List.IsPrefix.getElem p1 hk
          simp only [payloadOfStream, List.getElem_map, List.getElem_range] at g0 g1
          refine payloadByte_ne (i := (streamOf c a).length) ?_ (g0.symm.trans g1)
          simp
    · simp only [not_forall, Bool.not_eq_true] at hall
      obtain ⟨b, hb⟩ := hall
      have := h (b :: List.replicate n 0) (by simp)
      have h2 := packRun_uncovered (back := List.replicate n 0) hcov hb
      unfold Packing.flushed at this
      rw [h2.2] at this
      simp only at this
      rw [h2.1] at this
      rwa [(packRun_covered hcov).1.out]

end Sys2Proof.Machine
end

