-- ==== Sys2Proof/Laws/PerInstr.lean ====
section
/-! SUPPORT. Statements about every command, as syntax, one lemma for each. -/

namespace Sys2Proof.Laws.WordForm

/-- R90 to R92, R94: a command's word is well formed, carries the command's opcode in bits 7:0 and zeros above (R90), reads
back as the command, and travels as eight byte lanes with the opcode in lane 0 (R71). -/
def Statement (i : Instr) : Prop :=
  i.wellFormed = true ∧ CommandWord.wellFormed (encode i) = true ∧ opField (encode i) = opcode i ∧
    rsvdField (encode i) = 0 ∧ decode (encode i) = .ok i ∧
    encodeLanes i = [opcode i, 0, 0, 0, 0, 0, 0, 0]

theorem clrf : Statement .clrf := by unfold Statement; decide

theorem hist : Statement .hist := by unfold Statement; decide

theorem build : Statement .build := by unfold Statement; decide

theorem gencode : Statement .gencode := by unfold Statement; decide

theorem pack : Statement .pack := by unfold Statement; decide

theorem unpack : Statement .unpack := by unfold Statement; decide

theorem ser : Statement .ser := by unfold Statement; decide

theorem deser : Statement .deser := by unfold Statement; decide

end Sys2Proof.Laws.WordForm
end

