-- ==== Sys2Proof/Laws/RoundTrip.lean ====
section
/-! SUPPORT. Encoding and decoding undo each other, function by function: the packed payload (`43_pack.md`, `44_unpack.md`
rule R156), the tree of a buffer's counters through SER and DESER, the frame header and one pass of the firmware
(`49_firmware_protocol.md` rules R181 to R190). -/

namespace Sys2Proof.Machine

/-- R156: the decode loop on the payload of a buffer gives the buffer. -/
theorem unpackRun_payload {tn : NodeTable} {root : Idx} {d : CodeTable} (hd : (treeOf tn root).depth ≤ 255)
    (hc : ∀ b, codeAt d b = CodeEntry.ofPath ((treeOf tn root).codeOf b)) {buf : List Byte}
    (hcov : covers d buf = true) :
    (unpackRun tn root buf.length (payloadOfStream (streamOf d buf))).out = buf ∧
      (unpackRun tn root buf.length (payloadOfStream (streamOf d buf))).err = none := by
  obtain ⟨cs, h1, h2, h3⟩ := streamOf_paths hd hc hcov
  have hp := stream_prefix_payloadBits (streamOf d buf)
  rw [← h3] at hp ⊢
  have := unpackRun_success h1 hp
  have hl : cs.length = buf.length := by rw [← h2]; simp
  rw [hl, h2] at this
  exact this

/-- R126, R135: the codes of a table's own tree cover every symbol the table counts. -/
theorem covers_of_counted {f : FreqTable} {d : CodeTable}
    (hd : ∀ b, codeAt d b = CodeEntry.ofPath ((treeOf (buildTree f).node (buildTree f).root).codeOf b))
    {buf : List Byte} (hb : ∀ b ∈ buf, freqAt f b ≠ 0) : covers d buf = true := by
  simp only [covers, List.all_eq_true]
  intro b hbm
  have hne : present f ≠ [] := List.ne_nil_of_mem (mem_present.mpr (hb b hbm))
  obtain ⟨sh, hB⟩ := buildTree_some hne
  rw [hd, ofPath_valid, hB.treeOf_eq, Tree.codeOf_isSome]
  exact hB.leaves.mem_iff.mpr (mem_present.mpr (hb b hbm))

/-- R112: a byte of a counted buffer has a counter that is not 0. -/
theorem counted_ne_zero {buf : List Byte} (hl : buf.length < 2 ^ 64) :
    ∀ b ∈ buf, freqAt (countBytes zeroFreq buf) b ≠ 0 := by
  intro b hb e
  have h := (countBytes_spec (f := zeroFreq) buf (by rw [freqSum_zeroFreq]; omega)).2 b
  rw [e] at h
  have h1 := List.count_pos_iff.mpr hb
  simp at h
  omega

/-- R171 on the tree BUILD makes: its serialized form is short and is parsed to the same tree. -/
theorem parseTree_serialize_buildTree (f : FreqTable) :
    ∃ tb, parseTree (serialize (buildTree f).node (buildTree f).root) = .ok tb ∧
      treeOf tb.node tb.root = treeOf (buildTree f).node (buildTree f).root ∧
      (treeOf (buildTree f).node (buildTree f).root).depth ≤ 255 ∧
      (serialize (buildTree f).node (buildTree f).root).length < 2 ^ 10 := by
  have hs : serialize (buildTree f).node (buildTree f).root = (treeOf (buildTree f).node (buildTree f).root).ser :=
    emitTree_eq_ser _ _ _
  rw [hs]
  rcases (buildTree_stands f).tree_cases with ⟨-, h⟩ | ⟨-, h1, h2, h3, -⟩
  · rw [h]
    exact ⟨TreeTable.none, rfl, rfl, by simp [Tree.depth], by simp [Tree.ser]⟩
  · obtain ⟨tb, hp, hw⟩ := parseTree_ser h1 h2
    refine ⟨tb, hp, hw.treeOf_eq, h3, ?_⟩
    have := Tree.ser_length_of_full h1
    have := Tree.size_of_full h1
    omega

/-! ## The frame header (R181, R182) -/

@[simp] theorem lanesOf_length (w : Word) : (lanesOf w).length = 8 := by simp [lanesOf]

/-- R71: the lanes of a word carry the word. -/
theorem natOfLanes_lanesOf (w : Word) : natOfLanes (lanesOf w) = w.toNat := by
  have h : ∀ n : Nat, n < 2 ^ 64 → natOfLanes (lanesOf (BitVec.ofNat 64 n)) = n := by
    intro n hn
    simp only [lanesOf, laneOf, List.range, List.range.loop, List.map_cons, List.map_nil, natOfLanes,
      BitVec.extractLsb'_toNat, BitVec.toNat_ofNat, Nat.shiftRight_eq_div_pow]
    norm_num
    omega
  have := h w.toNat w.isLt
  simpa using this

namespace Firmware

theorem fieldValue_fieldBytes (e : Endian) (v : Word) : fieldValue e (fieldBytes e v) = v := by
  cases e <;> simp [fieldValue, fieldBytes, natOfLanes_lanesOf]

theorem fieldBytes_length (e : Endian) (v : Word) : (fieldBytes e v).length = 8 := by
  cases e <;> simp [fieldBytes]

theorem headerBytes_length (e : Endian) (h : Header) : (headerBytes e h).length = 17 := by
  simp [headerBytes, fieldBytes_length]

/-- R181, R189: the header at the front of a frame is read back. -/
theorem parseHeader_headerBytes (e : Endian) (h : Header) (rest : List Byte) :
    parseHeader e (headerBytes e h ++ rest) = some h := by
  have h1 := fieldBytes_length e h.treeSize
  have h2 := fieldBytes_length e h.dataSize
  have hlen : (headerBytes e h ++ rest).length = 17 + rest.length := by
    rw [List.length_append, headerBytes_length]
  have e1 : headerBytes e h ++ rest =
      fieldBytes e h.treeSize ++ (fieldBytes e h.dataSize ++ (h.passDepth :: rest)) := by simp [headerBytes]
  unfold parseHeader
  rw [if_neg (by rw [hlen]; simp [Config.headerBytes]), e1, List.take_left' h1, List.drop_left' h1,
    List.take_left' h2, show 16 = 8 + 8 from rfl, ← List.drop_drop, List.drop_left' h1, List.drop_left' h2]
  simp [fieldValue_fieldBytes]

/-- R183: the depth byte reads back as 0 exactly for the outermost pass. -/
theorem continues_depth {d : Nat} (h : d < 128) (t s : Word) :
    Header.continues { treeSize := t, dataSize := s, passDepth := BitVec.ofNat 8 d } = (d != 0) := by
  have hall : ∀ d < 128, ((BitVec.ofNat 8 d).toInt != 0) = (d != 0) := by decide +kernel
  exact hall d h

/-- R185, R189, R190: one round of the decoder undoes one encode pass. -/
theorem decodeRound_encodePass (e : Endian) {cur : List Byte} {depth : Nat} (hc : cur.length < 2 ^ 64)
    (hd : depth < 128) : decodeRound e (encodePass e cur depth) = .ok (cur, depth != 0) := by
  obtain ⟨tb, hp, ht, hdep, hlen⟩ := parseTree_serialize_buildTree (countBytes zeroFreq cur)
  have hcov : covers (passCodes cur) cur = true := covers_of_counted (codeAt_genCodes _ _) (counted_ne_zero hc)
  have hf := flushed_of_packed (packRun_covered hcov).1
  have hcods : ∀ b, codeAt (passCodes cur) b = CodeEntry.ofPath ((treeOf tb.node tb.root).codeOf b) := by
    intro b
    rw [ht]
    exact codeAt_genCodes _ _ b
  obtain ⟨u1, u2⟩ := unpackRun_payload (by rw [ht]; exact hdep) hcods hcov
  rw [← hf] at u1 u2
  have hT : (BitVec.ofNat 64 (passTreeBytes cur).length).toNat = (passTreeBytes cur).length := by
    have : (passTreeBytes cur).length < 2 ^ 10 := hlen
    simp only [BitVec.toNat_ofNat]
    omega
  have hD : (BitVec.ofNat 64 cur.length).toNat = cur.length := by
    simp only [BitVec.toNat_ofNat]
    omega
  have hdec : decodePass (passTreeBytes cur) (passPayload cur) cur.length = .ok cur := by
    unfold decodePass
    rw [show parseTree (passTreeBytes cur) = _ from hp]
    simp only
    rw [show (unpackRun tb.node tb.root cur.length (passPayload cur)).err = _ from u2,
      show (unpackRun tb.node tb.root cur.length (passPayload cur)).out = _ from u1]
  unfold decodeRound encodePass frame
  rw [List.append_assoc, parseHeader_headerBytes]
  simp only [hT, hD]
  have hb : Config.headerBytes = 17 := rfl
  rw [if_neg (by simp [headerBytes_length, hb]), hb, List.drop_left' (headerBytes_length e _),
    List.take_left' rfl, List.drop_left' rfl, hdec]
  simp only [continues_depth hd]

end Firmware

end Sys2Proof.Machine
end

