-- ==== Sys2Proof/Tests/Slice0.lean ====
section
/-! SUPPORT. Tests: what the checks of WellFormed refuse, the words of the table written out from `30_encoding.md` rule R91,
one step of each command on the worked examples of the spec, and for every statement with hypotheses a state and operands
that meet them (`witness_<statement>`). -/

namespace Sys2Proof.Tests

open Sys2Proof.Machine

/-! ## Helpers -/

/-- Whether an outcome is a next state with a property. -/
def gives (o : Host.Outcome State Fault Refusal) (p : State → Bool) : Bool :=
  match o with
  | .next t => p t
  | .fault _ => false
  | .refused _ => false

/-- The reset state of a block with unbounded queues. -/
def idle : State := { State.reset with inDepth := .unbounded, outDepth := .unbounded }

/-- The reset state of a block with queues of one byte. -/
def narrow : State := { State.reset with inDepth := .upTo 0, outDepth := .upTo 0 }

/-- The buffer `abacadab` of R112's example. -/
def abacadab : List Byte := [0x61, 0x62, 0x61, 0x63, 0x61, 0x64, 0x61, 0x62]

/-- The counters of R112's example, written out. -/
def exampleFreq : FreqTable := setFreq (setFreq (setFreq (setFreq zeroFreq 0x61 4) 0x62 2) 0x63 1) 0x64 1

/-- After HIST of R112's example. -/
def counted : State := { idle with freq := exampleFreq, total := 8 }

/-- The node table of R121's example, written out. -/
def exampleNodes : NodeTable :=
  setNode (setNode (setNode (setNode (setNode (setNode (setNode noNodes
    97 (Node.mkLeaf 0x61 4)) 98 (Node.mkLeaf 0x62 2)) 99 (Node.mkLeaf 0x63 1)) 100 (Node.mkLeaf 0x64 1))
    256 (Node.mkInner 99 100 2)) 257 (Node.mkInner 98 256 4)) 258 (Node.mkInner 97 257 8)

/-- The code table of R131's example, written out. -/
def exampleCodes : CodeTable :=
  setCode (setCode (setCode (setCode noCodes
    0x61 { valid := true, len := 1, bits := 0b0 }) 0x62 { valid := true, len := 2, bits := 0b10 })
    0x63 { valid := true, len := 3, bits := 0b110 }) 0x64 { valid := true, len := 3, bits := 0b111 }

/-- With the tree of R121's example. -/
def built : State := { counted with node := exampleNodes, root := 258, nnodes := 7 }

/-- With the codes of R131's example. -/
def coded : State := { built with code := exampleCodes }

/-- Queued input and the operand registers. -/
def withInput (s : State) (bs : List Byte) (len count : Word) : State := { s with inq := bs, len := len, count := count }

/-- The serialized tree of R161's example. -/
def exampleSer : List Byte := [0x00, 0x01, 0x61, 0x00, 0x01, 0x62, 0x00, 0x01, 0x63, 0x01, 0x64]

/-- A block in the error state, with a dropped write. -/
def failed : State := { idle with err := true, errCode := 1, errInfo := 9, ovr := true }

/-- A HIST of two bytes that is still waiting for them. -/
def waiting : State := { idle with curCmd := 0x2, lenL := 2, busy := true }

/-! ## Words and decoding -/

/-- R90: a bit in 63:8. -/
theorem test_wellFormed_refuses_reserved : CommandWord.reservedIsZero 0x0000000000000103 = false ∧
    CommandWord.wellFormed 0x8000000000000001 = false := by decide

/-- R94: opcodes 0x00 and 0x09 to 0xFF. -/
theorem test_wellFormed_refuses_opcodes : CommandWord.opcodeIsListed 0x0 = false ∧
    CommandWord.opcodeIsListed 0x9 = false ∧ CommandWord.wellFormed 0xFF = false := by decide

theorem test_wellFormed_takes_listed : CommandWord.wellFormed 0x1 = true ∧ CommandWord.wellFormed 0x8 = true ∧
    Instr.wellFormed .hist = true := by decide

theorem test_decode_clrf :
    decode 0b0000000000000000000000000000000000000000000000000000000000000001 = .ok .clrf := by decide
theorem test_decode_hist :
    decode 0b0000000000000000000000000000000000000000000000000000000000000010 = .ok .hist := by decide
theorem test_decode_build :
    decode 0b0000000000000000000000000000000000000000000000000000000000000011 = .ok .build := by decide
theorem test_decode_gencode :
    decode 0b0000000000000000000000000000000000000000000000000000000000000100 = .ok .gencode := by decide
theorem test_decode_pack :
    decode 0b0000000000000000000000000000000000000000000000000000000000000101 = .ok .pack := by decide
theorem test_decode_unpack :
    decode 0b0000000000000000000000000000000000000000000000000000000000000110 = .ok .unpack := by decide
theorem test_decode_ser :
    decode 0b0000000000000000000000000000000000000000000000000000000000000111 = .ok .ser := by decide
theorem test_decode_deser :
    decode 0b0000000000000000000000000000000000000000000000000000000000001000 = .ok .deser := by decide

/-- R91, R94: named rejections. -/
theorem test_decode_rejects : decode 0x0 = .error .opcodeZero ∧ decode 0x9 = .error .opcodeUnlisted ∧
    decode 0x103 = .error .reservedBits ∧ decode 0x100 = .error .reservedBits := by decide

/-- R63, R71: the bytes of a word, lane 0 first; seven bytes are no word. -/
theorem test_decodeLanes : decodeLanes [3, 0, 0, 0, 0, 0, 0, 0] = .ok .build ∧
    decodeLanes [0, 0, 0, 0, 0, 0, 0, 3] = .error .reservedBits ∧
    decodeLanes [3, 0, 0, 0, 0, 0, 0] = .error .notEightBytes := by decide

theorem test_decodeTableWord : decodeTableWord 64 0x7 = some .ser ∧ decodeTableWord 64 0x107 = none ∧
    decodeTableWord 8 0x8 = some .deser := by decide

/-! ## One step of each command -/

/-- R243: after reset the first step runs the fetched command (CLRF, word 0x1). -/
theorem test_first_step : gives (step (State.reset.withFetchWord 64 0x1)) (fun t => t.done && t.curCmd == 0x1) = true := by
  decide +kernel

/-- R111, example. -/
theorem test_clrf : gives (exec .clrf coded)
    (fun t => freqAt t.freq 0x61 == 0 && t.total == 0 && t.done && t.root == 258 && (codeAt t.code 0x61).valid) = true := by
  decide +kernel

/-- R112, example (V-H1). -/
theorem test_hist : gives (exec .hist (withInput idle abacadab 8 0)) (fun t => t.freq == exampleFreq && t.total == 8) = true := by
  decide +kernel

/-- R112 (V-H6): the check is made at `2^64` exactly. -/
theorem test_hist_overflow :
    gives (exec .hist (withInput counted [] 0xFFFFFFFFFFFFFFF8 0)) (fun t => t.err && t.errCode == 5 && !t.busy) = true ∧
    gives (exec .hist (withInput counted [] 0xFFFFFFFFFFFFFFF7 0)) (fun t => t.busy && !t.err) = true := by decide +kernel

/-- R121, example: the three merges, ROOT and NNODES. -/
theorem test_build : gives (exec .build counted) (fun t =>
    t.treeWord == 0x0000000000070102 && nodeAt t.node 256 == Node.mkInner 99 100 2 &&
    nodeAt t.node 257 == Node.mkInner 98 256 4 && nodeAt t.node 258 == Node.mkInner 97 257 8) = true := by decide +kernel

/-- R124, R36: the empty table; a stale code table is invalidated. -/
theorem test_build_empty : gives (exec .build { coded with freq := zeroFreq })
    (fun t =>
    t.status == 0x12 && codeAt t.code 0x61 == CodeEntry.invalid && nodeAt t.node 97 == Node.invalid &&
    nodeAt t.node 258 == Node.invalid) = true := by decide +kernel

/-- R131, example: the four codes. -/
theorem test_gencode : gives (exec .gencode built) (fun t =>
    codeAt t.code 0x61 == { valid := true, len := 1, bits := 0b0 } &&
    codeAt t.code 0x62 == { valid := true, len := 2, bits := 0b10 } &&
    codeAt t.code 0x63 == { valid := true, len := 3, bits := 0b110 } &&
    codeAt t.code 0x64 == { valid := true, len := 3, bits := 0b111 } &&
    t.regValue (Reg.ofOffset 0x1318) == 0x103 && t.regValue (Reg.ofOffset 0x2C60) == 6) = true := by decide +kernel

/-- R141, example: `4C E8`, two bytes. -/
theorem test_pack : gives (exec .pack (withInput coded abacadab 8 0))
    (fun t => t.outq == [0x4C, 0xE8] && t.outCount == 2 && t.inq == [] && t.done) = true := by decide +kernel

/-- R143: nine one-bit codes, then a byte without a code: one whole byte stays, the pending bit is lost. -/
theorem test_pack_mismatch :
    gives (exec .pack (withInput coded [0x61, 0x61, 0x61, 0x61, 0x61, 0x61, 0x61, 0x61, 0x61, 0x7A] 10 0))
      (fun t => t.outq == [0x00] && t.outCount == 1 && t.errCode == 4 && t.errInfo == 9 && t.inq == []) = true := by
  decide +kernel

/-- R151, example. -/
theorem test_unpack : gives (exec .unpack (withInput built [0x4C, 0xE8] 2 8))
    (fun t => t.outq == abacadab && t.outCount == 8 && t.done) = true := by decide +kernel

/-- R152: "`UNPACK 2, 11`: error, ERRINFO = 10". -/
theorem test_unpack_exhausted : gives (exec .unpack (withInput built [0x4C, 0xE8] 2 11))
    (fun t => t.err && t.errCode == 3 && t.errSub == 2 && t.errInfo == 10 && t.outCount == 10) = true := by decide +kernel

/-- R161, example: 11 bytes. -/
theorem test_ser : gives (exec .ser built) (fun t => t.outq == exampleSer && t.outCount == 11) = true := by decide +kernel

/-- R166, example. -/
theorem test_deser : gives (exec .deser (withInput coded exampleSer 11 0)) (fun t =>
    t.treeWord == 0x0000000000070000 && nodeAt t.node 0 == Node.mkInner 1 2 0 && nodeAt t.node 2 == Node.mkInner 3 4 0 &&
    nodeAt t.node 6 == Node.mkLeaf 0x64 0 && codeAt t.code 0x61 == CodeEntry.invalid && t.done) = true := by decide +kernel

/-- R167: "`00 01 61 07 62` reports BAD_TAG at 3 ...; `01 41 01 41` reports TRAILING at 2". -/
theorem test_deser_errors :
    gives (exec .deser (withInput coded [0x00, 0x01, 0x61, 0x07, 0x62] 5 0))
      (fun t => t.errCode == 2 && t.errSub == 1 && t.errInfo == 3 && t.root == NIL) = true ∧
    gives (exec .deser (withInput coded [0x01, 0x41, 0x01, 0x41] 4 0))
      (fun t => t.errSub == 3 && t.errInfo == 2 && t.inq == []) = true := by decide +kernel

/-- R185, R195: the 19-byte frame of three equal bytes. -/
theorem test_frame : Firmware.encodePass .little [0x41, 0x41, 0x41] 0 =
    [2, 0, 0, 0, 0, 0, 0, 0, 3, 0, 0, 0, 0, 0, 0, 0, 0, 0x01, 0x41] := by decide +kernel

/-- The tree `00 01 61 01 61` as DESER numbers it: two leaves of one value. -/
def twins : State :=
  { idle with
    node := setNode (setNode (setNode noNodes 0 (Node.mkInner 1 2 0)) 1 (Node.mkLeaf 0x61 0)) 2 (Node.mkLeaf 0x61 0),
    root := 0, nnodes := 3 }

/-- An `UNPACK 1, 1` on it that has popped nothing yet. -/
def lookingAhead : State := { twins with curCmd := 0x6, lenL := 1, countL := 1, busy := true }

/-- R70 (c): both values of the bit to come give 0x61, so that it may be pushed before the pop; of two symbols of a tree with
two values nothing is determined. -/
theorem test_lookahead : gives (step { lookingAhead with turns := [[.push]] })
      (fun t => t.outq == [0x61] && t.got == [] && t.busy) = true ∧
    available .unpack { built with curCmd := 0x6, lenL := 1, countL := 2, busy := true } = [] := by decide +kernel

/-- R190 on queues of one byte: the decode pass of R161's tree and R141's payload, and one whose tree is malformed: the class,
and the block reset. -/
theorem test_driver :
    (match Driver.decodePass 200 exampleSer [0x4C, 0xE8] 8 narrow with
      | some (t, .ok out) => out == abacadab && t.outCount == 8 && t.outq == []
      | _ => false) = true ∧
    (match Driver.decodePass 200 [0x07] [0x4C] 1 narrow with
      | some (t, .error x) => x == .malformedTree && !t.err && t.status == 0x10
      | _ => false) = true := by decide +kernel

/-! ## Witnesses: states and operands that meet the hypotheses of the statements -/

/-- The block with a script. -/
def scripted (s : State) (as : List HostAction) : State := { s with script := as }

theorem witness_SoftResetRestoresResetState :
    (scripted failed [.wr (Access.full 0x0008) 0x7]).rst = false ∧ (0x7 : Word).getLsbD 0 = true := by decide

/-- Held in reset, with each of the actions of the statement. -/
def held : State := { idle with rst := true }

theorem witness_ResetInputHoldsResetState :
    (scripted held [.rst false]).rst = true ∧ ResetHeld (scripted held [.rst false]) ∧
    (scripted waiting [.rst true]).script = .rst true :: [] ∧
    (scripted held [.rd (Access.full 0x0000)]).script = .rd (Access.full 0x0000) :: [] :=
  ⟨rfl, fun _ => rfl, rfl, rfl⟩

theorem witness_StepRunsDecodedCommand :
    (scripted idle [.wr (Access.full 0x0018) 0x8]).rst = false ∧ (Access.full 0x0018).off = 0x0018 ∧
    (Access.full 0x0018).size = 8 ∧ (Access.full 0x0018).strobes = 0xFF ∧ decode 0x8 = .ok .deser := by
  exact ⟨rfl, rfl, rfl, rfl, by decide⟩

/-- Each of the three ways to be illegal, at its boundary: bit 8, opcode 0, opcode 9. -/
theorem witness_IllegalWordRaisesError :
    (scripted idle [.wr (Access.full 0x0018) 0x9]).rst = false ∧ idle.busy = false ∧ idle.err = false ∧
    (0x101 : Word).extractLsb' 8 56 ≠ 0 ∧ (0x100 : Word).extractLsb' 0 8 = 0 ∧ (0x0 : Word).extractLsb' 0 8 = 0 ∧
    8 < ((0x9 : Word).extractLsb' 0 8).toNat := by decide

theorem witness_DroppedCommandOnlySetsOvr :
    (scripted failed [.wr (Access.full 0x0018) 0x1]).rst = false ∧ failed.busy = false ∧ failed.err = true ∧
    (scripted waiting [.wr (Access.full 0x0018) 0xFF]).rst = false ∧ waiting.busy = true := by decide

/-- TOTAL + LEN is `2^64 - 1`, the largest sum that HIST takes. -/
theorem witness_AcceptanceLatchesOperands :
    let s : State := { counted with len := 0xFFFFFFFFFFFFFFF7, turns := [[], [.pop]] }
    s.busy = false ∧ s.err = false ∧ s.turns = [] :: [[.pop]] ∧ s.total.toNat + s.len.toNat < 2 ^ 64 := by decide

/-- The ends of the table windows and the first unmapped offsets. -/
theorem witness_RegisterMapIsTheStatedOne :
    (Reg.freq 0xFF).offset = some 0x0FF8 ∧ (Reg.codeLen 0xFF).offset = some 0x17F8 ∧
    (Reg.codeBits 0xFF 3).offset = some 0x3FF8 ∧ (Reg.node 510 1).offset = some 0x5FE8 ∧
    Reg.ofOffset 0x0050 = .unmapped ∧ Reg.ofOffset 0x1800 = .unmapped ∧ Reg.ofOffset 0x5FF0 = .unmapped ∧
    Reg.ofOffset 0x7FF8 = .unmapped := by decide

/-- A legal read, idle and while BUSY: of a register of R61's list, of STATUS, and of one that is exact. -/
theorem witness_ReadsArePureAndExactUnlessBusy :
    (scripted idle [.rd (Access.full 0x7FF8)]).rst = false ∧ idle.busy = false ∧ 0x7FF8 % 8 = 0 ∧ 0x7FF8 ≤ 0x7FF8 ∧
    (Access.full 0x7FF8).size = 8 ∧ waiting.rst = false ∧ waiting.busy = true ∧
    InexactWhileBusy (Reg.ofOffset 0x0FF8) ∧ Reg.ofOffset 0x0010 = .status ∧ Reg.ofOffset 0x0038 = .errInfo :=
  ⟨rfl, rfl, by decide, by decide, rfl, rfl, rfl, .inr (.inr (.inr (.inl ⟨0xFF, by decide⟩))), by decide, by decide⟩

/-- Misaligned, narrow, too high, and (writes) without a strobe; idle and BUSY. -/
theorem witness_IllegalAccessChangesNothing :
    idle.rst = false ∧ idle.busy = false ∧ waiting.rst = false ∧ waiting.busy = true ∧ 0x0014 % 8 ≠ 0 ∧
    (Access.full 0x0014).off = 0x0014 ∧ ({ off := 0x0020, size := 4, strobes := 0xFF } : Access).size ≠ 8 ∧
    0x7FF8 < (Access.full 0x8000).off ∧ ({ off := 0x0020, size := 8, strobes := 0x7F } : Access).strobes ≠ 0xFF := by decide

/-- Each clause: CTRL without SRST, STATUS, LEN, COUNT, the lowest and the highest ignored offsets; idle and
BUSY. -/
theorem witness_RegisterWritesActAsStated :
    idle.rst = false ∧ idle.busy = false ∧ waiting.rst = false ∧ waiting.busy = true ∧ (0x6 : Word).getLsbD 0 = false ∧ 0x0008 % 8 = 0 ∧ 0x0010 % 8 = 0 ∧
    0x0020 % 8 = 0 ∧ 0x0028 % 8 = 0 ∧ 0x0030 % 8 = 0 ∧ 0x7FF8 % 8 = 0 ∧ 0x7FF8 ≤ 0x7FF8 := by decide

theorem ready_idle : Ready idle := ⟨rfl, rfl, rfl⟩

theorem witness_InterruptFollowsDoneAndErr :
    idle.rst = false ∧ Ready { idle with ieDone := true } ∧ ({ idle with ieDone := true } : State).ieDone = true ∧
    idle.err = false := ⟨rfl, ⟨rfl, rfl, rfl⟩, rfl, rfl⟩

/-- The four clauses: room for one byte, none, a byte to take, none; idle and BUSY. -/
theorem witness_PortsAreQueues :
    narrow.rst = false ∧ narrow.busy = false ∧ ({ narrow with curCmd := 0x2, lenL := 2, busy := true } : State).busy = true ∧ within narrow.inDepth (narrow.inq.length + 1) = true ∧
    within narrow.inDepth (({ narrow with inq := [5] } : State).inq.length + 1) = false ∧
    ({ narrow with outq := [7] } : State).outq = 7 :: [] ∧ narrow.outq = [] := by decide

/-- One of two bytes is there. -/
theorem witness_StarvedCommandWaits :
    let s : State := { waiting with inq := [0x61] }
    s.running = some .hist ∧ s.got.length + s.inq.length < inputLen .hist s.lenL := by decide

/-- A SER that has two bytes to push into a queue of one. -/
def blocked : State :=
  { narrow with node := setNode noNodes 0 (Node.mkLeaf 0x41 0), root := 0, nnodes := 1, curCmd := 0x7, busy := true }

theorem blocked_running : blocked.running = some .ser := by decide

theorem witness_UndrainedCommandWaits :
    blocked.running = some .ser ∧ SequencerInv blocked ∧ QueuesFit blocked ∧
    ¬OutTakes blocked
      ((body .ser blocked (blocked.got ++ blocked.inq.take (inputLen .ser blocked.lenL - blocked.got.length))).out.length -
        blocked.sent) := by
  refine ⟨blocked_running, ⟨.inr ⟨.ser, rfl⟩, ?_, fun _ => ⟨.ser, blocked_running, Nat.zero_le _, Nat.zero_le _⟩⟩,
    ⟨rfl, rfl⟩, ?_⟩
  · intro h
    cases h
  · unfold OutTakes
    decide +kernel

/-- The waiting HIST, fed. -/
def fed : State := { waiting with inq := [0x61, 0x62] }

theorem fed_running : fed.running = some .hist := by decide

theorem fed_sequencer : SequencerInv fed :=
  ⟨.inr ⟨.hist, rfl⟩, (fun h => by cases h), fun _ => ⟨.hist, fed_running, Nat.zero_le _, Nat.zero_le _⟩⟩

theorem witness_FedAndDrainedCommandCompletes :
    fed.running = some .hist ∧ SequencerInv fed ∧ fed.turns = [] ∧
    inputLen .hist fed.lenL ≤ fed.got.length + fed.inq.length ∧
    OutTakes fed ((body .hist fed (fed.got ++ fed.inq.take (inputLen .hist fed.lenL - fed.got.length))).out.length - fed.sent) :=
  ⟨fed_running, fed_sequencer, rfl, by decide, rfl⟩

theorem twins_tree : TreeInv twins := by
  have hn : ∀ i : Idx, nodeAt twins.node i =
      if i = 2 then Node.mkLeaf 0x61 0 else if i = 1 then Node.mkLeaf 0x61 0 else if i = 0 then Node.mkInner 1 2 0
      else Node.invalid := by
    intro i
    by_cases h2 : i = 2
    · rw [h2]; exact nodeAt_setNode_same _ _ (by decide)
    · by_cases h1 : i = 1
      · rw [h1]; exact (nodeAt_setNode_ne _ _ (by decide)).trans (nodeAt_setNode_same _ _ (by decide))
      · rw [if_neg h2, if_neg h1]
        refine (nodeAt_setNode_ne _ _ h2).trans ((nodeAt_setNode_ne _ _ h1).trans ?_)
        by_cases h0 : i = 0
        · rw [h0]; exact nodeAt_setNode_same _ _ (by decide)
        · rw [if_neg h0]; exact (nodeAt_setNode_ne _ _ h0).trans (nodeAt_noNodes i)
  refine .inr ⟨.fork 0 (.leaf 1 0x61) (.leaf 2 0x61), rfl, ⟨?_, ?_, ?_⟩, by decide, rfl, ?_⟩
  · rw [hn]; rfl
  · rw [Shape.StandsIn, hn]; rfl
  · rw [Shape.StandsIn, hn]; rfl
  · intro i hi
    simp only [Shape.indices, List.mem_cons, List.mem_append, List.not_mem_nil, or_false, not_or] at hi
    rw [hn, if_neg hi.2.2, if_neg hi.2.1, if_neg hi.1]

/-- R70's premises, with a byte that is due before any is popped. -/
theorem witness_AvailableOutputIsDetermined :
    TreeInv lookingAhead ∧ CodesOfTree lookingAhead ∧ lookingAhead.got.length ≤ inputLen .unpack lookingAhead.lenL ∧
    [(0x61 : Byte)].IsPrefix (available .unpack lookingAhead) :=
  ⟨twins_tree, .inl rfl, by decide, by decide +kernel⟩

theorem witness_InterleavingDoesNotMatter :
    fed.running = some .hist ∧ SequencerInv fed ∧ fed.inDepth = .unbounded ∧ fed.outDepth = .unbounded ∧
    inputLen .hist fed.lenL ≤ fed.got.length + fed.inq.length ∧
    ([EngineMove.pop, .push, .complete, .pop, .complete].foldl engineMove fed).busy = false :=
  ⟨fed_running, fed_sequencer, rfl, rfl, by decide, by decide +kernel⟩

theorem witness_ClrfClearsTheCounters : Ready idle := ready_idle

/-- TOTAL is `2^64 - 9`, all of it in one counter: LEN = 8 is the largest that is taken, LEN = 9 the smallest that is not. -/
theorem witness_HistCountsBytes :
    (let s := withInput { idle with freq := setFreq zeroFreq 0 0xFFFFFFFFFFFFFFF7, total := 0xFFFFFFFFFFFFFFF7 } abacadab 8 0
     Ready s ∧ TotalIsSum s ∧ s.total.toNat + s.len.toNat < 2 ^ 64 ∧ s.len.toNat ≤ s.inq.length) ∧
    (let s := withInput { idle with freq := setFreq zeroFreq 0 0xFFFFFFFFFFFFFFF7, total := 0xFFFFFFFFFFFFFFF7 } [] 9 0
     Ready s ∧ TotalIsSum s ∧ 2 ^ 64 ≤ s.total.toNat + s.len.toNat) := by
  refine ⟨⟨⟨rfl, rfl, rfl⟩, ?_, by decide, by decide⟩, ⟨rfl, rfl, rfl⟩, ?_, by decide⟩ <;>
  · unfold TotalIsSum
    decide +kernel

theorem ready_counted : Ready counted := ⟨rfl, rfl, rfl⟩

theorem counted_total : TotalIsSum counted := by
  unfold TotalIsSum
  decide +kernel

theorem counted_present : present counted.freq = [0x61, 0x62, 0x63, 0x64] := by decide +kernel

theorem witness_BuildReplacesTreeOnly : Ready counted ∧ counted.freq = counted.freq := ⟨ready_counted, rfl⟩

theorem witness_BuildOfNoOrOneSymbol :
    Ready idle ∧ present idle.freq = [] ∧ Ready { idle with freq := setFreq zeroFreq 0xFF 3 } ∧
    present (setFreq zeroFreq 0xFF 3) = [0xFF] :=
  ⟨ready_idle, by decide +kernel, ⟨rfl, rfl, rfl⟩, by decide +kernel⟩

theorem witness_BuildTreeCarriesTheCounts : Ready counted ∧ TotalIsSum counted ∧ present counted.freq ≠ [] :=
  ⟨ready_counted, counted_total, by rw [counted_present]; simp⟩

theorem witness_BuildPlacesNodesAsStated : Ready counted ∧ 2 ≤ (present counted.freq).length :=
  ⟨ready_counted, by rw [counted_present]; simp⟩

/-- Four live leaves. -/
def fourLeaves : Building := { node := exampleNodes, live := [97, 98, 99, 100], k := 0 }

/-- The last merge there can be: two live nodes, 254 merges made. -/
def lastMerge : Building := { node := noNodes, live := [0, 509], k := 254 }

theorem witness_MergeTakesTheTwoSmallestKeys :
    (fourLeaves.live.Nodup ∧ 2 ≤ fourLeaves.live.length ∧ fourLeaves.k < 255 ∧
      ∀ i ∈ fourLeaves.live, i.toNat < 256 + fourLeaves.k) ∧
    (lastMerge.live.Nodup ∧ 2 ≤ lastMerge.live.length ∧ lastMerge.k < 255 ∧
      ∀ i ∈ lastMerge.live, i.toNat < 256 + lastMerge.k) := by decide

theorem witness_BuildIsAnAdmittedMerge : Ready counted ∧ TotalIsSum counted ∧ present counted.freq ≠ [] :=
  witness_BuildTreeCarriesTheCounts

theorem witness_GencodeWritesTheTreePaths : Ready built := ⟨rfl, rfl, rfl⟩

/-- A tree as BUILD leaves it. -/
def builtByModel : State := counted.withTree (buildTree counted.freq)

theorem withTree_tree (s : State) (f : FreqTable) : TreeInv (s.withTree (buildTree f)) := buildTree_stands f

theorem builtByModel_tree : TreeInv builtByModel := withTree_tree counted counted.freq

theorem withTree_root (s : State) (f : FreqTable) (h : present f ≠ []) : (s.withTree (buildTree f)).root ≠ NIL := by
  obtain ⟨sh, hb⟩ := buildTree_some h
  show (buildTree f).root ≠ NIL
  rw [hb.root]
  exact hb.stands.index_ne_NIL

theorem builtByModel_root : builtByModel.root ≠ NIL :=
  withTree_root counted counted.freq (by rw [counted_present]; simp)

theorem ready_builtByModel : Ready builtByModel := ⟨rfl, rfl, rfl⟩

theorem witness_CodesArePrefixFree : Ready builtByModel ∧ TreeInv builtByModel ∧ builtByModel.root ≠ NIL :=
  ⟨ready_builtByModel, builtByModel_tree, builtByModel_root⟩

theorem witness_PackPushesThePayload :
    let s := withInput coded abacadab 8 0
    Ready s ∧ s.len.toNat ≤ s.inq.length ∧ covers s.code (s.inq.take s.len.toNat) = true ∧
    OutTakes s (payloadOfStream (streamOf s.code (s.inq.take s.len.toNat))).length :=
  ⟨⟨rfl, rfl, rfl⟩, by decide, by decide +kernel, rfl⟩

/-- The byte without a code is the last one, after one whole byte of output. -/
theorem witness_PackReportsFirstMissingCode :
    let s := withInput coded [0x63, 0x63, 0x64, 0x7A] 4 0
    Ready s ∧ s.len.toNat ≤ s.inq.length ∧ s.inq.take s.len.toNat = [0x63, 0x63, 0x64] ++ 0x7A :: [] ∧
    covers s.code [0x63, 0x63, 0x64] = true ∧ (codeAt s.code 0x7A).valid = false ∧
    OutTakes s ((streamOf s.code [0x63, 0x63, 0x64]).length / 8) :=
  ⟨⟨rfl, rfl, rfl⟩, by decide, by decide, by decide +kernel, by decide +kernel, rfl⟩

/-- Three symbols out of `4C`, and three from a single leaf with no payload. -/
theorem witness_UnpackEmitsTheLeavesReached :
    (let s := withInput built [0x4C] 1 3
     let cs : List (Byte × List Bool) := [(0x61, [false]), (0x62, [true, false]), (0x61, [false])]
     Ready s ∧ s.len.toNat ≤ s.inq.length ∧ (∀ c ∈ cs, c ∈ s.tree.codes) ∧ cs.length = s.count.toNat ∧
     (cs.flatMap fun c => c.2).IsPrefix (payloadBits (s.inq.take s.len.toNat)) ∧ OutTakes s cs.length) ∧
    (let s := withInput { blocked with busy := false, outDepth := .unbounded } [] 0 3
     let cs : List (Byte × List Bool) := [(0x41, []), (0x41, []), (0x41, [])]
     Ready s ∧ s.len.toNat ≤ s.inq.length ∧ (∀ c ∈ cs, c ∈ s.tree.codes) ∧ cs.length = s.count.toNat ∧
     (cs.flatMap fun c => c.2).IsPrefix (payloadBits (s.inq.take s.len.toNat)) ∧ OutTakes s cs.length) :=
  ⟨⟨⟨rfl, rfl, rfl⟩, by decide, by decide +kernel, by decide, by decide +kernel, rfl⟩,
    ⟨⟨rfl, rfl, rfl⟩, by decide, by decide +kernel, by decide, by decide +kernel, rfl⟩⟩

/-- `FF` is the code of 0x64 twice and two edges of a third walk; no payload at all is a walk that stands at the root. -/
theorem witness_UnpackReportsExhaustedPayload :
    (let s := withInput built [0xFF] 1 3
     let cs : List (Byte × List Bool) := [(0x64, [true, true, true]), (0x64, [true, true, true])]
     Ready s ∧ s.len.toNat ≤ s.inq.length ∧ (∀ c ∈ cs, c ∈ s.tree.codes) ∧ cs.length < s.count.toNat ∧
     payloadBits (s.inq.take s.len.toNat) = (cs.flatMap fun c => c.2) ++ [true, true] ∧
     (∃ v more, more ≠ [] ∧ (v, [true, true] ++ more) ∈ s.tree.codes) ∧ OutTakes s cs.length) ∧
    (let s := withInput built [] 0 1
     Ready s ∧ s.len.toNat ≤ s.inq.length ∧ ([] : List (Byte × List Bool)).length < s.count.toNat ∧
     payloadBits (s.inq.take s.len.toNat) = [] ∧ (∃ v more, more ≠ [] ∧ (v, [] ++ more) ∈ s.tree.codes) ∧ OutTakes s 0) :=
  ⟨⟨⟨rfl, rfl, rfl⟩, by decide, by decide +kernel, by decide, by decide, ⟨0x63, [false], by decide, by decide +kernel⟩, rfl⟩,
    ⟨⟨rfl, rfl, rfl⟩, by decide, by decide, by decide, ⟨0x61, [false], by decide, by decide +kernel⟩, rfl⟩⟩

theorem witness_UnpackOnEmptyTree :
    Ready (withInput idle [0x12] 1 0) ∧ (1 : Word).toNat ≤ (withInput idle [0x12] 1 0).inq.length ∧ idle.root = NIL ∧
    (withInput idle [0x12] 1 0).count = 0 ∧ (withInput idle [0x12] 1 1).count ≠ 0 :=
  ⟨⟨rfl, rfl, rfl⟩, by decide, rfl, rfl, by decide⟩

theorem witness_SerPushesTheSerializedTree : Ready built ∧ OutTakes built built.tree.ser.length := ⟨⟨rfl, rfl, rfl⟩, rfl⟩

/-- The tree of R166's example. -/
def exampleTree : Tree := .fork (.leaf 0x61) (.fork (.leaf 0x62) (.fork (.leaf 0x63) (.leaf 0x64)))

theorem witness_DeserRebuildsTheTree :
    (Ready (withInput idle exampleSer 11 0) ∧ (11 : Word).toNat ≤ exampleSer.length ∧
      exampleSer.take (11 : Word).toNat = exampleTree.ser ∧ exampleTree.full = true ∧ exampleTree.size ≤ 511) ∧
    (idle.len.toNat ≤ idle.inq.length ∧ idle.inq.take idle.len.toNat = Tree.empty.ser ∧ Tree.empty.size ≤ 511) :=
  ⟨⟨⟨rfl, rfl, rfl⟩, by decide, by decide, by decide, by decide⟩, by decide⟩

/-- R167's examples, one per cause but CAPACITY, and a byte owed after a tag. -/
theorem witness_DeserReportsFirstFailure :
    Ready (withInput idle [0x00, 0x01, 0x61, 0x07, 0x62] 5 0) ∧ (5 : Word) ≠ 0 ∧
    firstFailure 1 0 0 [0x00, 0x01, 0x61, 0x07, 0x62] = some (.badTag, 3) ∧
    firstFailure 1 0 0 [0x01, 0x41, 0x01, 0x41] = some (.trailing, 2) ∧
    firstFailure 1 0 0 [0x00] = some (.truncated, 1) ∧ firstFailure 1 0 0 [0x01] = some (.truncated, 1) ∧
    firstFailure 1 766 511 [0x01, 0x00] = some (.capacity, 766) :=
  ⟨⟨rfl, rfl, rfl⟩, by decide, by decide, by decide, by decide, by decide, by decide⟩

/-- A tree that BUILD made, its serialized form as another block's input; and bytes that DESER accepts. -/
theorem witness_SerDeserRoundTrip :
    (∀ x : State, x = builtByModel →
      TreeInv x ∧ Ready x ∧ Ready (withInput idle x.tree.ser (BitVec.ofNat 64 x.tree.ser.length) 0)) ∧
    (let s := withInput idle exampleSer 11 0
     Ready s ∧ s.len.toNat ≤ s.inq.length ∧ gives (exec .deser s) (fun t => !t.err) = true) :=
  ⟨fun _ h => h ▸ ⟨builtByModel_tree, ready_builtByModel, ⟨rfl, rfl, rfl⟩⟩, ⟨rfl, rfl, rfl⟩, by decide, by decide +kernel⟩

theorem empty_tree : TreeInv idle := .inl ⟨rfl, rfl, nodeAt_noNodes⟩

/-- A single leaf, as DESER leaves it. -/
def oneLeaf : State := { idle with node := setNode noNodes 0 (Node.mkLeaf 0x41 0), root := 0, nnodes := 1 }

theorem oneLeaf_tree : TreeInv oneLeaf := by
  refine .inr ⟨.leaf 0 0x41, rfl, ?_, by decide, rfl, ?_⟩
  · show nodeAt (setNode noNodes 0 (Node.mkLeaf 0x41 0)) 0 = Node.mkLeaf 0x41 _
    rw [nodeAt_setNode_same _ _ (by decide)]
    rfl
  · intro i hi
    show nodeAt (setNode noNodes 0 (Node.mkLeaf 0x41 0)) i = Node.invalid
    rw [nodeAt_setNode_ne _ _ (by simpa [Shape.indices] using hi)]
    exact nodeAt_noNodes i

/-- Two bytes of one value: the codes of the single-leaf tree are empty. -/
theorem witness_UnpackUndoesPack :
    Ready oneLeaf ∧ TreeInv oneLeaf ∧ oneLeaf.inDepth = .unbounded ∧ oneLeaf.outDepth = .unbounded ∧ oneLeaf.outq = [] ∧
    [(0x41 : Byte), 0x41].length < 2 ^ 64 ∧
    gives (exec .gencode oneLeaf) (fun g =>
      gives (exec .pack { g with inq := [0x41, 0x41], len := BitVec.ofNat 64 2 }) (fun p =>
        !p.err && decide (p.outq.length < 2 ^ 64))) = true :=
  ⟨⟨rfl, rfl, rfl⟩, oneLeaf_tree, rfl, rfl, rfl, by decide, by decide +kernel⟩

theorem witness_FreshBlockRunsEveryCommand :
    State.reset.softReset = State.reset ∧ State.reset.rst = false ∧ State.reset.turns = [] ∧
    (1 : Word).toNat ≤ [(0x61 : Byte)].length ∧ (1 : Word) ≠ 0 := ⟨rfl, rfl, rfl, by decide, by decide⟩

theorem witness_NoCommandWritesOperandsOrControl : gives (exec .pack (withInput idle [0x61] 1 7)) (fun _ => true) = true := by
  decide

theorem witness_TableCommandsFrame : idle.busy = false ∧
    ([Instr.clrf, .hist, .build, .gencode, .deser].all fun i => gives (exec i idle) fun _ => true) = true := by decide

theorem witness_StreamCommandsFrame : idle.busy = false ∧
    ([Instr.pack, .unpack, .ser].all fun i => gives (exec i idle) fun _ => true) = true := by decide

/-- The error state, with a dropped write behind it and another one to come. -/
theorem witness_OnlyResetLeavesTheErrorState :
    ∃ t, FlagsExclusive (scripted failed [.wr (Access.full 0x0018) 0x1]) ∧
      step (scripted failed [.wr (Access.full 0x0018) 0x1]) = .next t ∧
      resets (scripted failed [.wr (Access.full 0x0018) 0x1]) = false ∧ failed.err = true ∧ failed.ovr = true :=
  ⟨_, by unfold FlagsExclusive; decide, step_eq _, by decide, rfl, rfl⟩

/-- HIST takes its last byte in the step in which the host acknowledges an older completion. -/
theorem witness_BusyEndsInDoneOrError :
    let s := scripted fed [.wr (Access.full 0x0010) 0x2]
    resets s = false ∧ s.busy = true ∧ gives (step s) (fun t => !t.busy && t.done) = true :=
  ⟨by decide, rfl, by decide +kernel⟩

/-- Idle, and a dropped command while BUSY. -/
theorem witness_HostCannotWriteTables :
    (∃ t, (scripted idle [.wr (Access.full 0x0800) 0x1]).busy = false ∧
      step (scripted idle [.wr (Access.full 0x0800) 0x1]) = .next t ∧
      resets (scripted idle [.wr (Access.full 0x0800) 0x1]) = false ∧ (Access.full 0x0800).off ≠ 0x0018) ∧
    ∃ t, (scripted waiting [.wr (Access.full 0x0018) 0x1]).busy = true ∧ waiting.rst = false ∧
      step (scripted waiting [.wr (Access.full 0x0018) 0x1]) = .next t ∧
      resets (scripted waiting [.wr (Access.full 0x0018) 0x1]) = false :=
  ⟨⟨_, rfl, step_eq _, by decide, by decide⟩, _, rfl, rfl, step_eq _, by decide⟩

theorem witness_StepKeepsFlags :
    ∃ t, FlagsExclusive failed ∧ ErrorRecorded failed ∧ step failed = .next t :=
  ⟨_, by unfold FlagsExclusive; decide, ⟨(fun h => by cases h), fun _ => ⟨.illegalCmd, rfl, rfl⟩⟩, step_eq _⟩

theorem witness_StepKeepsTotalTheSum : ∃ t, TotalIsSum counted ∧ HistFits counted ∧ step counted = .next t :=
  ⟨_, counted_total, (fun h => by cases h), step_eq _⟩

theorem witness_StepKeepsTheTree :
    ∃ t, TreeInv builtByModel ∧ builtByModel.root ≠ NIL ∧ step builtByModel = .next t :=
  ⟨_, builtByModel_tree, builtByModel_root, step_eq _⟩

theorem witness_StepKeepsCodesTidy : ∃ t, TreeInv oneLeaf ∧ CodesTidy oneLeaf.code ∧ CodesOfTree oneLeaf ∧
    step (scripted oneLeaf [.wr (Access.full 0x0018) 0x4]) = .next t := by
  refine ⟨_, oneLeaf_tree, fun b => ?_, .inl rfl, step_eq _⟩
  have h : codeAt oneLeaf.code b = CodeEntry.invalid := codeAt_noCodes b
  simp [h, CodeEntry.invalid]

theorem witness_StepKeepsSequencer :
    ∃ t, SequencerInv fed ∧ QueuesFit fed ∧ ResetHeld fed ∧ step fed = .next t :=
  ⟨_, fed_sequencer, ⟨rfl, rfl⟩, (fun h => by cases h), step_eq _⟩

theorem witness_TreeInvariantMeansRuleR33 :
    (TreeInv idle ∧ idle.root = NIL) ∧ TreeInv builtByModel ∧ builtByModel.root ≠ NIL :=
  ⟨⟨empty_tree, rfl⟩, builtByModel_tree, builtByModel_root⟩

theorem witness_BlockRoundTrip :
    Ready idle ∧ idle.outq = [] ∧ idle.outDepth = .unbounded ∧ [(0x41 : Byte)].length < 2 ^ 64 ∧
    (Firmware.passPayload [0x41]).length < 2 ^ 64 :=
  ⟨ready_idle, rfl, rfl, by decide, by decide +kernel⟩

theorem witness_EncodePassScriptDeliversFrameParts :
    Ready idle ∧ idle.rst = false ∧ idle.inq = [] ∧ idle.outq = [] ∧ idle.taken = [] ∧ idle.inDepth = .unbounded ∧
    idle.outDepth = .unbounded ∧ abacadab.length < 2 ^ 64 :=
  ⟨ready_idle, rfl, rfl, rfl, rfl, rfl, rfl, by decide⟩

/-- Queues of one byte and a schedule that holds the engine up; a buffer, and a tree that is malformed. -/
theorem witness_FirmwarePassesRunOnTheBlock :
    let s : State := { narrow with turns := [[], [.pop], [.complete]] }
    s.busy = false ∧ s.err = false ∧ s.rst = false ∧ s.inq = [] ∧ s.outq = [] ∧ [(0x41 : Byte)].length < 2 ^ 64 ∧
    (Firmware.passPayload [0x41]).length < 2 ^ 64 ∧ exampleSer.length < 2 ^ 64 ∧ (8 : Nat) < 2 ^ 64 ∧
    Firmware.decodePass [0x07] [] 0 = .error .malformedTree :=
  ⟨rfl, rfl, rfl, rfl, rfl, by decide, by decide +kernel, by decide, by decide, by decide +kernel⟩

theorem witness_FirmwareRoundTrip : ([] : List Byte).length < 2 ^ 64 ∧ abacadab.length < 2 ^ 64 := by decide

end Sys2Proof.Tests
end

section
/-! PROOFS. Reset (`10_state.md` rule R43): what each register, table and queue of the reset state reads as. -/

namespace Sys2Proof.Machine

/-! ## An invalid entry reads as 0 (R32, R36) -/

@[simp] theorem Node.word0_invalid : Node.invalid.word0 = 0 := by decide

@[simp] theorem Node.invalid_freq : Node.invalid.freq = 0 := rfl

@[simp] theorem CodeEntry.lenWord_invalid : CodeEntry.invalid.lenWord = 0 := by decide

@[simp] theorem CodeEntry.bitsWord_invalid (w : Fin 4) : CodeEntry.invalid.bitsWord w = 0 := by
  simp [CodeEntry.bitsWord, CodeEntry.invalid]

/-! ## The composed words and the interrupt line of the reset state -/

@[simp] theorem State.reset_empty : State.reset.empty = true := rfl

@[simp] theorem State.reset_single : State.reset.single = false := rfl

/-- R22: neither interrupt is enabled. -/
@[simp] theorem State.reset_ctrl : State.reset.ctrl = 0 := by
  simp [State.ctrl]

/-- R23, R38: of all bits of STATUS only EMPTY is set. -/
@[simp] theorem State.reset_status : State.reset.status = 0x10 := by
  simp [State.status, statusWith]

/-- R34: ROOT is NIL in bits 8:0 and NNODES is 0. -/
@[simp] theorem State.reset_treeWord : State.reset.treeWord = 0x1FF := by
  simp [State.treeWord, NIL]

@[simp] theorem State.reset_irq : State.reset.irq = false := by
  simp [State.irq]

/-! ## The tables of the reset state, as registers: every entry of a cleared table is an invalid one or 0 -/

/-- R30, R43: every frequency counter reads 0. -/
theorem State.reset_regValue_freq (b : Byte) : State.reset.regValue (.freq b) = 0 :=
  freqAt_zeroFreq b

/-- R32, R43: both words of every node entry read 0. -/
theorem State.reset_regValue_node (i : Idx) (w : Fin 2) : State.reset.regValue (.node i w) = 0 := by
  simp [State.regValue]

/-- R36, R43: the length word of every code entry reads 0. -/
theorem State.reset_regValue_codeLen (b : Byte) : State.reset.regValue (.codeLen b) = 0 := by
  simp [State.regValue]

/-- R36, R43: the four words of every code read 0. -/
theorem State.reset_regValue_codeBits (b : Byte) (w : Fin 4) : State.reset.regValue (.codeBits b w) = 0 := by
  simp [State.regValue]

/-- Settles O3: the scalar registers are fields of the reset state or the words composed above, and the tables are the
cleared ones, whose entries all read as 0. -/
theorem resetLeavesTheStatedValues : Obligations.ResetLeavesTheStatedValues := by
  unfold Obligations.ResetLeavesTheStatedValues
  exact ⟨rfl, State.reset_ctrl, State.reset_status, State.reset_curCmd, State.reset_len, State.reset_count,
    State.reset_lenL, State.reset_countL, State.reset_outCount, State.reset_errInfo, State.reset_total,
    State.reset_root, State.reset_nnodes, State.reset_treeWord, State.reset_regValue_freq, nodeAt_noNodes,
    State.reset_regValue_node, codeAt_noCodes, State.reset_regValue_codeLen, State.reset_regValue_codeBits,
    State.reset_inq, State.reset_outq, State.reset_irq⟩

end Sys2Proof.Machine
end

section
/-! PROOFS. The encoding's packed payload (`30_encoding.md` rule R96), as PACK pushes it (`43_pack.md` rule R141). -/

namespace Sys2Proof.Machine

/-- R91: opcode 0x05. -/
theorem encode_pack : encode .pack = 0x5 := by decide

/-- R143: with a code for every byte PACK records no error. -/
theorem Packed.error_eq_none {p : Packing} {st : List Bool} (h : Packed p st) : p.error = none := by
  rw [Packing.error, h.err]
  rfl

/-- Settles O34: PACK's variables after the loop stand for the bit stream of the popped bytes (`packRun_covered`), so what
it pushes is the stream's payload and no error is recorded; `exec_pack` says the rest. -/
theorem packPushesThePayload : Obligations.PackPushesThePayload := by
  unfold Obligations.PackPushesThePayload
  intro s hready hfed hcov hroom
  obtain ⟨hpacked, -⟩ := packRun_covered hcov
  have hout := flushed_of_packed hpacked
  rw [exec_pack hready hfed (by rwa [hout]), hout, Body.complete_of_noError hpacked.error_eq_none, encode_pack,
    payloadOfStream_length]

end Sys2Proof.Machine
end

section
/-! PROOFS. The frequency counter (`40_freq.md`): CLRF (rule R111) and HIST (rule R112). -/

namespace Sys2Proof.Machine

/-! ## CLRF -/

/-- R91: opcode 0x01. -/
theorem encode_clrf : encode .clrf = 0x1 := by decide

/-- R111: CLRF reads no input and pushes no output, so on a ready block nothing holds it up. -/
theorem exec_clrf {s : State} (h : Ready s) :
    exec .clrf s = .next
      { s with
        curCmd := encode .clrf, lenL := s.len, countL := s.count, outCount := 0, busy := false, done := true, got := [],
        sent := 0, freq := zeroFreq, total := 0 } := by
  rw [exec_completes (i := .clrf) h (by simp) (Nat.zero_le _) (.inl rfl)]
  simp [body, clrfBody, Body.complete, inputLen, hasLen, State.accept]

/-- Settles O24: `exec_clrf`, with the command word in CUR_CMD and the cleared table written out. -/
theorem clrfClearsTheCounters : Obligations.ClrfClearsTheCounters := by
  unfold Obligations.ClrfClearsTheCounters
  intro s hready
  rw [exec_clrf hready, encode_clrf, zeroFreq]

/-! ## HIST -/

/-- R91: opcode 0x02. -/
theorem encode_hist : encode .hist = 0x2 := by decide

/-- R93 case 3, R112: HIST's issue-time check. -/
theorem issue_hist_overflow {s : State} (hov : 2 ^ 64 ≤ s.total.toNat + s.len.toNat) :
    issue .hist s = s.raise .countOverflow s.len := by
  have hcheck : histOverflows s = true := decide_eq_true hov
  simp [issue, issueHist, hcheck]

/-- R214: on an idle block an error entry writes nothing but ERR, the error fields and DONE. -/
theorem raise_of_idle {s : State} (hidle : s.busy = false) (c : ErrCause) (info : Word) :
    s.raise c info = { s with err := true, errCode := c.code, errSub := c.sub, errInfo := info, done := false } := by
  rw [State.raise, ← hidle]

/-- R112: a refused HIST; the block stays idle, so the engine makes no move after the error entry. -/
theorem exec_hist_overflow {s : State} (h : Ready s) (hov : 2 ^ 64 ≤ s.total.toNat + s.len.toNat) :
    exec .hist s = .next
      { s with
        err := true, errCode := ErrCause.countOverflow.code, errSub := ErrCause.countOverflow.sub, errInfo := s.len,
        done := false } := by
  obtain ⟨hidle, hnoErr, -⟩ := h
  rw [exec_eq, present_idle hidle hnoErr, issue_hist_overflow hov, engineTurn_idle (State.raise_busy ..),
    raise_of_idle hidle]

/-- R112, R31: what the issue-time check is for: neither the addition to TOTAL wraps nor that to a counter, because the
counters' sum is TOTAL. -/
theorem hist_counts_exactly {s : State} {inp : List Byte} (hsum : TotalIsSum s) (hlen : inp.length = s.len.toNat)
    (hfits : s.total.toNat + s.len.toNat < 2 ^ 64) :
    (s.total + s.len).toNat = s.total.toNat + s.len.toNat ∧
      ∀ b, (freqAt (countBytes s.freq inp) b).toNat = (freqAt s.freq b).toNat + inp.count b := by
  have hcounted : freqSum s.freq + inp.length < 2 ^ 64 := by rwa [hlen, ← hsum]
  exact ⟨BitVec.toNat_add_of_lt hfits, (countBytes_spec inp hcounted).2⟩

/-- Settles O25: `exec_hist_overflow` at or above `2^64`; below it `exec_hist`, whose counters and TOTAL are exact by
`hist_counts_exactly`. -/
theorem histCountsBytes : Obligations.HistCountsBytes := by
  unfold Obligations.HistCountsBytes
  intro s hready hsum
  constructor
  · exact fun hov => exec_hist_overflow hready hov
  · intro hfits hfed
    obtain ⟨htotal, hcounters⟩ := hist_counts_exactly hsum (List.length_take_of_le hfed) hfits
    exact ⟨_, _, encode_hist ▸ exec_hist hready hfits hfed, htotal, hcounters⟩

end Sys2Proof.Machine
end

section
/-! PROOFS. The Tree Builder (`41_build.md`): the order of keys and one merge (rules R121, R122), and BUILD of no symbol
and of one symbol (rules R124, R125). -/

namespace Sys2Proof.Machine

/-! ## One merge -/

/-- R122: the order of keys on the frequency words themselves. -/
theorem keyLt_iff_freq (t : NodeTable) (a b : Idx) :
    keyLt t a b = true ↔
      (nodeAt t a).freq.toNat < (nodeAt t b).freq.toNat ∨
        (nodeAt t a).freq = (nodeAt t b).freq ∧ a.toNat < b.toNat := by
  rw [keyLt_iff, BitVec.toNat_inj]

/-- R123: the 255 merges there can be place their nodes at 256 to 510, so each has an entry of the table. -/
theorem mergedIdx_ne_NIL {k : Nat} (hk : k < 255) : BitVec.ofNat 9 (256 + k) ≠ NIL := by
  intro heq
  have htoNat := congrArg BitVec.toNat heq
  rw [BitVec.toNat_ofNat, NIL_toNat] at htoNat
  omega

/-- Settles O30: `mergeOnce_cases` says which two nodes are taken and what is left; the new node's index is not NIL, so
reading it gives the merged node, and every other entry reads as before. -/
theorem mergeTakesTheTwoSmallestKeys : Obligations.MergeTakesTheTwoSmallestKeys := by
  unfold Obligations.MergeTakesTheTwoSmallestKeys
  intro b hnodup htwo hk _
  obtain ⟨x, y, hx, hy, hxy, hxmin, hymin, hmerge⟩ := mergeOnce_cases htwo hnodup
  rw [hmerge]
  refine ⟨x, y, hx, hy, hxy, fun z hz hzx => ?_, fun z hz hzx hzy => ?_, List.perm_append_singleton _ _, rfl,
    nodeAt_setNode_same _ _ (mergedIdx_ne_NIL hk), fun i hi => nodeAt_setNode_ne _ _ hi⟩
  · exact (keyLt_iff_freq ..).mp (hxmin z hz hzx)
  · exact (keyLt_iff_freq ..).mp (hymin z hz hzx hzy)

/-! ## The seeded leaves -/

theorem seedLeaves_k (f : FreqTable) : (seedLeaves f).k = 0 := (seed_spec f allSymbols allSymbols_nodup).1

/-- R123: the leaf of a present symbol stands at the symbol's own index. -/
theorem nodeAt_seedLeaves_leaf {f : FreqTable} {v : Byte} (h : v ∈ present f) :
    nodeAt (seedLeaves f).node (v.setWidth 9) = Node.mkLeaf v (freqAt f v) := by
  obtain ⟨-, -, hleaf, -⟩ := seed_spec f allSymbols allSymbols_nodup
  exact hleaf v (mem_allSymbols v) (mem_present.mp h)

theorem nodeAt_seedLeaves_other {f : FreqTable} {i : Idx} (h : i ∉ (present f).map fun v => v.setWidth 9) :
    nodeAt (seedLeaves f).node i = Node.invalid := by
  obtain ⟨-, -, -, hother⟩ := seed_spec f allSymbols allSymbols_nodup
  exact hother i h

/-! ## No symbol and one symbol -/

/-- R125: with one present symbol the merge loop makes no turn; the tree is the seeded leaf. -/
theorem buildTree_one {f : FreqTable} {v : Byte} (h : present f = [v]) :
    buildTree f = { node := (seedLeaves f).node, root := v.setWidth 9, nnodes := 1 } := by
  have hlive : (seedLeaves f).live = [v.setWidth 9] := by rw [seedLeaves_live, h, List.map_singleton]
  simp [buildTree, mergeLoop, hlive, seedLeaves_k]

/-- Settles O27: BUILD leaves the tree of the frequency table (`exec_build`), which is the empty one with no present symbol
(`buildTree_none`) and the symbol's own seeded leaf with one (`buildTree_one`). -/
theorem buildOfNoOrOneSymbol : Obligations.BuildOfNoOrOneSymbol := by
  unfold Obligations.BuildOfNoOrOneSymbol
  intro s hready
  have hexec := exec_build hready
  obtain ⟨-, hnoErr, -⟩ := hready
  constructor
  · intro hnone
    refine ⟨_, hexec, ?_⟩
    rw [buildTree_none hnone]
    exact ⟨rfl, rfl, nodeAt_noNodes, rfl, rfl, hnoErr⟩
  · intro v hone
    have hleaf : nodeAt (seedLeaves s.freq).node (v.setWidth 9) = Node.mkLeaf v (freqAt s.freq v) :=
      nodeAt_seedLeaves_leaf (by simp [hone])
    refine ⟨_, hexec, ?_⟩
    rw [buildTree_one hone]
    refine ⟨rfl, rfl, ?_, rfl, hleaf, fun i hi => ?_⟩
    · simp [State.single, hleaf, setWidth_ne_NIL]
    · exact nodeAt_seedLeaves_other (by simpa [hone] using hi)

end Sys2Proof.Machine
end

section
/-! PROOFS. GENCODE (`42_gencode.md`): the paths it writes (rule R131), and what makes them a code (rule R136). -/

namespace Sys2Proof.Machine

/-! ## The paths of a tree -/

/-- R130, R132: only a leaf that is itself the root has the empty path. -/
theorem Tree.nil_mem_codes {t : Tree} {v : Byte} : (v, []) ∈ t.codes ↔ t = .leaf v := by
  cases t <;> simp [Tree.codes, eq_comm]

/-- R132, R133: the empty path is the code of a value exactly in the single-leaf tree of that value. -/
theorem Tree.codeOf_eq_nil {t : Tree} {v : Byte} : t.codeOf v = some [] ↔ t = .leaf v := by
  constructor
  · intro hcode
    exact Tree.nil_mem_codes.mp (Tree.codeOf_mem hcode)
  · rintro rfl
    simp [codeOf_leaf]

/-- R136: the code of one value begins no other value's code. -/
theorem Tree.codeOf_prefixFree {t : Tree} {a b : Byte} {p q : List Bool} (hne : a ≠ b) (ha : t.codeOf a = some p)
    (hb : t.codeOf b = some q) : ¬p.IsPrefix q := by
  intro hpre
  have hsame : (a, p) = (b, q) := Tree.codes_prefixFree (Tree.codeOf_mem ha) (Tree.codeOf_mem hb) hpre
  exact hne (congrArg Prod.fst hsame)

/-! ## A code table that holds the paths of a tree -/

/-- R36: up to 255 edges the length field is the number of edges. -/
theorem ofPath_len {p : List Bool} (h : p.length ≤ 255) : (CodeEntry.ofPath (some p)).len.toNat = p.length := by
  simp only [CodeEntry.ofPath, BitVec.toNat_ofNat]
  exact Nat.mod_eq_of_lt (Nat.lt_succ_of_le h)

section
variable {t : Tree} {c : CodeTable} (hc : ∀ b, codeAt c b = CodeEntry.ofPath (t.codeOf b))
include hc

/-- R37: an entry is valid exactly if the tree has a path to a leaf of its value. -/
theorem codeAt_valid_iff_codeOf {b : Byte} : (codeAt c b).valid = true ↔ ∃ p, t.codeOf b = some p := by
  rw [hc, ofPath_valid, Option.isSome_iff_exists]

/-- R37: the symbols with a code are the leaf values. -/
theorem codeAt_valid_iff_mem_leaves {b : Byte} : (codeAt c b).valid = true ↔ b ∈ t.leaves := by
  rw [hc, ofPath_valid, Tree.codeOf_isSome]

/-- R136: the bits of the valid entries are the paths, and paths to two leaves diverge. -/
theorem prefixFree_of_paths (hdepth : t.depth ≤ 255) : PrefixFree c := by
  intro a b hne ha hb
  obtain ⟨p, hp⟩ := (codeAt_valid_iff_codeOf hc).mp ha
  obtain ⟨q, hq⟩ := (codeAt_valid_iff_codeOf hc).mp hb
  rw [hc, hc, hp, hq, codeBits_ofPath (codeOf_length_le hdepth hp), codeBits_ofPath (codeOf_length_le hdepth hq)]
  exact Tree.codeOf_prefixFree hne hp hq

/-- R132: a code has length 0 exactly if its leaf is the root. -/
theorem codeAt_len_eq_zero (hdepth : t.depth ≤ 255) {b : Byte} (hb : (codeAt c b).valid = true) :
    (codeAt c b).len = 0 ↔ t = .leaf b := by
  obtain ⟨p, hp⟩ := (codeAt_valid_iff_codeOf hc).mp hb
  calc (codeAt c b).len = 0
      ↔ (CodeEntry.ofPath (some p)).len.toNat = 0 := by rw [hc, hp, ← BitVec.toNat_inj]; rfl
    _ ↔ p = [] := by rw [ofPath_len (codeOf_length_le hdepth hp), List.length_eq_zero_iff]
    _ ↔ t.codeOf b = some [] := by rw [hp, Option.some_inj]
    _ ↔ t = .leaf b := Tree.codeOf_eq_nil

end

/-! ## GENCODE -/

/-- R91: opcode 0x04. -/
theorem encode_gencode : encode .gencode = 0x4 := by decide

/-- Settles O32: `exec_gencode` leaves the walk's table, and `codeAt_genCodes` says that its entries are the tree's paths. -/
theorem gencodeWritesTheTreePaths : Obligations.GencodeWritesTheTreePaths := by
  unfold Obligations.GencodeWritesTheTreePaths
  intro s hready
  exact ⟨genCodes s.node s.root, encode_gencode ▸ exec_gencode hready, codeAt_genCodes s.node s.root⟩

/-- Settles O33: the table GENCODE leaves holds the paths of a tree that is at most 255 edges deep (`TreeStands.depth_le`),
so the facts about such tables apply. -/
theorem codesArePrefixFree : Obligations.CodesArePrefixFree := by
  unfold Obligations.CodesArePrefixFree
  intro s hready htree
  have hpaths : ∀ b, codeAt (genCodes s.node s.root) b = CodeEntry.ofPath (s.tree.codeOf b) :=
    codeAt_genCodes s.node s.root
  have hdepth : s.tree.depth ≤ 255 := htree.depth_le
  exact ⟨_, exec_gencode hready, prefixFree_of_paths hpaths hdepth, fun _ => codeAt_valid_iff_mem_leaves hpaths,
    fun _ => codeAt_len_eq_zero hpaths hdepth⟩

end Sys2Proof.Machine
end

section
/-! PROOFS. UNPACK (`44_unpack.md`): the empty tree (rule R155). -/

namespace Sys2Proof.Machine

/-- R91: opcode 0x06. -/
theorem encode_unpack : encode .unpack = 0x6 := by decide

/-! ## The empty tree -/

/-- R155, R212: the error recorded is decided by COUNT alone; no symbol is emitted before it. -/
theorem unpackRun_empty_error (t : NodeTable) (count : Word) (payload : List Byte) :
    (unpackRun t NIL count.toNat payload).error = if count = 0 then none else some (.missingChild, 0) := by
  obtain ⟨-, herr⟩ := unpackRun_empty t count.toNat payload
  have hzero : count.toNat = 0 ↔ count = 0 := BitVec.toNat_inj (y := 0)
  simp only [Unpacking.error, herr, hzero]
  split
  · rfl
  · rfl

/-- R155: UNPACK pushes nothing, so it asks for no room in OUT. -/
theorem exec_unpack_empty {s : State} (h : Ready s) (hl : s.len.toNat ≤ s.inq.length) (hroot : s.root = NIL) :
    exec .unpack s = .next
      (Body.complete
        { after := { s with
            curCmd := encode .unpack, lenL := s.len, countL := s.count, done := false, inq := s.inq.drop s.len.toNat },
          out := [],
          err := if s.count = 0 then none else some (.missingChild, 0) }) := by
  obtain ⟨hout, -⟩ := unpackRun_empty s.node s.count.toNat (s.inq.take s.len.toNat)
  rw [exec_unpack h hl (.inl (hroot ▸ hout)), hroot, hout, unpackRun_empty_error, List.append_nil]

/-- Settles O38: `exec_unpack_empty`, completed without an error or with MISSING_CHILD. -/
theorem unpackOnEmptyTree : Obligations.UnpackOnEmptyTree := by
  unfold Obligations.UnpackOnEmptyTree
  intro s hready hfed hroot
  rw [exec_unpack_empty hready hfed hroot, encode_unpack]
  constructor
  · intro hzero
    rw [Body.complete_of_noError (if_pos hzero), hzero]
    rfl
  · intro hne
    rw [Body.complete_of_error (if_neg hne)]
    rfl

end Sys2Proof.Machine
end

section
/-! PROOFS. The tree serializer and deserializer (`45_treeser.md`): SER (rule R161), DESER of a serialized tree (rules R170,
R172) and of other bytes (rules R167, R168). -/

namespace Sys2Proof.Machine

/-! ## SER -/

/-- R91: opcode 0x07. -/
theorem encode_ser : encode .ser = 0x7 := by decide

/-- Settles O39: `exec_ser`, which rests on the walk emitting the serialized form of the tree (`emitTree_eq_ser`), with the
command word in CUR_CMD written out. -/
theorem serPushesTheSerializedTree : Obligations.SerPushesTheSerializedTree := by
  unfold Obligations.SerPushesTheSerializedTree
  intro s hready hroom
  rw [exec_ser hready hroom, encode_ser]

/-! ## DESER, by the parser's answer -/

/-- R91: opcode 0x08. -/
theorem encode_deser : encode .deser = 0x8 := by decide

/-- R166: DESER of bytes that the parser accepts. -/
theorem exec_deser_ok {s : State} {t : TreeTable} (h : Ready s) (hl : s.len.toNat ≤ s.inq.length)
    (ht : parseTree (s.inq.take s.len.toNat) = .ok t) :
    exec .deser s = .next
      { s with
        curCmd := 0x8, lenL := s.len, countL := s.count, outCount := 0, busy := false, done := true, got := [],
        sent := 0, inq := s.inq.drop s.len.toNat, node := t.node, root := t.root, nnodes := t.nnodes,
        code := noCodes } := by
  rw [exec_deser h hl, ht, encode_deser]

/-- R168: DESER of bytes that the parser refuses; every refusal is of class MALFORMED_TREE, which is 2. -/
theorem exec_deser_error {s : State} {e : ErrCause × Nat} (h : Ready s) (hl : s.len.toNat ≤ s.inq.length)
    (he : parseTree (s.inq.take s.len.toNat) = .error e) :
    exec .deser s = .next
      { s with
        curCmd := 0x8, lenL := s.len, countL := s.count, outCount := 0, busy := false, done := false, got := [],
        sent := 0, inq := s.inq.drop s.len.toNat, node := noNodes, root := NIL, nnodes := 0, code := noCodes,
        err := true, errCode := 2, errSub := e.1.sub, errInfo := BitVec.ofNat 64 e.2 } := by
  have hcode : e.1.code = 2 := parseTree_error_code he
  rw [exec_deser h hl, he, encode_deser]
  simp only [hcode]

/-! ## DESER of a serialized tree -/

/-- R33: a full tree has an odd number of nodes. -/
theorem Tree.size_odd_of_full {t : Tree} (h : t.full = true) : t.size % 2 = 1 := by
  have hsize := Tree.size_of_full h
  omega

/-- R170, R172: a table that holds exactly a tree's nodes, in pre-order from entry 0, with all frequencies 0. -/
structure HoldsInPreorder (t : TreeTable) (tr : Tree) : Prop where
  tree : treeOf t.node t.root = tr
  nnodes : t.nnodes.toNat = tr.size
  root : tr ≠ .empty → t.root = 0 ∧ t.nnodes.toNat % 2 = 1
  entries : ∀ i, (nodeAt t.node i).freq = 0 ∧ ((nodeAt t.node i).valid = true ↔ i.toNat < tr.size)
  children : ∀ i, (nodeAt t.node i).valid = true → (nodeAt t.node i).leaf = false →
    (nodeAt t.node i).left.toNat = i.toNat + 1 ∧
      (nodeAt t.node i).right.toNat = i.toNat + 1 + (treeOf t.node (nodeAt t.node i).left).size

theorem holdsInPreorder_none : HoldsInPreorder TreeTable.none .empty where
  tree := rfl
  nnodes := rfl
  root hne := absurd rfl hne
  entries i := by simp [TreeTable.none, Tree.size, Node.invalid]
  children i hvalid := by simp [TreeTable.none, Node.invalid] at hvalid

/-- R172: every entry below the tree's size is valid, and the children of an internal one follow it in pre-order. -/
theorem ParsedWhole.entry {inp : List Byte} {t : TreeTable} {tr : Tree} (h : ParsedWhole inp t tr) {i : Idx}
    (hi : i.toNat < tr.size) :
    (nodeAt t.node i).valid = true ∧
      ((nodeAt t.node i).leaf = false → (nodeAt t.node i).left.toNat = i.toNat + 1 ∧
        (nodeAt t.node i).right.toNat = i.toNat + 1 + (treeOf t.node (nodeAt t.node i).left).size) := by
  rw [← Nat.zero_add tr.size] at hi
  exact numbered_children h.full (by simpa using h.size) h.stands i (Nat.zero_le _) hi

/-- The parser fills exactly the entries below the tree's size. -/
theorem ParsedWhole.valid_iff {inp : List Byte} {t : TreeTable} {tr : Tree} (h : ParsedWhole inp t tr) (i : Idx) :
    (nodeAt t.node i).valid = true ↔ i.toNat < tr.size := by
  constructor
  · intro hvalid
    by_contra hge
    rw [h.others i (not_lt.mp hge)] at hvalid
    contradiction
  · exact fun hlt => (h.entry hlt).1

theorem ParsedWhole.holdsInPreorder {inp : List Byte} {t : TreeTable} {tr : Tree} (h : ParsedWhole inp t tr) :
    HoldsInPreorder t tr where
  tree := h.treeOf_eq
  nnodes := h.nnodes
  root _ := ⟨h.root, h.nnodes ▸ Tree.size_odd_of_full h.full⟩
  entries i := ⟨h.zero i, h.valid_iff i⟩
  children i hvalid := (h.entry ((h.valid_iff i).mp hvalid)).2

/-- R170, R172: the parser's answer to the serialized form of a tree that fits. -/
theorem parseTree_ser_holdsInPreorder {tr : Tree} (h : tr = .empty ∨ tr.full = true) (hs : tr.size ≤ 511) :
    ∃ t, parseTree tr.ser = .ok t ∧ HoldsInPreorder t tr := by
  rcases h with rfl | hfull
  · exact ⟨_, parseTree_nil, holdsInPreorder_none⟩
  · obtain ⟨t, hparse, hwhole⟩ := parseTree_ser hfull hs
    exact ⟨t, hparse, hwhole.holdsInPreorder⟩

/-- Settles O40: the parser accepts the serialized form and builds the tree in pre-order (`parseTree_ser_holdsInPreorder`),
and DESER leaves what the parser built (`exec_deser_ok`). -/
theorem deserRebuildsTheTree : Obligations.DeserRebuildsTheTree := by
  unfold Obligations.DeserRebuildsTheTree
  intro s tr hready hfed hbytes hfull hsize
  obtain ⟨t, hparse, hpre⟩ := parseTree_ser_holdsInPreorder hfull hsize
  rw [← hbytes] at hparse
  exact ⟨t.node, t.root, t.nnodes, exec_deser_ok hready hfed hparse, hpre.tree, hpre.nnodes, hpre.root, hpre.entries,
    hpre.children⟩

/-! ## DESER of other bytes -/

/-- R167: bytes with a failure are refused, with the first one in stream order. -/
theorem parseTree_eq_error {inp : List Byte} {e : ErrCause × Nat} (hne : inp ≠ [])
    (hfail : firstFailure 1 0 0 inp = some e) : parseTree inp = .error e := by
  obtain ⟨herror, hok⟩ := parseTree_spec inp hne
  cases hparse : parseTree inp with
  | error e' => rw [Option.some_inj.mp ((herror e' hparse).symm.trans hfail)]
  | ok t =>
    obtain ⟨hnone, -⟩ := hok t hparse
    rw [hnone] at hfail
    contradiction

/-- Settles O41: the bytes popped are not empty, so the parser refuses them with the first failure (`parseTree_eq_error`),
and DESER keeps no tree (`exec_deser_error`). -/
theorem deserReportsFirstFailure : Obligations.DeserReportsFirstFailure := by
  unfold Obligations.DeserReportsFirstFailure
  intro s c off hready hfed hlen hfail
  have hne : s.inq.take s.len.toNat ≠ [] := by
    have hpos : s.len.toNat ≠ 0 := fun hzero => hlen (BitVec.eq_of_toNat_eq hzero)
    rw [← List.length_pos_iff, List.length_take_of_le hfed]
    exact Nat.pos_of_ne_zero hpos
  exact exec_deser_error hready hfed (parseTree_eq_error hne hfail)

end Sys2Proof.Machine
end

section
/-! PROOFS. Encoding and decoding undo each other on the block and in the firmware: SER and DESER (`45_treeser.md` rule R171),
PACK and UNPACK (`44_unpack.md` rule R156), the two command sequences (`00_scope.md` rule R19) and the pass loops
(`49_firmware_protocol.md` rules R186, R189, R192). -/

namespace Sys2Proof.Machine

/-! ## SER and DESER -/

/-- R131: the code table depends on the tree alone, not on where its nodes stand. -/
theorem genCodes_eq_of_treeOf_eq {t u : NodeTable} {r q : Idx} (h : treeOf t r = treeOf u q) :
    genCodes t r = genCodes u q :=
  codeTable_ext fun b => by rw [codeAt_genCodes, codeAt_genCodes, h]

/-- R171: bytes that the parser accepts are the serialized form of the tree it builds. -/
theorem ser_treeOf_of_parseTree_ok {inp : List Byte} {t : TreeTable} (h : parseTree inp = .ok t) :
    (treeOf t.node t.root).ser = inp := by
  by_cases hnil : inp = []
  · subst hnil
    cases h
    rfl
  · obtain ⟨-, tr, hwhole⟩ := (parseTree_spec inp hnil).2 t h
    rw [hwhole.treeOf_eq, hwhole.bytes]

/-- R33: the tree of a good table is one that DESER accepts. -/
theorem TreeStands.full_and_fits {t : NodeTable} {root nnodes : Idx} (h : TreeStands t root nnodes) :
    (treeOf t root = .empty ∨ (treeOf t root).full = true) ∧ (treeOf t root).size ≤ 511 := by
  rcases h.tree_cases with ⟨-, hempty⟩ | ⟨-, hfull, hsize, -, -⟩
  · rw [hempty]
    exact ⟨.inl rfl, Nat.zero_le _⟩
  · exact ⟨.inr hfull, hsize⟩

/-- R97, R33: the serialized form of a good table's tree is short, so that LEN can say its length. -/
theorem TreeStands.ser_length_lt {t : NodeTable} {root nnodes : Idx} (h : TreeStands t root nnodes) :
    (treeOf t root).ser.length < 2 ^ 64 := by
  obtain ⟨hempty | hfull, hsize⟩ := h.full_and_fits
  · simp [hempty, Tree.ser]
  · have hser := Tree.ser_length_of_full hfull
    have hnodes := Tree.size_of_full hfull
    omega

/-- The length of a buffer that LEN can say, read back from LEN. -/
theorem toNat_ofNat_length {bs : List Byte} (h : bs.length < 2 ^ 64) : (BitVec.ofNat 64 bs.length).toNat = bs.length :=
  Nat.mod_eq_of_lt h

/-- R168: a DESER that ends without an error has been given bytes that the parser accepts. -/
theorem parseTree_ok_of_exec_deser {s t : State} (h : Ready s) (hl : s.len.toNat ≤ s.inq.length)
    (hexec : exec .deser s = .next t) (herr : t.err = false) : ∃ tb, parseTree (s.inq.take s.len.toNat) = .ok tb := by
  cases hparse : parseTree (s.inq.take s.len.toNat) with
  | ok tb => exact ⟨tb, rfl⟩
  | error e =>
    rw [exec_deser_error h hl hparse] at hexec
    cases hexec
    cases herr

/-- Settles O42: what the parser makes of a good tree's serialized form is that tree (`parseTree_ser_holdsInPreorder`), and
what it accepts is the serialized form of what it makes (`ser_treeOf_of_parseTree_ok`); the code table depends on the tree
alone. -/
theorem serDeserRoundTrip : Obligations.SerDeserRoundTrip := by
  unfold Obligations.SerDeserRoundTrip
  constructor
  · intro s d htree hready hin hlen
    obtain ⟨hfull, hsize⟩ := htree.full_and_fits
    obtain ⟨tb, hparse, hpre⟩ := parseTree_ser_holdsInPreorder hfull hsize
    have hlenNat : d.len.toNat = d.inq.length := by
      rw [hlen, hin]
      exact toNat_ofNat_length htree.ser_length_lt
    have hbytes : d.inq.take d.len.toNat = s.tree.ser := by rw [hlenNat, List.take_length, hin]
    refine ⟨_, exec_deser_ok hready hlenNat.le (hbytes ▸ hparse), hready.2.1, hpre.tree, _,
      exec_gencode ⟨rfl, hready.2.1, hready.2.2⟩, fun hs => ⟨_, exec_gencode hs, genCodes_eq_of_treeOf_eq hpre.tree⟩⟩
  · intro s t hready hfed hexec herr
    obtain ⟨tb, hparse⟩ := parseTree_ok_of_exec_deser hready hfed hexec herr
    have hser := ser_treeOf_of_parseTree_ok hparse
    rw [exec_deser_ok hready hfed hparse] at hexec
    cases hexec
    refine ⟨hser, fun hroom => ⟨_, exec_ser ⟨rfl, herr, hready.2.2⟩ hroom, ?_⟩⟩
    exact congrArg (s.outq ++ ·) hser

/-! ## PACK and UNPACK -/

/-- R64, R65: a queue without a bound takes any number of bytes. -/
theorem outTakes_of_unbounded {s : State} (h : s.outDepth = .unbounded) (n : Nat) : OutTakes s n := by
  simp [OutTakes, h, within]

/-- R143: PACK records no error only if every byte has a code. -/
theorem covers_of_error_eq_none {c : CodeTable} {bs : List Byte} (h : (packRun c bs).error = none) : covers c bs = true :=
  covers_of_no_error (Option.map_eq_none_iff.mp h)

/-- R141, R96: PACK of a whole queue whose bytes all have codes. -/
theorem exec_pack_whole {s : State} (h : Ready s) (hl : s.len.toNat = s.inq.length) (hout : s.outDepth = .unbounded)
    (hcov : covers s.code s.inq = true) :
    exec .pack s = .next
      { s with
        curCmd := encode .pack, lenL := s.len, countL := s.count,
        outCount := BitVec.ofNat 64 (payloadOfStream (streamOf s.code s.inq)).length, busy := false, done := true,
        got := [], sent := 0, inq := [], outq := s.outq ++ payloadOfStream (streamOf s.code s.inq) } := by
  have hpacked := (packRun_covered hcov).1
  rw [exec_pack h hl.le (outTakes_of_unbounded hout _), hl, List.take_length, List.drop_length, flushed_of_packed hpacked,
    Body.complete_of_noError hpacked.error_eq_none]

/-- R151, R156: UNPACK of a whole queue that holds the payload of a buffer under the codes of the block's tree. -/
theorem exec_unpack_payload {s : State} {d : CodeTable} {buf : List Byte} (h : Ready s) (hout : s.outDepth = .unbounded)
    (hd : s.tree.depth ≤ 255) (hc : ∀ b, codeAt d b = CodeEntry.ofPath (s.tree.codeOf b)) (hcov : covers d buf = true)
    (hin : s.inq = payloadOfStream (streamOf d buf)) (hl : s.len.toNat = s.inq.length) (hn : s.count.toNat = buf.length) :
    exec .unpack s = .next
      { s with
        curCmd := encode .unpack, lenL := s.len, countL := s.count, outCount := BitVec.ofNat 64 buf.length, busy := false,
        done := true, got := [], sent := 0, inq := [], outq := s.outq ++ buf } := by
  obtain ⟨hrun, herr⟩ := unpackRun_payload (tn := s.node) (root := s.root) hd hc hcov
  have herror : (unpackRun s.node s.root buf.length (payloadOfStream (streamOf d buf))).error = none := by
    rw [Unpacking.error, herr]
    rfl
  rw [exec_unpack h hl.le (.inr (outTakes_of_unbounded hout _)), hl, List.take_length, List.drop_length, hn, hin, hrun,
    Body.complete_of_noError herror]

/-- Two names of the next state are one. -/
theorem next_inj {o : Host.Outcome State Fault Refusal} {t u : State} (ht : o = .next t) (hu : o = .next u) : t = u :=
  Host.Outcome.next.inj (ht.symm.trans hu)

/-- Settles O43: PACK without an error has covered the buffer, so that it pushed the payload of the buffer's codes
(`exec_pack_whole`), which are the tree's paths; UNPACK follows them back (`exec_unpack_payload`). -/
theorem unpackUndoesPack : Obligations.UnpackUndoesPack := by
  unfold Obligations.UnpackUndoesPack
  intro s g p buf hready htree _ hout houtq hlen hg hp herr hplen
  have hgen := next_inj hg (exec_gencode hready)
  obtain ⟨-, hnoErr, hturns⟩ := hready
  have hcode : g.code = genCodes s.node s.root := by rw [hgen]
  have hgTree : g.tree = s.tree := by rw [hgen]; rfl
  have hgOut : g.outDepth = .unbounded := by rw [hgen]; exact hout
  have hgOutq : g.outq = [] := by rw [hgen]; exact houtq
  have hgReady : Ready g := by rw [hgen]; exact ⟨rfl, hnoErr, hturns⟩
  clear hgen hg
  have hlenNat := toNat_ofNat_length hlen
  have hpacking := next_inj hp
    (exec_pack (s := { g with inq := buf, len := BitVec.ofNat 64 buf.length }) hgReady hlenNat.le
      (outTakes_of_unbounded hgOut _))
  have hcov : covers g.code buf = true := by
    rw [hpacking, Body.complete_err, Bool.or_eq_false_iff, Option.isSome_eq_false_iff, Option.isNone_iff_eq_none] at herr
    have herror := covers_of_error_eq_none herr.1
    rwa [show (BitVec.ofNat 64 buf.length).toNat = buf.length from hlenNat, List.take_length] at herror
  have hpOut : p.outq = payloadOfStream (streamOf g.code buf) := by
    rw [next_inj hp (exec_pack_whole (s := { g with inq := buf, len := BitVec.ofNat 64 buf.length }) hgReady hlenNat hgOut
      hcov)]
    exact congrArg (· ++ payloadOfStream (streamOf g.code buf)) hgOutq
  refine ⟨_, exec_unpack_payload
    (s := { g with inq := p.outq, len := BitVec.ofNat 64 p.outq.length, count := BitVec.ofNat 64 buf.length })
    hgReady hgOut ?_ ?_ hcov hpOut (toNat_ofNat_length hplen) hlenNat, ?_, hgReady.2.1, rfl⟩
  · exact hgTree ▸ htree.depth_le
  · rw [hcode]
    exact hgTree ▸ codeAt_genCodes s.node s.root
  · exact congrArg (· ++ buf) hgOutq

/-! ## The command sequences of a pass -/

theorem payload_eq_passPayload {buf : List Byte} (hcov : covers (Firmware.passCodes buf) buf = true) :
    payloadOfStream (streamOf (Firmware.passCodes buf) buf) = Firmware.passPayload buf :=
  (flushed_of_packed (packRun_covered hcov).1).symm

/-- R112, R126, R135: a pass's codes cover the buffer they were counted from. -/
theorem covers_passCodes {buf : List Byte} (hlen : buf.length < 2 ^ 64) : covers (Firmware.passCodes buf) buf = true :=
  covers_of_counted (codeAt_genCodes _ _) (counted_ne_zero hlen)

/-- R97, R185: what SER pushes in a pass. -/
theorem ser_passTree (buf : List Byte) :
    (treeOf (Firmware.passTree buf).node (Firmware.passTree buf).root).ser = Firmware.passTreeBytes buf :=
  (serialize_eq_ser _ _).symm

/-- R93: a command write always has a next state. -/
theorem exec_goes_on (i : Instr) (s : State) : ∃ t, exec i s = .next t := ⟨_, exec_eq i s⟩

/-- R19, R185: CLRF, HIST, BUILD, GENCODE on a ready block leave the tree and the codes of the firmware's pure pass. -/
theorem exec_count_and_build {s : State} {buf : List Byte} (h : Ready s) (hin : s.inq = buf)
    (hl : s.len.toNat = buf.length) :
    ∃ s1 s2 s3 s4, exec .clrf s = .next s1 ∧ exec .hist s1 = .next s2 ∧ exec .build s2 = .next s3 ∧
      exec .gencode s3 = .next s4 ∧ Ready s4 ∧ s4.node = (Firmware.passTree buf).node ∧
      s4.root = (Firmware.passTree buf).root ∧ s4.code = Firmware.passCodes buf ∧ s4.len = s.len ∧
      s4.outDepth = s.outDepth ∧ s4.outq = s.outq := by
  obtain ⟨s1, h1⟩ := exec_goes_on .clrf s
  obtain ⟨s2, h2⟩ := exec_goes_on .hist s1
  obtain ⟨s3, h3⟩ := exec_goes_on .build s2
  obtain ⟨s4, h4⟩ := exec_goes_on .gencode s3
  have e1 := next_inj h1 (exec_clrf h)
  have r1 : Ready s1 := by rw [e1]; exact ⟨rfl, h.2⟩
  have f1 : s1.freq = zeroFreq ∧ s1.inq = buf ∧ s1.len = s.len := by rw [e1]; exact ⟨rfl, hin, rfl⟩
  have hfits : s1.total.toNat + s1.len.toNat < 2 ^ 64 := by
    rw [e1]
    exact (Nat.zero_add _).symm ▸ s.len.isLt
  have e2 := next_inj h2 (exec_hist r1 hfits (by rw [f1.2.1, f1.2.2, hl]))
  have r2 : Ready s2 := by rw [e2]; exact ⟨rfl, r1.2⟩
  have f2 : s2.freq = countBytes zeroFreq buf := by
    rw [e2, f1.1, f1.2.1, f1.2.2, hl, List.take_length]
  have e3 := next_inj h3 (exec_build r2)
  rw [f2] at e3
  have r3 : Ready s3 := by rw [e3]; exact ⟨rfl, r2.2⟩
  have e4 := next_inj h4 (exec_gencode r3)
  refine ⟨s1, s2, s3, s4, h1, h2, h3, h4, ?_, ?_, ?_, ?_, ?_, ?_, ?_⟩
  · rw [e4]; exact ⟨rfl, r3.2⟩
  · rw [e4, e3]; rfl
  · rw [e4, e3]; rfl
  · rw [e4, e3]; rfl
  · rw [e4, e3, e2, e1]
  · rw [e4, e3, e2, e1]
  · rw [e4, e3, e2, e1]

/-- R185: on the block that a pass has counted and built, PACK and SER push the pass's payload and tree bytes. -/
theorem exec_pack_and_ser {s : State} {buf : List Byte} (h : Ready s) (hlen : s.len.toNat = buf.length)
    (hout : s.outDepth = .unbounded) (houtq : s.outq = []) (hnode : s.node = (Firmware.passTree buf).node)
    (hroot : s.root = (Firmware.passTree buf).root) (hcode : s.code = Firmware.passCodes buf) :
    ∃ t u, exec .pack { s with inq := buf } = .next t ∧ exec .ser { t with outq := [] } = .next u ∧
      t.outq = Firmware.passPayload buf ∧ u.outq = Firmware.passTreeBytes buf ∧ u.err = false := by
  have hcov := covers_passCodes (hlen ▸ s.len.isLt)
  obtain ⟨t, ht⟩ := exec_goes_on .pack { s with inq := buf }
  obtain ⟨u, hu⟩ := exec_goes_on .ser { t with outq := [] }
  have et := next_inj ht (exec_pack_whole (s := { s with inq := buf }) h hlen hout (hcode ▸ hcov))
  have hready : Ready t := by rw [et]; exact ⟨rfl, h.2⟩
  have eu := next_inj hu (exec_ser (s := { t with outq := [] }) hready (outTakes_of_unbounded (by rw [et]; exact hout) _))
  refine ⟨t, u, ht, hu, ?_, ?_, ?_⟩
  · rw [et, ← payload_eq_passPayload hcov, ← hcode]
    exact congrArg (· ++ _) houtq
  · rw [eu, ← ser_passTree buf, ← hnode, ← hroot, et]
    rfl
  · rw [eu]
    exact hready.2.1

/-- R166: DESER of a whole queue that the parser accepts. -/
theorem exec_deser_whole {s : State} {t : TreeTable} (h : Ready s) (hl : s.len.toNat = s.inq.length)
    (ht : parseTree s.inq = .ok t) :
    exec .deser s = .next
      { s with
        curCmd := 0x8, lenL := s.len, countL := s.count, outCount := 0, busy := false, done := true, got := [],
        sent := 0, inq := [], node := t.node, root := t.root, nnodes := t.nnodes, code := noCodes } := by
  rw [exec_deser_ok h hl.le (by rwa [hl, List.take_length]), hl, List.drop_length]

/-- R190: DESER and UNPACK of a pass's two outputs give the buffer back. -/
theorem exec_deser_and_unpack {s : State} {buf : List Byte} (h : Ready s) (hout : s.outDepth = .unbounded)
    (houtq : s.outq = []) (hlen : buf.length < 2 ^ 64) (hplen : (Firmware.passPayload buf).length < 2 ^ 64) :
    ∃ t u, exec .deser
        { s with inq := Firmware.passTreeBytes buf, len := BitVec.ofNat 64 (Firmware.passTreeBytes buf).length } = .next t ∧
      exec .unpack
        { t with
          inq := Firmware.passPayload buf, len := BitVec.ofNat 64 (Firmware.passPayload buf).length,
          count := BitVec.ofNat 64 buf.length } = .next u ∧
      u.outq = buf ∧ u.err = false ∧ u.done = true := by
  have hcov := covers_passCodes hlen
  obtain ⟨tb, hparse, htree, hdepth, hshort⟩ := parseTree_serialize_buildTree (countBytes zeroFreq buf)
  obtain ⟨t, ht⟩ := exec_goes_on .deser
    { s with inq := Firmware.passTreeBytes buf, len := BitVec.ofNat 64 (Firmware.passTreeBytes buf).length }
  have et := next_inj ht (exec_deser_whole
    (s := { s with inq := Firmware.passTreeBytes buf, len := BitVec.ofNat 64 (Firmware.passTreeBytes buf).length })
    h (toNat_ofNat_length (Nat.lt_trans hshort (by decide))) hparse)
  have hready : Ready t := by rw [et]; exact ⟨rfl, h.2⟩
  have htTree : t.tree = treeOf (Firmware.passTree buf).node (Firmware.passTree buf).root := by rw [et]; exact htree
  have htOut : t.outDepth = .unbounded := by rw [et]; exact hout
  refine ⟨t, _, ht, exec_unpack_payload (d := Firmware.passCodes buf) (buf := buf)
    (s := { t with
      inq := Firmware.passPayload buf, len := BitVec.ofNat 64 (Firmware.passPayload buf).length,
      count := BitVec.ofNat 64 buf.length })
    hready htOut (htTree ▸ hdepth) (htTree ▸ codeAt_genCodes _ _) hcov (payload_eq_passPayload hcov).symm
    (toNat_ofNat_length hplen) (toNat_ofNat_length hlen), ?_, hready.2.1, rfl⟩
  rw [et]
  exact congrArg (· ++ buf) houtq

/-- Settles O57: on the encoding block each command leaves what the firmware's pure pass names (`exec_count_and_build`,
`exec_pack_and_ser`); on the decoding block DESER makes the same tree, along which UNPACK finds the buffer
(`exec_deser_and_unpack`). -/
theorem blockRoundTrip : Obligations.BlockRoundTrip := by
  unfold Obligations.BlockRoundTrip
  intro s r buf hs hr hsOut hrOut hsDepth hrDepth hlen hplen
  have hlenNat := toNat_ofNat_length hlen
  obtain ⟨s1, s2, s3, s4, h1, h2, h3, h4, hready, hnode, hroot, hcode, hl4, hd4, ho4⟩ :=
    exec_count_and_build (s := { s with inq := buf, len := BitVec.ofNat 64 buf.length }) hs rfl hlenNat
  obtain ⟨s5, s6, h5, h6, hpayload, hbytes, herr⟩ :=
    exec_pack_and_ser hready (hl4 ▸ hlenNat) (hd4.trans hsDepth) (ho4.trans hsOut) hnode hroot hcode
  obtain ⟨r1, r2, g1, g2, hbuf, hnoErr, hdone⟩ := exec_deser_and_unpack hr hrDepth hrOut hlen hplen
  rw [← hbytes] at g1
  rw [← hpayload] at g2
  exact ⟨s1, s2, s3, s4, s5, s6, r1, r2, h1, h2, h3, h4, h5, h6, g1, g2, herr, hnoErr, hdone, hbuf⟩

/-! ## The pass loops of the firmware -/

namespace Firmware

/-- R189: more rounds than are needed change nothing. -/
theorem decompressLoop_mono {e : Endian} {n m : Nat} {cur : List Byte} {r : Except FwError (List Byte)}
    (h : decompressLoop e n cur = some r) (hnm : n ≤ m) : decompressLoop e m cur = some r := by
  induction n generalizing m cur with
  | zero => cases h
  | succ n ih =>
    obtain ⟨m, rfl⟩ : ∃ k, m = k + 1 := ⟨m - 1, by omega⟩
    rw [decompressLoop] at h ⊢
    match decodeRound e cur, h with
    | .error x, h => exact h
    | .ok (out, true), h => exact ih h (by omega)
    | .ok (out, false), h => exact h

/-- R186, R189: a further encode pass asks for one more round of the decoder. -/
theorem decompressLoop_encodePass {e : Endian} {n depth : Nat} {kept b : List Byte} (hlen : kept.length < 2 ^ 64)
    (hdepth : depth + 1 < 128) (h : decompressLoop e n kept = some (.ok b)) :
    decompressLoop e (n + 1) (encodePass e kept (depth + 1)) = some (.ok b) := by
  rw [decompressLoop, decodeRound_encodePass e hlen hdepth]
  exact h

/-- R186, R187: what the loop keeps decodes in as many rounds as there were passes, at most 128. -/
theorem decompressLoop_compressLoop {e : Endian} {left depth : Nat} {kept b : List Byte} (hsum : depth + 1 + left = 128)
    (h : decompressLoop e (depth + 1) kept = some (.ok b)) :
    decompressLoop e 128 (compressLoop e left depth kept) = some (.ok b) := by
  induction left generalizing depth kept with
  | zero => exact decompressLoop_mono h hsum.le
  | succ left ih =>
    rw [compressLoop]
    split
    · next hpass => exact ih (by omega) (decompressLoop_encodePass hpass.1 (by omega) h)
    · exact decompressLoop_mono h (by omega)

end Firmware

/-- Settles O60: the first pass decodes in one round (`decodeRound_encodePass`), and each further pass adds one round
(`decompressLoop_compressLoop`). -/
theorem firmwareRoundTrip : Obligations.FirmwareRoundTrip := by
  unfold Obligations.FirmwareRoundTrip
  intro e b hlen
  refine ⟨_, if_pos hlen, Firmware.decompressLoop_compressLoop rfl ?_⟩
  rw [Firmware.decompressLoop, Firmware.decodeRound_encodePass e hlen (by decide)]
  rfl

end Sys2Proof.Machine
end

section
/-! PROOFS. Whole-machine rules and invariants. What a step can do is said once: its action leaves the block's registers, its
tables and the progress of a command as they are, or resets the block, or accepts or refuses a command on an idle block
without an error (`Action.effect`); then the engine makes progress or completes (`engineTurn_cases`). -/

namespace Sys2Proof.Machine

/-! ## What an action does to the block -/

/-- An action that changes no table, no result register, no latch and nothing of a command's progress; of the flags it may
clear DONE (R23) and set OVR (R93 case 1). -/
structure Kept (s u : State) : Prop where
  same : u =
    { s with
      ieDone := u.ieDone, ieErr := u.ieErr, done := u.done, ovr := u.ovr, len := u.len, count := u.count, inq := u.inq,
      outq := u.outq, rst := u.rst, script := u.script, resp := u.resp, taken := u.taken, draws := u.draws }
  done : u.done = true → s.done = true
  ovr : s.ovr = true → u.ovr = true
  low : s.rst = false → u.rst = false

section
variable {s u : State} (h : Kept s u)
include h

theorem Kept.busy : u.busy = s.busy := by rw [h.same]
theorem Kept.err : u.err = s.err := by rw [h.same]
theorem Kept.errCode : u.errCode = s.errCode := by rw [h.same]
theorem Kept.errSub : u.errSub = s.errSub := by rw [h.same]
theorem Kept.errInfo : u.errInfo = s.errInfo := by rw [h.same]
theorem Kept.curCmd : u.curCmd = s.curCmd := by rw [h.same]
theorem Kept.lenL : u.lenL = s.lenL := by rw [h.same]
theorem Kept.countL : u.countL = s.countL := by rw [h.same]
theorem Kept.outCount : u.outCount = s.outCount := by rw [h.same]
theorem Kept.freq : u.freq = s.freq := by rw [h.same]
theorem Kept.total : u.total = s.total := by rw [h.same]
theorem Kept.node : u.node = s.node := by rw [h.same]
theorem Kept.root : u.root = s.root := by rw [h.same]
theorem Kept.nnodes : u.nnodes = s.nnodes := by rw [h.same]
theorem Kept.code : u.code = s.code := by rw [h.same]
theorem Kept.got : u.got = s.got := by rw [h.same]
theorem Kept.sent : u.sent = s.sent := by rw [h.same]
theorem Kept.inDepth : u.inDepth = s.inDepth := by rw [h.same]
theorem Kept.outDepth : u.outDepth = s.outDepth := by rw [h.same]
theorem Kept.running : u.running = s.running := State.running_congr h.busy h.curCmd

theorem Kept.available (i : Instr) : available i u = available i s :=
  available_congr i h.got h.lenL h.code h.node h.root h.countL

end

/-- The host's side goes on and the bus answers. -/
theorem kept_hosted (s : State) (p : List HostAction) (r : BusResp) (n : Nat) :
    Kept s { s with script := p, resp := r, draws := n } := ⟨rfl, id, id, id⟩

/-- R93 case 1. -/
theorem kept_drop (s : State) (p : List HostAction) : Kept s (State.drop { s with script := p, resp := .written }) :=
  ⟨rfl, id, fun _ => rfl, id⟩

/-- Everything an action can do to the block. -/
inductive Effect (s u : State) : Prop where
  | kept : Kept s u → Effect s u
  /-- R217, R241, R242: the block takes its reset state. -/
  | reset : resets s = true → u.softReset = u → u.inDepth = s.inDepth → u.outDepth = s.outDepth → Effect s u
  /-- R93 case 4: a command is accepted. -/
  | accepted (i : Instr) (t : State) : s.busy = false → s.err = false → Kept s t →
      (i = .hist → t.total.toNat + t.len.toNat < 2 ^ 64) → u = t.accept i → Effect s u
  /-- R93 cases 2 and 3: a command write is refused with an error. -/
  | refused (c : ErrCause) (info : Word) (t : State) : s.busy = false → s.err = false → Kept s t → u = t.raise c info →
      Effect s u

/-- R93: a command write presented to the block is dropped, or taken by an idle block without an error. -/
theorem present_cases (f : State → State) (s : State) :
    s.present f = s.drop ∨ s.busy = false ∧ s.err = false ∧ s.present f = f s := by
  by_cases h : s.busy = true ∨ s.err = true
  · exact .inl (present_refused h f)
  · simp only [not_or, Bool.not_eq_true] at h
    exact .inr ⟨h.1, h.2, present_idle h.1 h.2 f⟩

/-- R93 cases 3 and 4: what a command write to an idle block does. -/
theorem issue_effect {s t : State} (i : Instr) (hb : s.busy = false) (he : s.err = false) (hk : Kept s t) :
    Effect s (issue i t) := by
  by_cases hfits : i = .hist → t.total.toNat + t.len.toNat < 2 ^ 64
  · exact .accepted i t hb he hk hfits (issue_accept hfits)
  · rw [Classical.not_imp, not_lt] at hfits
    obtain ⟨rfl, hover⟩ := hfits
    exact .refused .countOverflow t.len t hb he hk (issue_hist_overflow hover)

theorem Action.effect {s u : State} (h : Action s u) : Effect s u := by
  cases h with
  | quiet p r n => exact .kept (kept_hosted s p r n)
  | push b p => exact .kept ⟨rfl, id, id, id⟩
  | pop p => exact .kept ⟨rfl, id, id, id⟩
  | ctrl p d e => exact .kept ⟨rfl, id, id, id⟩
  | ack p => exact .kept ⟨rfl, (nomatch ·), id, id⟩
  | len p v => exact .kept ⟨rfl, id, id, id⟩
  | count p v => exact .kept ⟨rfl, id, id, id⟩
  | srst p _ hreset => exact .reset hreset rfl rfl rfl
  | reset p hreset => exact .reset hreset rfl rfl rfl
  | release p => exact .kept ⟨rfl, id, id, fun _ => rfl⟩
  | command i p =>
    rcases present_cases (issue i) { s with script := p, resp := .written } with h | ⟨hb, he, h⟩
    · exact h ▸ .kept (kept_drop s p)
    · exact h ▸ issue_effect i hb he (kept_hosted s p .written s.draws)
  | illegal v p =>
    rw [issueIllegal]
    rcases present_cases (State.raise .illegalCmd v) { s with script := p, resp := .written } with h | ⟨hb, he, h⟩
    · exact h ▸ .kept (kept_drop s p)
    · exact .refused .illegalCmd v _ hb he (kept_hosted s p .written s.draws) h

/-- A step is an action and then, with `rst` low, the engine's turn. -/
theorem step_cases {s t : State} (h : step s = .next t) :
    Effect s (acted s) ∧ (t = acted s ∧ (acted s).rst = true ∨ t = engineTurn (acted s) ∧ (acted s).rst = false) := by
  have ht : t = afterAction (acted s) := next_inj h (step_eq s)
  refine ⟨(acted_action s).effect, ?_⟩
  cases hr : (acted s).rst with
  | true => exact .inl ⟨by rw [ht, afterAction, hr, if_pos rfl], rfl⟩
  | false => exact .inr ⟨by rw [ht, afterAction, hr]; rfl, rfl⟩

/-- What every action and every turn keeps, every step keeps. -/
theorem step_keeps {P : State → Prop} (hact : ∀ s u, P s → Effect s u → P u) (hturn : ∀ s, P s → P (engineTurn s))
    {s t : State} (hs : P s) (h : step s = .next t) : P t := by
  obtain ⟨heffect, ⟨rfl, -⟩ | ⟨rfl, -⟩⟩ := step_cases h
  · exact hact s _ hs heffect
  · exact hturn _ (hact s _ hs heffect)

/-! ## What a completion does to the block -/

section
variable {s t u : State} {i : Instr} (h : Completes s t i u)
include h

theorem Completes.was_busy : s.busy = true := by
  rw [← h.progress.busy]
  exact State.busy_of_running h.running

theorem Completes.was_running : s.running = some i := h.progress.running.symm.trans h.running

theorem Completes.busy : t.busy = false := by rw [h.result, Body.complete_busy]

theorem Completes.done : t.done = (body i u u.got).err.isNone := by rw [h.result, Body.complete_done]

/-- R206, R214: ERR is set if the body recorded an error. -/
theorem Completes.err : t.err = ((body i u u.got).err.isSome || s.err) := by
  obtain ⟨f, n, m, r, k, d, hafter⟩ := body_after i u u.got
  rw [h.result, Body.complete_err, hafter, h.progress.same]

end

/-! ## The flags (R23, R212) -/

/-- R43: after a reset no flag and no error field is set. -/
theorem flags_of_reset {u : State} (h : u.softReset = u) : FlagsExclusive u ∧ ErrorRecorded u := by
  rw [← h]
  exact ⟨⟨by simp, by simp, by simp⟩, fun _ => ⟨rfl, rfl, rfl⟩, fun herr => nomatch herr⟩

theorem Effect.keeps_flags {s u : State} (hf : FlagsExclusive s) (hr : ErrorRecorded s) (h : Effect s u) :
    FlagsExclusive u ∧ ErrorRecorded u := by
  cases h with
  | kept h =>
    obtain ⟨hbd, hbe, hde⟩ := hf
    unfold FlagsExclusive ErrorRecorded
    rw [h.busy, h.err, h.errCode, h.errSub, h.errInfo]
    exact ⟨⟨fun hx => hbd ⟨hx.1, h.done hx.2⟩, hbe, fun hx => hde ⟨h.done hx.1, hx.2⟩⟩, hr⟩
  | reset _ hreset => exact flags_of_reset hreset
  | accepted i t _ herr h _ hu =>
    subst hu
    unfold ErrorRecorded at hr ⊢
    simp only [State.accept_err, State.accept_errCode, State.accept_errSub, State.accept_errInfo, h.err, h.errCode,
      h.errSub, h.errInfo]
    exact ⟨by simp [FlagsExclusive, h.err, herr], hr⟩
  | refused c info t _ _ _ hu =>
    subst hu
    exact ⟨by simp [FlagsExclusive], (nomatch ·), fun _ => ⟨c, rfl, rfl⟩⟩

/-- R206, R214: a completion sets DONE or ERR, with the recorded error's pair, and clears BUSY. -/
theorem Completes.keeps_flags {s t u : State} {i : Instr} (hf : FlagsExclusive s) (hr : ErrorRecorded s)
    (h : Completes s t i u) : FlagsExclusive t ∧ ErrorRecorded t := by
  have hnoErr : s.err = false := Bool.eq_false_iff.mpr fun herr => hf.2.1 ⟨h.was_busy, herr⟩
  have hterr : t.err = (body i u u.got).err.isSome := by rw [h.err, hnoErr, Bool.or_false]
  have hflags : FlagsExclusive t := by
    unfold FlagsExclusive
    rw [h.busy, h.done, hterr]
    cases (body i u u.got).err <;> simp
  refine ⟨hflags, ?_⟩
  cases hbody : (body i u u.got).err with
  | none =>
    obtain ⟨f, n, m, r, k, d, hafter⟩ := body_after i u u.got
    have hfields : t.errCode = s.errCode ∧ t.errSub = s.errSub ∧ t.errInfo = s.errInfo := by
      rw [h.result, Body.complete_of_noError hbody, hafter, h.progress.same]
      exact ⟨rfl, rfl, rfl⟩
    obtain ⟨hcode, hsub, hinfo⟩ := hfields
    unfold ErrorRecorded at hr ⊢
    rw [hcode, hsub, hinfo, hterr, hbody]
    exact ⟨fun _ => hr.1 hnoErr, fun herr => nomatch herr⟩
  | some e =>
    refine ⟨fun herr => ?_, fun _ => ⟨e.1, ?_⟩⟩
    · rw [hterr, hbody] at herr
      cases herr
    · rw [h.result, Body.complete_of_error hbody]
      exact ⟨rfl, rfl⟩

theorem engineTurn_keeps_flags {s : State} (hf : FlagsExclusive s) (hr : ErrorRecorded s) :
    FlagsExclusive (engineTurn s) ∧ ErrorRecorded (engineTurn s) := by
  rcases engineTurn_cases s with h | ⟨i, u, h⟩
  · rw [h.same]
    exact ⟨hf, hr⟩
  · exact h.keeps_flags hf hr

/-- Settles O51: every action (`Effect.keeps_flags`) and every turn (`engineTurn_keeps_flags`) keeps them. -/
theorem stepKeepsFlags : Obligations.StepKeepsFlags := by
  unfold Obligations.StepKeepsFlags
  intro s t hf hr hstep
  exact step_keeps (P := fun s => FlagsExclusive s ∧ ErrorRecorded s) (fun _ _ hs h => h.keeps_flags hs.1 hs.2)
    (fun _ hs => engineTurn_keeps_flags hs.1 hs.2) ⟨hf, hr⟩ hstep

/-- Settles O48: with ERR set no command write is taken, so the action keeps the error fields and the block stays idle; the
engine then has no turn. OVR is cleared by no action but a reset, and by no turn. -/
theorem onlyResetLeavesTheErrorState : Obligations.OnlyResetLeavesTheErrorState := by
  unfold Obligations.OnlyResetLeavesTheErrorState
  intro s t hf hstep hnoReset
  obtain ⟨heffect, hturn⟩ := step_cases hstep
  constructor
  · intro herr
    have hidle : s.busy = false := Bool.eq_false_iff.mpr fun hbusy => hf.2.1 ⟨hbusy, herr⟩
    cases heffect with
    | kept h =>
      have ht : t = acted s := by
        rcases hturn with ⟨ht, -⟩ | ⟨ht, -⟩
        · exact ht
        · rw [ht, engineTurn_idle (h.busy.trans hidle)]
      rw [ht]
      exact ⟨h.err.trans herr, h.errCode, h.errSub, h.errInfo, h.busy.trans hidle⟩
    | reset hreset => exact absurd hreset (by simp [hnoReset])
    | accepted _ _ _ hnoErr => exact absurd herr (by simp [hnoErr])
    | refused _ _ _ _ hnoErr => exact absurd herr (by simp [hnoErr])
  · intro hovr
    have hacted : (acted s).ovr = true := by
      cases heffect with
      | kept h => exact h.ovr hovr
      | reset hreset => exact absurd hreset (by simp [hnoReset])
      | accepted i u _ _ h _ hu => rw [hu, State.accept_ovr, h.ovr hovr]
      | refused c info u _ _ h hu => rw [hu, State.raise_ovr, h.ovr hovr]
    obtain ⟨-, -, -, -, -, -, -, -, -, -, -, hkeep, -⟩ := engineTurn_untouched (acted s)
    rcases hturn with ⟨ht, -⟩ | ⟨ht, -⟩
    · rw [ht, hacted]
    · rw [ht, hkeep, hacted]

/-- Settles O49: while BUSY no action clears BUSY but a reset, and a turn that does so has completed the command. -/
theorem busyEndsInDoneOrError : Obligations.BusyEndsInDoneOrError := by
  unfold Obligations.BusyEndsInDoneOrError
  intro s t hstep hnoReset hbusy hidle
  obtain ⟨heffect, hturn⟩ := step_cases hstep
  cases heffect with
  | kept h =>
    have hacted : (acted s).busy = true := h.busy.trans hbusy
    rcases hturn with ⟨ht, -⟩ | ⟨ht, -⟩
    · rw [ht, hacted] at hidle
      cases hidle
    · rcases engineTurn_cases (acted s) with hp | ⟨i, u, hc⟩
      · rw [ht, hp.busy, hacted] at hidle
        cases hidle
      · rw [ht, hc.done, hc.err]
        cases (body i u u.got).err <;> simp
  | reset hreset => exact absurd hreset (by simp [hnoReset])
  | accepted _ _ hb => exact absurd hbusy (by simp [hb])
  | refused _ _ _ hb => exact absurd hbusy (by simp [hb])

end Sys2Proof.Machine
end

section
/-! PROOFS. The invariants of the tables (`10_state.md` rules R31, R33, R36) and of the sequencer and the queues (R27, R39, R40;
`20_memory.md` rule R70; `70_reset_and_hazards.md` rule R241): they hold after reset, and every step keeps them. -/

namespace Sys2Proof.Machine

theorem Progress.freq {s t : State} (h : Progress s t) : t.freq = s.freq := by rw [h.same]
theorem Progress.total {s t : State} (h : Progress s t) : t.total = s.total := by rw [h.same]
theorem Progress.nnodes {s t : State} (h : Progress s t) : t.nnodes = s.nnodes := by rw [h.same]

/-- A property that only the tables decide is kept by a turn if progress and the command's body keep it. -/
theorem engineTurn_keeps {P : State → Prop} (hprogress : ∀ s t, Progress s t → P s → P t)
    (hbody : ∀ i s, s.running = some i → s.got.length = inputLen i s.lenL → P s → P (body i s s.got).complete)
    {s : State} (hs : P s) : P (engineTurn s) := by
  rcases engineTurn_cases s with h | ⟨i, u, h⟩
  · exact hprogress _ _ h hs
  · rw [h.result]
    exact hbody i u h.running h.popped (hprogress _ _ h.progress hs)

/-! ## TOTAL (R31) -/

theorem reset_totalIsSum : TotalIsSum State.reset := freqSum_zeroFreq.symm

theorem histFits_of_idle {s : State} (h : s.busy = false) : HistFits s := by
  intro hrun
  rw [State.running_of_idle h] at hrun
  cases hrun

theorem totalIsSum_congr {s t : State} (hfreq : t.freq = s.freq) (htotal : t.total = s.total) (h : TotalIsSum s) :
    TotalIsSum t := by
  unfold TotalIsSum
  rw [hfreq, htotal]
  exact h

theorem Effect.keeps_total {s u : State} (hsum : TotalIsSum s) (hfits : HistFits s) (h : Effect s u) :
    TotalIsSum u ∧ HistFits u := by
  cases h with
  | kept h =>
    refine ⟨totalIsSum_congr h.freq h.total hsum, ?_⟩
    unfold HistFits
    rw [h.running, h.total, h.lenL]
    exact hfits
  | reset _ hreset =>
    rw [← hreset]
    exact ⟨reset_totalIsSum, histFits_of_idle rfl⟩
  | accepted i t _ _ h hissue hu =>
    subst hu
    refine ⟨totalIsSum_congr h.freq h.total hsum, fun hrun => ?_⟩
    rw [State.running_accept, Option.some_inj] at hrun
    exact hissue hrun
  | refused c info t _ _ h hu =>
    subst hu
    exact ⟨totalIsSum_congr h.freq h.total hsum, histFits_of_idle rfl⟩

/-- R111, R112: CLRF makes both 0, HIST adds the number of bytes to both, the other commands touch neither. -/
theorem body_keeps_total {i : Instr} {s : State} {inp : List Byte} (hsum : TotalIsSum s)
    (hhist : i = .hist → inp.length = s.lenL.toNat ∧ s.total.toNat + s.lenL.toNat < 2 ^ 64) :
    TotalIsSum (body i s inp).after := by
  cases i with
  | clrf => exact freqSum_zeroFreq.symm
  | hist =>
    obtain ⟨hlen, hfits⟩ := hhist rfl
    obtain ⟨hcounted, -⟩ := countBytes_spec (f := s.freq) inp (by rw [hlen, ← hsum]; exact hfits)
    show (s.total + s.lenL).toNat = freqSum (countBytes s.freq inp)
    rw [hcounted, hlen, ← hsum, BitVec.toNat_add_of_lt hfits]
  | deser =>
    simp only [body, deserBody]
    split
    · exact hsum
    · exact hsum
  | _ => exact hsum

/-- Settles O52: the issue-time check bounds what an accepted HIST will add (`Effect.keeps_total`), so that at its completion
neither sum wraps (`body_keeps_total`). -/
theorem stepKeepsTotalTheSum : Obligations.StepKeepsTotalTheSum := by
  unfold Obligations.StepKeepsTotalTheSum
  intro s t hsum hfits hstep
  refine step_keeps (P := fun s => TotalIsSum s ∧ HistFits s) (fun _ _ hs h => h.keeps_total hs.1 hs.2)
    (fun s hs => engineTurn_keeps (P := fun s => TotalIsSum s ∧ HistFits s) ?_ ?_ hs) ⟨hsum, hfits⟩ hstep
  · rintro s t h ⟨hsum, hfits⟩
    refine ⟨totalIsSum_congr h.freq h.total hsum, ?_⟩
    unfold HistFits
    rw [h.running, h.total, h.lenL]
    exact hfits
  · rintro i s hrun hpopped ⟨hsum, hfits⟩
    refine ⟨totalIsSum_congr (Body.complete_freq _) (Body.complete_total _) (body_keeps_total hsum ?_),
      histFits_of_idle (Body.complete_busy _)⟩
    rintro rfl
    exact ⟨hpopped, hfits hrun⟩

/-! ## The node table (R33) -/

theorem treeStands_none : TreeStands TreeTable.none.node TreeTable.none.root TreeTable.none.nnodes :=
  .inl ⟨rfl, rfl, nodeAt_noNodes⟩

theorem reset_treeInv : TreeInv State.reset := treeStands_none

theorem parseTree_stands {inp : List Byte} {t : TreeTable} (h : parseTree inp = .ok t) :
    TreeStands t.node t.root t.nnodes := by
  by_cases hnil : inp = []
  · subst hnil
    cases h
    exact treeStands_none
  · obtain ⟨-, tr, hwhole⟩ := (parseTree_spec inp hnil).2 t h
    exact hwhole.treeStands

theorem treeInv_congr {s t : State} (hnode : t.node = s.node) (hroot : t.root = s.root) (hnnodes : t.nnodes = s.nnodes)
    (h : TreeInv s) : TreeInv t := by
  unfold TreeInv
  rw [hnode, hroot, hnnodes]
  exact h

theorem Effect.keeps_tree {s u : State} (htree : TreeInv s) (h : Effect s u) : TreeInv u := by
  cases h with
  | kept h => exact treeInv_congr h.node h.root h.nnodes htree
  | reset _ hreset =>
    rw [← hreset]
    exact reset_treeInv
  | accepted i t _ _ h _ hu =>
    subst hu
    exact treeInv_congr h.node h.root h.nnodes htree
  | refused c info t _ _ h hu =>
    subst hu
    exact treeInv_congr h.node h.root h.nnodes htree

/-- R121, R166, R168: BUILD and DESER leave the storage of one tree or of none, the other commands touch it not. -/
theorem body_keeps_tree (i : Instr) {s : State} (inp : List Byte) (htree : TreeInv s) : TreeInv (body i s inp).after := by
  cases i with
  | build => exact buildTree_stands s.freq
  | deser =>
    simp only [body, deserBody]
    split
    · next t ht => exact parseTree_stands ht
    · exact treeStands_none
  | _ => exact htree

theorem engineTurn_keeps_tree {s : State} (htree : TreeInv s) : TreeInv (engineTurn s) :=
  engineTurn_keeps (fun _ _ h => treeInv_congr h.node h.root h.nnodes)
    (fun i s _ _ h => treeInv_congr (Body.complete_node _) (Body.complete_root _) (Body.complete_nnodes _)
      (body_keeps_tree i s.got h)) htree

/-- Settles O53: the two commands that write the node table leave a tree's storage whatever their input
(`buildTree_stands`, `parseTree_stands`). -/
theorem stepKeepsTheTree : Obligations.StepKeepsTheTree := by
  unfold Obligations.StepKeepsTheTree
  intro s t htree hstep
  exact step_keeps (fun _ _ htree h => h.keeps_tree htree) (fun _ => engineTurn_keeps_tree) htree hstep

/-! ## The code table (R36) -/

theorem codesTidy_noCodes : CodesTidy noCodes := by
  intro b
  rw [codeAt_noCodes]
  exact ⟨fun _ => rfl, by decide⟩

/-- R36, R133: GENCODE's table of a tree that is at most 255 edges deep is tidy. -/
theorem codesTidy_genCodes {t : NodeTable} {root : Idx} (hdepth : (treeOf t root).depth ≤ 255) :
    CodesTidy (genCodes t root) := by
  intro b
  rw [codeAt_genCodes]
  refine ⟨fun hinvalid => ?_, ofPath_tidy fun p => codeOf_length_le hdepth⟩
  rw [ofPath_valid, Option.isSome_eq_false_iff, Option.isNone_iff_eq_none] at hinvalid
  rw [hinvalid]
  rfl

/-- An action keeps the code table together with its tree, or clears both. -/
theorem Effect.code_cases {s u : State} (h : Effect s u) :
    u.code = s.code ∧ u.node = s.node ∧ u.root = s.root ∨ u.code = noCodes := by
  cases h with
  | kept h => exact .inl ⟨h.code, h.node, h.root⟩
  | reset _ hreset =>
    rw [← hreset]
    exact .inr rfl
  | accepted i t _ _ h _ hu =>
    subst hu
    exact .inl ⟨h.code, h.node, h.root⟩
  | refused c info t _ _ h hu =>
    subst hu
    exact .inl ⟨h.code, h.node, h.root⟩

/-- R121, R131, R166: what the commands do to the code table: GENCODE derives it from the tree, BUILD and DESER, which write
the tree, clear it. -/
theorem body_code_cases (i : Instr) (s : State) (inp : List Byte) :
    ((body i s inp).after.code = s.code ∨ (body i s inp).after.code = genCodes s.node s.root) ∧
        (body i s inp).after.node = s.node ∧ (body i s inp).after.root = s.root ∨
      (body i s inp).after.code = noCodes := by
  cases i with
  | gencode => exact .inl ⟨.inr rfl, rfl, rfl⟩
  | build => exact .inr rfl
  | deser =>
    simp only [body, deserBody]
    split
    · exact .inr rfl
    · exact .inr rfl
  | _ => exact .inl ⟨.inl rfl, rfl, rfl⟩

theorem Effect.keeps_codesTidy {s u : State} (htidy : CodesTidy s.code) (h : Effect s u) : CodesTidy u.code := by
  rcases h.code_cases with ⟨hcode, -⟩ | hcode
  · exact hcode ▸ htidy
  · exact hcode ▸ codesTidy_noCodes

theorem body_keeps_codesTidy (i : Instr) {s : State} (inp : List Byte) (htree : TreeInv s) (htidy : CodesTidy s.code) :
    CodesTidy (body i s inp).after.code := by
  rcases body_code_cases i s inp with ⟨hcode | hcode, -⟩ | hcode
  · exact hcode ▸ htidy
  · exact hcode ▸ codesTidy_genCodes htree.depth_le
  · exact hcode ▸ codesTidy_noCodes

theorem codesOfTree_congr {s t : State} (hcode : t.code = s.code) (hnode : t.node = s.node) (hroot : t.root = s.root)
    (h : CodesOfTree s) : CodesOfTree t := by
  unfold CodesOfTree
  rw [hcode, hnode, hroot]
  exact h

theorem Effect.keeps_codesOfTree {s u : State} (hcodes : CodesOfTree s) (h : Effect s u) : CodesOfTree u := by
  rcases h.code_cases with ⟨hcode, hnode, hroot⟩ | hcode
  · exact codesOfTree_congr hcode hnode hroot hcodes
  · exact .inl hcode

theorem body_keeps_codesOfTree (i : Instr) {s : State} (inp : List Byte) (hcodes : CodesOfTree s) :
    CodesOfTree (body i s inp).after := by
  rcases body_code_cases i s inp with ⟨hcode | hcode, hnode, hroot⟩ | hcode
  · exact codesOfTree_congr hcode hnode hroot hcodes
  · exact .inr (by rw [hcode, hnode, hroot])
  · exact .inl hcode

/-- Settles O54: the code table is left alone, cleared, or made by GENCODE from the tree the block holds, by every action
(`Effect.code_cases`) and every body (`body_code_cases`). -/
theorem stepKeepsCodesTidy : Obligations.StepKeepsCodesTidy := by
  unfold Obligations.StepKeepsCodesTidy
  intro s t hstep
  constructor
  · intro htree htidy
    refine (step_keeps (P := fun s => TreeInv s ∧ CodesTidy s.code)
      (fun _ _ hs h => ⟨h.keeps_tree hs.1, h.keeps_codesTidy hs.2⟩)
      (fun s hs => engineTurn_keeps (P := fun s => TreeInv s ∧ CodesTidy s.code) ?_ ?_ hs) ⟨htree, htidy⟩ hstep).2
    · exact fun s t h hs => ⟨treeInv_congr h.node h.root h.nnodes hs.1, h.code.symm ▸ hs.2⟩
    · refine fun i s _ _ hs => ⟨?_, ?_⟩
      · exact treeInv_congr (Body.complete_node _) (Body.complete_root _) (Body.complete_nnodes _)
          (body_keeps_tree i s.got hs.1)
      · rw [Body.complete_code]
        exact body_keeps_codesTidy i s.got hs.1 hs.2
  · intro hcodes
    refine step_keeps (fun _ _ hs h => h.keeps_codesOfTree hs) (fun s hs => engineTurn_keeps ?_ ?_ hs) hcodes hstep
    · exact fun s t h => codesOfTree_congr h.code h.node h.root
    · exact fun i s _ _ hs => codesOfTree_congr (Body.complete_code _) (Body.complete_node _) (Body.complete_root _)
        (body_keeps_codesOfTree i s.got hs)

/-! ## The sequencer and the queues (R27, R39, R40, R241) -/

/-- R43: after a reset of either kind the engine is idle and holds nothing. -/
theorem softReset_sequencerInv (s : State) : SequencerInv s.softReset := ⟨.inl rfl, fun _ => ⟨rfl, rfl⟩, (nomatch ·)⟩

theorem Effect.keeps_sequencer {s u : State} (hseq : SequencerInv s) (h : Effect s u) : SequencerInv u := by
  obtain ⟨hcmd, hidle, hbusy⟩ := hseq
  cases h with
  | kept h =>
    unfold SequencerInv
    simp only [h.running, h.busy, h.curCmd, h.got, h.sent, h.lenL, h.available]
    exact ⟨hcmd, hidle, hbusy⟩
  | reset _ hreset =>
    rw [← hreset]
    exact softReset_sequencerInv u
  | accepted i t _ _ _ _ hu =>
    subst hu
    exact ⟨.inr ⟨i, rfl⟩, (nomatch ·), fun _ => ⟨i, State.running_accept t i, Nat.zero_le _, Nat.zero_le _⟩⟩
  | refused c info t hb _ h hu =>
    subst hu
    refine ⟨?_, fun _ => ?_, (nomatch ·)⟩
    · rw [State.raise_curCmd, h.curCmd]
      exact hcmd
    · rw [State.raise_got, State.raise_sent, h.got, h.sent]
      exact hidle hb

theorem engineTurn_keeps_sequencer {s : State} (hseq : SequencerInv s) : SequencerInv (engineTurn s) := by
  obtain ⟨hcmd, hidle, hbusy⟩ := hseq
  obtain ⟨-, -, -, -, -, -, -, -, -, -, -, -, hcur, -⟩ := engineTurn_untouched s
  cases hb : s.busy with
  | false =>
    rw [engineTurn_idle hb]
    exact ⟨hcmd, hidle, hbusy⟩
  | true =>
    obtain ⟨i, hrun, hgot, hsent⟩ := hbusy hb
    refine ⟨hcur ▸ hcmd, ?_⟩
    rcases engineTurn_cases s with h | ⟨j, u, h⟩
    · refine ⟨fun hb' => ?_, fun _ => ⟨i, h.running.trans hrun, ?_, (h.due i hrun hgot hsent).1⟩⟩
      · rw [h.busy, hb] at hb'
        cases hb'
      · rw [h.lenL]
        exact h.gotLe i hrun hgot
    · rw [h.result]
      exact ⟨fun _ => ⟨Body.complete_got _, Body.complete_sent _⟩, fun hb' => by simp at hb'⟩

/-- R64, R65: a byte enters IN only where there is room; no other action makes a queue longer. -/
theorem Action.keeps_fit {s u : State} (hfit : QueuesFit s) (h : Action s u) : QueuesFit u := by
  obtain ⟨hin, hout⟩ := hfit
  cases h with
  | push b p _ hroom => exact ⟨by simpa using hroom, hout⟩
  | pop p => exact ⟨hin, within_of_shorter hout (by simp)⟩
  | srst p => exact ⟨within_mono (Nat.zero_le _) hin, within_mono (Nat.zero_le _) hout⟩
  | reset p => exact ⟨within_mono (Nat.zero_le _) hin, within_mono (Nat.zero_le _) hout⟩
  | command i p =>
    rcases present_cases (issue i) { s with script := p, resp := .written } with h | ⟨-, -, h⟩
    · exact h ▸ ⟨hin, hout⟩
    · rcases issue_cases i { s with script := p, resp := .written } with hi | ⟨-, -, hi⟩
      · exact (h.trans hi) ▸ ⟨hin, hout⟩
      · exact (h.trans hi) ▸ ⟨hin, hout⟩
  | illegal v p =>
    rw [issueIllegal]
    rcases present_cases (State.raise .illegalCmd v) { s with script := p, resp := .written } with h | ⟨-, -, h⟩
    · exact h ▸ ⟨hin, hout⟩
    · exact h ▸ ⟨hin, hout⟩
  | _ => exact ⟨hin, hout⟩

theorem engineTurn_keeps_fit {s : State} (hfit : QueuesFit s) : QueuesFit (engineTurn s) := by
  refine engineTurn_keeps (fun _ _ h => h.fit) (fun i s _ _ h => ?_) hfit
  obtain ⟨f, n, m, r, k, d, hafter⟩ := body_after i s s.got
  unfold QueuesFit
  rw [Body.complete_inDepth, Body.complete_outDepth, Body.complete_inq, Body.complete_outq, hafter]
  exact h

theorem issueIllegal_rst (v : Word) (s : State) : (issueIllegal v s).rst = s.rst := by
  rw [issueIllegal]
  rcases present_cases (State.raise .illegalCmd v) s with h | ⟨-, -, h⟩
  · rw [h, State.drop_rst]
  · rw [h, State.raise_rst]

/-- R241: the actions that are possible while `rst` is 1 touch the host's side only. -/
theorem Action.keeps_resetHeld {s u : State} (hheld : ResetHeld s) (h : Action s u) : ResetHeld u := by
  have hclosed : s.rst = false → u.rst = s.rst → ResetHeld u := fun hlow hsame hhigh => by
    rw [hsame, hlow] at hhigh
    cases hhigh
  cases h with
  | quiet p r n =>
    intro hhigh
    show _ = { s.softReset with script := p, resp := r, draws := n }
    rw [← hheld hhigh]
  | reset p => exact fun _ => rfl
  | release p => exact (nomatch ·)
  | push b p hlow => exact hclosed hlow rfl
  | pop p hlow => exact hclosed hlow rfl
  | ctrl p d e hlow => exact hclosed hlow rfl
  | ack p hlow => exact hclosed hlow rfl
  | len p v hlow => exact hclosed hlow rfl
  | count p v hlow => exact hclosed hlow rfl
  | srst p hlow => exact hclosed hlow rfl
  | command i p hlow => exact hclosed hlow (issue_rst i _)
  | illegal v p hlow => exact hclosed hlow (issueIllegal_rst v _)

/-- Settles O55: the sequencer by `Effect.keeps_sequencer` and `engineTurn_keeps_sequencer`; the queues by the room an action
and a push of the engine ask for; the reset state because the engine has no turn while `rst` is 1. -/
theorem stepKeepsSequencer : Obligations.StepKeepsSequencer := by
  unfold Obligations.StepKeepsSequencer
  intro s t hseq hfit hheld hstep
  have haction := acted_action s
  obtain ⟨heffect, ⟨rfl, -⟩ | ⟨rfl, hlow⟩⟩ := step_cases hstep
  · exact ⟨heffect.keeps_sequencer hseq, haction.keeps_fit hfit, haction.keeps_resetHeld hheld⟩
  · refine ⟨engineTurn_keeps_sequencer (heffect.keeps_sequencer hseq), engineTurn_keeps_fit (haction.keeps_fit hfit), ?_⟩
    obtain ⟨-, -, -, -, hrst, -⟩ := engineTurn_untouched (acted s)
    intro hhigh
    rw [hrst, hlow] at hhigh
    cases hhigh

/-! ## After reset -/

/-- R10: no capacity is below 0, so an empty queue is within it. -/
theorem within_zero (d : Depth) : within d 0 = true := by
  cases d with
  | unbounded => rfl
  | upTo m => exact decide_eq_true (Nat.zero_le (m + 1))

/-- Settles O4: in the reset state every table is cleared, no flag is set and both queues are empty. -/
theorem resetStateIsGood : Obligations.ResetStateIsGood := by
  unfold Obligations.ResetStateIsGood
  obtain ⟨hflags, herror⟩ := flags_of_reset (u := State.reset) rfl
  exact ⟨hflags, herror, reset_totalIsSum, histFits_of_idle rfl, reset_treeInv, codesTidy_noCodes, .inl rfl,
    softReset_sequencerInv State.reset, ⟨within_zero _, within_zero _⟩, fun _ => rfl⟩

/-! ## Every step goes on -/

/-- R10: no action changes the capacities. -/
theorem Effect.depths {s u : State} (h : Effect s u) : u.inDepth = s.inDepth ∧ u.outDepth = s.outDepth := by
  cases h with
  | kept h => exact ⟨h.inDepth, h.outDepth⟩
  | reset _ _ hin hout => exact ⟨hin, hout⟩
  | accepted i t _ _ h _ hu => exact hu ▸ ⟨h.inDepth, h.outDepth⟩
  | refused c info t _ _ h hu => exact hu ▸ ⟨h.inDepth, h.outDepth⟩

/-- Settles O8: a step is an action and a turn (`step_eq`), neither of which changes a capacity. -/
theorem everyStepGoesOn : Obligations.EveryStepGoesOn := by
  unfold Obligations.EveryStepGoesOn
  intro s
  have hstep := step_eq s
  obtain ⟨heffect, ht⟩ := step_cases hstep
  refine ⟨_, hstep, ?_⟩
  rcases ht with ⟨ht, -⟩ | ⟨ht, -⟩
  · rw [ht]
    exact heffect.depths
  · obtain ⟨-, -, -, -, -, hin, hout, -⟩ := engineTurn_untouched (acted s)
    rw [ht, hin, hout]
    exact heffect.depths

end Sys2Proof.Machine
end

section
/-! PROOFS. Command words (`30_encoding.md` rules R90, R91, R94), the register map (`10_state.md` rule R41) and the places of the
fields in the words the host reads (R22, R23, R32, R34, R36). -/

namespace Sys2Proof.Machine

/-! ## Command words -/

/-- Settles O1: the eight words and the four others, decoded one by one. -/
theorem commandWordsDecode : Obligations.CommandWordsDecode := by
  unfold Obligations.CommandWordsDecode
  exact ⟨by decide, by decide, by decide, by decide, by decide, by decide, by decide, by decide, by decide, by decide,
    by decide, by decide⟩

/-- R90: a word is its reserved bits above its opcode. -/
theorem word_eq_fields (w : Word) : w = rsvdField w ++ opField w :=
  (BitVec.extractLsb'_append_extractLsb' (w := 56) (len := 8)).symm

/-- R91: each row of the opcode table has its own opcode. -/
theorem eq_opcode_of_commandOfOp {op : Byte} {i : Instr} (h : commandOfOp op = some i) : op = opcode i := by
  unfold commandOfOp at h
  split_ifs at h with h1 h2 h3 h4 h5 h6 h7 h8 <;> cases h <;> assumption

/-- R91: a word decodes to a command only with reserved bits 0 and the command's opcode. -/
theorem decode_eq_ok {w : Word} {i : Instr} (h : decode w = .ok i) : rsvdField w = 0 ∧ opField w = opcode i := by
  unfold decode at h
  split at h
  · cases h
  · next hrsvd =>
    split at h
    · cases h
    · cases hop : commandOfOp (opField w) with
      | none =>
        rw [hop] at h
        cases h
      | some j =>
        rw [hop] at h
        cases h
        exact ⟨not_not.mp hrsvd, eq_opcode_of_commandOfOp hop⟩

theorem eq_encode_of_decode {w : Word} {i : Instr} (h : decode w = .ok i) : w = encode i := by
  obtain ⟨hrsvd, hop⟩ := decode_eq_ok h
  rw [word_eq_fields w, hrsvd, hop]
  rfl

/-- R94: every opcode from 1 to 8 is in the table. -/
theorem commandOfOp_isSome : ∀ op : Byte, 1 ≤ op.toNat → op.toNat ≤ 8 → (commandOfOp op).isSome = true := by decide

theorem decode_of_fields {w : Word} {i : Instr} (hrsvd : rsvdField w = 0) (hop : opField w ≠ 0)
    (hrow : commandOfOp (opField w) = some i) : decode w = .ok i := by
  rw [decode, if_neg (not_not.mpr hrsvd), if_neg hop, hrow]

theorem wellFormed_encode (i : Instr) : CommandWord.wellFormed (encode i) = true := by cases i <;> decide

theorem exists_decode_of_wellFormed {w : Word} (h : CommandWord.wellFormed w = true) : ∃ i, decode w = .ok i := by
  simp only [CommandWord.wellFormed, CommandWord.reservedIsZero, CommandWord.opcodeIsListed, Bool.and_eq_true, beq_iff_eq,
    decide_eq_true_eq] at h
  obtain ⟨hrsvd, hlow, hhigh⟩ := h
  obtain ⟨i, hrow⟩ := Option.isSome_iff_exists.mp (commandOfOp_isSome (opField w) hlow hhigh)
  have hop : opField w ≠ 0 := by
    intro hzero
    rw [← opField, hzero] at hlow
    exact absurd hlow (by decide)
  exact ⟨i, decode_of_fields hrsvd hop hrow⟩

theorem decodeLanes_encodeLanes (i : Instr) : decodeLanes (encodeLanes i) = .ok i := by cases i <;> decide

/-- Settles O2: a word is its two fields, and each command has its own opcode. -/
theorem decodeEncodeAgree : Obligations.DecodeEncodeAgree := by
  unfold Obligations.DecodeEncodeAgree
  refine ⟨fun i => ⟨decode_encode i, decodeLanes_encodeLanes i⟩, fun w i => eq_encode_of_decode, fun w => ?_⟩
  constructor
  · exact exists_decode_of_wellFormed
  · rintro ⟨i, h⟩
    rw [eq_encode_of_decode h]
    exact wellFormed_encode i

/-! ## The register map -/

/-! ### The tables' entries, one lemma for each table -/

theorem ofOffset_freq (b : Byte) : Reg.ofOffset (0x0800 + 8 * b.toNat) = .freq b := by
  have hb := b.isLt
  unfold Reg.ofOffset
  iterate 10 rw [if_neg (by omega)]
  rw [if_pos (by omega), show (0x0800 + 8 * b.toNat - 0x0800) / 8 = b.toNat by omega, BitVec.ofNat_toNat,
    BitVec.setWidth_eq]

theorem ofOffset_codeLen (b : Byte) : Reg.ofOffset (0x1000 + 8 * b.toNat) = .codeLen b := by
  have hb := b.isLt
  unfold Reg.ofOffset
  iterate 11 rw [if_neg (by omega)]
  rw [if_pos (by omega), show (0x1000 + 8 * b.toNat - 0x1000) / 8 = b.toNat by omega, BitVec.ofNat_toNat,
    BitVec.setWidth_eq]

theorem ofOffset_codeBits (b : Byte) (w : Fin 4) : Reg.ofOffset (0x2000 + 32 * b.toNat + 8 * w.val) = .codeBits b w := by
  have hb := b.isLt
  have hw := w.isLt
  unfold Reg.ofOffset
  iterate 12 rw [if_neg (by omega)]
  rw [if_pos (by omega), show (0x2000 + 32 * b.toNat + 8 * w.val - 0x2000) / 32 = b.toNat by omega, BitVec.ofNat_toNat,
    BitVec.setWidth_eq]
  congr 1
  apply Fin.ext
  show (0x2000 + 32 * b.toNat + 8 * w.val - 0x2000) / 8 % 4 = w.val
  omega

theorem ofOffset_node {i : Idx} (h : i ≠ NIL) (w : Fin 2) : Reg.ofOffset (0x4000 + 16 * i.toNat + 8 * w.val) = .node i w := by
  have hi := idx_lt_of_ne_NIL h
  have hw := w.isLt
  unfold Reg.ofOffset
  iterate 13 rw [if_neg (by omega)]
  rw [if_pos (by omega), show (0x4000 + 16 * i.toNat + 8 * w.val - 0x4000) / 16 = i.toNat by omega, BitVec.ofNat_toNat,
    BitVec.setWidth_eq]
  congr 1
  apply Fin.ext
  show (0x4000 + 16 * i.toNat + 8 * w.val - 0x4000) / 8 % 2 = w.val
  omega

/-- R41: the offset of a register leads to it, is aligned and within the register space. -/
theorem ofOffset_offset {r : Reg} {off : Nat} (h : r.offset = some off) :
    Reg.ofOffset off = r ∧ off % 8 = 0 ∧ off ≤ 0x7FF8 := by
  cases r with
  | freq b =>
    cases h
    have hb := b.isLt
    exact ⟨ofOffset_freq b, by omega, by omega⟩
  | codeLen b =>
    cases h
    have hb := b.isLt
    exact ⟨ofOffset_codeLen b, by omega, by omega⟩
  | codeBits b w =>
    cases h
    have hb := b.isLt
    exact ⟨ofOffset_codeBits b w, by omega, by omega⟩
  | node i w =>
    rw [Reg.offset] at h
    split at h
    · cases h
    · next hi =>
      cases h
      have hlt := idx_lt_of_ne_NIL hi
      exact ⟨ofOffset_node hi w, by omega, by omega⟩
  | unmapped => cases h
  | _ =>
    cases h
    exact ⟨rfl, by decide, by decide⟩

/-- R41: an aligned offset that is no register's is unmapped. -/
theorem ofOffset_unmapped {off : Nat} (h8 : off % 8 = 0) (hno : ∀ r : Reg, r.offset ≠ some off) :
    Reg.ofOffset off = .unmapped := by
  have hfreq : ¬(0x0800 ≤ off ∧ off ≤ 0x0FF8) := fun h => hno (.freq (BitVec.ofNat 8 ((off - 0x0800) / 8)))
    (congrArg some (by rw [BitVec.toNat_ofNat]; omega))
  have hcodeLen : ¬(0x1000 ≤ off ∧ off ≤ 0x17F8) := fun h => hno (.codeLen (BitVec.ofNat 8 ((off - 0x1000) / 8)))
    (congrArg some (by rw [BitVec.toNat_ofNat]; omega))
  have hcodeBits : ¬(0x2000 ≤ off ∧ off ≤ 0x3FF8) := fun h =>
    hno (.codeBits (BitVec.ofNat 8 ((off - 0x2000) / 32)) ⟨(off - 0x2000) / 8 % 4, by omega⟩)
      (congrArg some (by rw [BitVec.toNat_ofNat]; dsimp only; omega))
  have hnode : ¬(0x4000 ≤ off ∧ off ≤ 0x5FE8) := fun h => by
    have hindex : (BitVec.ofNat 9 ((off - 0x4000) / 16)).toNat = (off - 0x4000) / 16 := by
      rw [BitVec.toNat_ofNat]
      omega
    have hentry : BitVec.ofNat 9 ((off - 0x4000) / 16) ≠ NIL := fun heq => by
      have := congrArg BitVec.toNat heq
      rw [NIL_toNat, hindex] at this
      omega
    exact hno (.node (BitVec.ofNat 9 ((off - 0x4000) / 16)) ⟨(off - 0x4000) / 8 % 2, by omega⟩)
      ((if_neg hentry).trans (congrArg some (by rw [hindex]; dsimp only; omega)))
  have hscalar : ∀ {r : Reg} {n : Nat}, r.offset = some n → off ≠ n := fun hr h => hno _ (h ▸ hr)
  unfold Reg.ofOffset
  rw [if_neg (hscalar (r := .id) rfl), if_neg (hscalar (r := .ctrl) rfl), if_neg (hscalar (r := .status) rfl),
    if_neg (hscalar (r := .cmd) rfl), if_neg (hscalar (r := .len) rfl), if_neg (hscalar (r := .count) rfl),
    if_neg (hscalar (r := .outCount) rfl), if_neg (hscalar (r := .errInfo) rfl), if_neg (hscalar (r := .total) rfl),
    if_neg (hscalar (r := .tree) rfl), if_neg hfreq, if_neg hcodeLen, if_neg hcodeBits, if_neg hnode]

/-- R41: an aligned offset that leads to a register is the register's. -/
theorem offset_ofOffset {off : Nat} (h8 : off % 8 = 0) (hmapped : Reg.ofOffset off ≠ .unmapped) :
    (Reg.ofOffset off).offset = some off := by
  by_contra hno
  exact hmapped (ofOffset_unmapped h8 fun r hr => hno ((ofOffset_offset hr).1.symm ▸ hr))

/-- Settles O12: each way of the map by its own lemma, `ofOffset_offset` and `ofOffset_unmapped`. -/
theorem registerMapIsTheStatedOne : Obligations.RegisterMapIsTheStatedOne := by
  unfold Obligations.RegisterMapIsTheStatedOne
  exact ⟨fun r off => ofOffset_offset, fun off => ofOffset_unmapped⟩

/-! ## The places of the fields -/

/-- A bit of a word is a field of one bit. -/
theorem getLsbD_eq_extractLsb' {n : Nat} (x : BitVec n) (k : Nat) : x.getLsbD k = (x.extractLsb' k 1).getLsbD 0 := by
  simp

/-- R23: the fields of a STATUS word, whatever its bits EMPTY and SINGLE read as. -/
theorem statusWith_fields (s : State) (empty single : Bool) :
    (statusWith s empty single).getLsbD 0 = s.busy ∧ (statusWith s empty single).getLsbD 1 = s.done ∧
      (statusWith s empty single).getLsbD 2 = s.err ∧ (statusWith s empty single).getLsbD 3 = s.ovr ∧
      (statusWith s empty single).getLsbD 4 = empty ∧ (statusWith s empty single).getLsbD 5 = single ∧
      (statusWith s empty single).extractLsb' 6 2 = 0 ∧ (statusWith s empty single).extractLsb' 8 4 = s.errCode ∧
      (statusWith s empty single).extractLsb' 12 4 = s.errSub ∧ (statusWith s empty single).extractLsb' 16 48 = 0 := by
  simp only [getLsbD_eq_extractLsb' (statusWith s empty single)]
  unfold statusWith
  simp only [BitVec.extractLsb'_append_eq_of_le, BitVec.extractLsb'_append_eq_of_add_le, BitVec.extractLsb'_eq_self,
    BitVec.extractLsb'_zero, Nat.reduceSub, Nat.reduceLeDiff]
  simp

theorem ctrl_fields (s : State) :
    s.ctrl.getLsbD 0 = false ∧ s.ctrl.getLsbD 1 = s.ieDone ∧ s.ctrl.getLsbD 2 = s.ieErr ∧ s.ctrl.extractLsb' 3 61 = 0 := by
  simp only [getLsbD_eq_extractLsb' s.ctrl]
  unfold State.ctrl
  simp only [BitVec.extractLsb'_append_eq_of_le, BitVec.extractLsb'_append_eq_of_add_le, BitVec.extractLsb'_eq_self,
    BitVec.extractLsb'_zero, Nat.reduceSub, Nat.reduceLeDiff]
  simp

theorem word0_fields (n : Node) :
    n.word0.extractLsb' 0 9 = n.left ∧ n.word0.extractLsb' 9 9 = n.right ∧ n.word0.extractLsb' 18 8 = n.value ∧
      n.word0.getLsbD 26 = n.leaf ∧ n.word0.getLsbD 27 = n.valid ∧ n.word0.extractLsb' 28 36 = 0 := by
  simp only [getLsbD_eq_extractLsb' n.word0]
  unfold Node.word0
  simp only [BitVec.extractLsb'_append_eq_of_le, BitVec.extractLsb'_append_eq_of_add_le, BitVec.extractLsb'_eq_self,
    BitVec.extractLsb'_zero, Nat.reduceSub, Nat.reduceLeDiff]
  simp

theorem treeWord_fields (s : State) :
    s.treeWord.extractLsb' 0 9 = s.root ∧ s.treeWord.extractLsb' 9 7 = 0 ∧ s.treeWord.extractLsb' 16 9 = s.nnodes ∧
      s.treeWord.extractLsb' 25 39 = 0 := by
  unfold State.treeWord
  simp only [BitVec.extractLsb'_append_eq_of_le, BitVec.extractLsb'_append_eq_of_add_le, BitVec.extractLsb'_eq_self,
    BitVec.extractLsb'_zero, Nat.reduceSub, Nat.reduceLeDiff]
  simp

theorem lenWord_fields (e : CodeEntry) :
    e.lenWord.extractLsb' 0 8 = e.len ∧ e.lenWord.getLsbD 8 = e.valid ∧ e.lenWord.extractLsb' 9 55 = 0 := by
  simp only [getLsbD_eq_extractLsb' e.lenWord]
  unfold CodeEntry.lenWord
  simp only [BitVec.extractLsb'_append_eq_of_le, BitVec.extractLsb'_append_eq_of_add_le, BitVec.extractLsb'_eq_self,
    BitVec.extractLsb'_zero, Nat.reduceSub, Nat.reduceLeDiff]
  simp

theorem bitsWord_getLsbD (e : CodeEntry) (w : Fin 4) {k : Nat} (hk : k < 64) :
    (e.bitsWord w).getLsbD k = e.bits.getLsbD (64 * w.val + k) := by
  simp [CodeEntry.bitsWord, hk]

/-- Settles O13: word by word; EMPTY and SINGLE are derived from ROOT and its node. -/
theorem registerFieldsStandInPlace : Obligations.RegisterFieldsStandInPlace := by
  unfold Obligations.RegisterFieldsStandInPlace
  refine ⟨fun s => ?_, ctrl_fields, word0_fields, treeWord_fields, lenWord_fields, fun e w k => bitsWord_getLsbD e w⟩
  obtain ⟨h0, h1, h2, h3, h4, h5, h6, h8, h12, h16⟩ := statusWith_fields s s.empty s.single
  refine ⟨h0, h1, h2, h3, ?_, ?_, h6, h8, h12, h16⟩
  · rw [State.status, h4, State.empty, beq_iff_eq]
  · rw [State.status, h5, State.single, Bool.and_eq_true, bne_iff_ne]

end Sys2Proof.Machine
end

section
/-! PROOFS. One step of the host: register accesses (`20_memory.md` rules R61 to R63), command writes (`30_encoding.md` rule R93),
both resets (`70_reset_and_hazards.md` rules R241, R242), the stream ports (`20_memory.md` rules R64, R65) and the interrupt line
(`60_exceptions.md` rule R221). -/

namespace Sys2Proof.Machine

/-! ## Legal accesses (R63) -/

theorem legalRead_iff {a : Access} : a.legalRead = true ↔ a.off % 8 = 0 ∧ a.off ≤ 0x7FF8 ∧ a.size = 8 := by
  simp [Access.legalRead, and_assoc]

theorem legalWrite_iff {a : Access} : a.legalWrite = true ↔ a.legalRead = true ∧ a.strobes = 0xFF := by
  simp [Access.legalWrite]

theorem legalWrite_full {off : Nat} (h8 : off % 8 = 0) (hle : off ≤ 0x7FF8) : (Access.full off).legalWrite = true :=
  legalWrite_iff.mpr ⟨legalRead_iff.mpr ⟨h8, hle, rfl⟩, rfl⟩

/-! ## The host's action, by the line of the script -/

section
variable {s : State} {rest : List HostAction}

theorem acted_rd {a : Access} (h : s.script = .rd a :: rest) : acted s = State.busRead a { s with script := rest } := by
  rw [acted, fetch, h]

theorem acted_push {b : Byte} (h : s.script = .push b :: rest) : acted s = offerByte b rest s := by
  rw [acted, fetch, h]

theorem acted_pop (h : s.script = .pop :: rest) : acted s = takeByte rest s := by
  rw [acted, fetch, h]

theorem acted_wait (h : s.script = .wait :: rest) : acted s = waitIdle rest s := by
  rw [acted, fetch, h]

theorem acted_rst {level : Bool} (h : s.script = .rst level :: rest) :
    acted s = State.driveRst level { s with script := rest } := by
  rw [acted, fetch, h]

theorem fetch_wr {a : Access} {v : Word} (h : s.script = .wr a v :: rest) : fetch s = busWrite a v { s with script := rest } := by
  rw [fetch, h]

/-- R63, R241: a write that is not served. -/
theorem acted_wr_refused {a : Access} {v : Word} (h : s.script = .wr a v :: rest) (hrefused : s.rst = true ∨ a.legalWrite = false) :
    acted s = { s with script := rest, resp := .busError } := by
  have hcond : (s.rst || !a.legalWrite) = true := by simpa using hrefused
  rw [acted, fetch_wr h, busWrite, if_pos hcond]
  rfl

variable {a : Access} {v : Word} (h : s.script = .wr a v :: rest) (hlow : s.rst = false) (hlegal : a.legalWrite = true)
include h hlow hlegal

/-- R62: a served write to another register than CMD. -/
theorem acted_wr_reg (hreg : Reg.ofOffset a.off ≠ .cmd) :
    acted s = State.writeReg (Reg.ofOffset a.off) v { s with script := rest, resp := .written } := by
  simp [acted, fetch_wr h, busWrite, hlow, hlegal, hreg]

/-- R93: a served write of a command word to CMD. -/
theorem fetch_wr_command {i : Instr} (hcmd : Reg.ofOffset a.off = .cmd) (hdec : decode v = .ok i) :
    fetch s = .command i { s with script := rest, resp := .written } := by
  simp [fetch_wr h, busWrite, hlow, hlegal, hcmd, hdec]

/-- R94: a served write of another word to CMD. -/
theorem acted_wr_illegal {e : DecodeReject} (hcmd : Reg.ofOffset a.off = .cmd) (hdec : decode v = .error e) :
    acted s = issueIllegal v { s with script := rest, resp := .written } := by
  simp [acted, fetch_wr h, busWrite, hlow, hlegal, hcmd, hdec]

/-- R93 case 1: a command write that the block does not take is dropped, whatever its word is. -/
theorem acted_wr_dropped (hcmd : Reg.ofOffset a.off = .cmd) (hbusy : s.busy = true ∨ s.err = true) :
    acted s = { s with script := rest, resp := .written, ovr := true } := by
  have hrefused : ∀ f, State.present f { s with script := rest, resp := .written } =
      State.drop { s with script := rest, resp := .written } := fun f => present_refused (by exact hbusy) f
  cases hdec : decode v with
  | ok i =>
    rw [acted, fetch_wr_command h hlow hlegal hcmd hdec]
    exact hrefused _
  | error e =>
    rw [acted_wr_illegal h hlow hlegal hcmd hdec]
    exact hrefused _

end

/-! ## After the action -/

/-- R17: with `rst` low the engine has its turn after the action. -/
theorem step_of_low {s u : State} (h : acted s = u) (hlow : u.rst = false) : step s = .next (engineTurn u) := by
  rw [step_eq, h, afterAction, if_neg (by simp [hlow])]

/-- R241: with `rst` high it has none. -/
theorem step_of_high {s u : State} (h : acted s = u) (hhigh : u.rst = true) : step s = .next u := by
  rw [step_eq, h, afterAction, if_pos hhigh]

/-- R27: an idle engine makes no move, so that the action is the whole step. -/
theorem step_of_idle {s u : State} (h : acted s = u) (hidle : u.busy = false) : step s = .next u := by
  rw [step_eq, h, afterAction_idle hidle]

/-! ## Reset -/

/-- Settles O5: the write reaches CTRL and is SRST; the block it leaves is idle. -/
theorem softResetRestoresResetState : Obligations.SoftResetRestoresResetState := by
  unfold Obligations.SoftResetRestoresResetState
  intro s v rest hlow hscript hsrst
  have hacted := acted_wr_reg hscript hlow (legalWrite_full (by decide) (by decide)) (by decide)
  have hreset : acted s = State.softReset { s with script := rest, resp := .written } := hacted.trans (if_pos hsrst)
  rw [step_of_idle hreset rfl, State.softReset, hlow]
  rfl

/-- Settles O6: `rst` closes the ports and the bus and takes the engine's turn away; released, the block is still in the
reset state it was held in, so it is idle. -/
theorem resetInputHoldsResetState : Obligations.ResetInputHoldsResetState := by
  unfold Obligations.ResetInputHoldsResetState
  refine ⟨fun s rest hscript => ?_, fun s hhigh => ?_, fun s a v rest hhigh hscript => ?_, fun s rest hhigh hheld hscript => ?_⟩
  · exact step_of_high (acted_rst hscript) rfl
  · simp [State.inReady, State.outValid, State.irq, hhigh]
  · have hacted : acted s = { s with script := rest, resp := .busError } := by
      rcases hscript with hscript | hscript
      · rw [acted_rd hscript, State.busRead, if_pos (by simp [hhigh])]
        rfl
      · exact acted_wr_refused hscript (.inl hhigh)
    exact step_of_high hacted hhigh
  · have hidle : s.busy = false := by rw [hheld hhigh]; rfl
    rw [step_of_idle (acted_rst hscript) hidle, ← hheld hhigh]
    rfl

/-! ## Command writes -/

/-- Settles O7: the write is handed on as the command its word decodes to. -/
theorem stepRunsDecodedCommand : Obligations.StepRunsDecodedCommand := by
  unfold Obligations.StepRunsDecodedCommand
  intro s a v rest i hlow hscript hoff hsize hstrobes hdec
  have hlegal : a.legalWrite = true := legalWrite_iff.mpr ⟨legalRead_iff.mpr ⟨by rw [hoff], by rw [hoff]; decide, hsize⟩, hstrobes⟩
  rw [step, fetch_wr_command hscript hlow hlegal (by rw [hoff]; rfl) hdec]

/-- R94: a word with a reserved bit, with opcode 0 or with an opcode above 8 decodes to no command. -/
theorem decode_eq_error {v : Word}
    (h : v.extractLsb' 8 56 ≠ 0 ∨ v.extractLsb' 0 8 = 0 ∨ 8 < (v.extractLsb' 0 8).toNat) : ∃ e, decode v = .error e := by
  cases hdec : decode v with
  | error e => exact ⟨e, rfl⟩
  | ok i =>
    exfalso
    obtain ⟨hrsvd, hop⟩ := decode_eq_ok hdec
    have hrow : opcode i ≠ 0 ∧ (opcode i).toNat ≤ 8 := by cases i <;> decide
    rw [← hop] at hrow
    rcases h with h | h | h
    · exact h hrsvd
    · exact hrow.1 h
    · exact absurd hrow.2 (not_le.mpr h)

/-- Settles O9: the word decodes to no command (`decode_eq_error`), and the block, which takes command writes, raises. -/
theorem illegalWordRaisesError : Obligations.IllegalWordRaisesError := by
  unfold Obligations.IllegalWordRaisesError
  intro s v rest hlow hidle hnoErr hscript hword
  obtain ⟨e, hdec⟩ := decode_eq_error hword
  have hacted := acted_wr_illegal hscript hlow (legalWrite_full (by decide) (by decide)) rfl hdec
  rw [issueIllegal, present_idle (by exact hidle) (by exact hnoErr), raise_of_idle (by exact hidle)] at hacted
  exact step_of_idle hacted hidle

/-- Settles O10: the write is dropped (`acted_wr_dropped`), and no turn touches OVR, CUR_CMD or the latches. -/
theorem droppedCommandOnlySetsOvr : Obligations.DroppedCommandOnlySetsOvr := by
  unfold Obligations.DroppedCommandOnlySetsOvr
  intro s v rest hlow hscript
  have hdropped := acted_wr_dropped hscript hlow (legalWrite_full (by decide) (by decide)) rfl
  refine ⟨fun hidle herr => step_of_idle (hdropped (.inr herr)) hidle, fun hbusy => ?_⟩
  have hstep := step_of_low (hdropped (.inl hbusy)) hlow
  refine ⟨hstep, fun t ht => ?_⟩
  obtain ⟨-, -, -, -, -, -, -, -, -, -, -, hovr, hcur, hlenL, hcountL⟩ :=
    engineTurn_untouched { s with script := rest, resp := .written, ovr := true }
  rw [next_inj ht hstep]
  exact ⟨hcur, hlenL, hcountL, hovr⟩

/-- R70: a turn without a schedule goes on until the engine waits or completes. -/
theorem engineTurn_of_no_turns {s : State} (hbusy : s.busy = true) (h : s.turns = []) : engineTurn s = runUntilWaiting s := by
  rw [engineTurn, if_pos hbusy, h]

/-- R70: a turn of the schedule is its moves. -/
theorem engineTurn_of_turn {s : State} {ms : List EngineMove} {rest : List (List EngineMove)} (hbusy : s.busy = true)
    (h : s.turns = ms :: rest) : engineTurn s = ms.foldl engineMove { s with turns := rest } := by
  rw [engineTurn, if_pos hbusy, h]

/-- R70: an empty turn of the schedule is no move. -/
theorem engineTurn_of_empty_turn {s : State} {ts : List (List EngineMove)} (hbusy : s.busy = true) (h : s.turns = [] :: ts) :
    engineTurn s = { s with turns := ts } :=
  engineTurn_of_turn hbusy h

/-- Settles O11: the command is accepted (`issue_accept`), and the empty turn adds nothing. -/
theorem acceptanceLatchesOperands : Obligations.AcceptanceLatchesOperands := by
  unfold Obligations.AcceptanceLatchesOperands
  intro i s ts hidle hnoErr hturns hfits
  rw [exec_eq, present_idle hidle hnoErr, issue_accept hfits, engineTurn_of_empty_turn (s := s.accept i) rfl hturns]
  rfl

/-! ## Reads -/

/-- R61's list. -/
theorem unspecifiedWhileBusy_iff (r : Reg) : r.unspecifiedWhileBusy = true ↔ InexactWhileBusy r := by
  cases r <;> simp [Reg.unspecifiedWhileBusy, InexactWhileBusy]

theorem readDraws_iff (s : State) (r : Reg) :
    s.readDraws r = true ↔ s.busy = true ∧ (InexactWhileBusy r ∨ r = .status) := by
  rw [State.readDraws, Bool.and_eq_true, Bool.or_eq_true, unspecifiedWhileBusy_iff, beq_iff_eq]

theorem readValue_of_idle {s : State} (h : s.busy = false) (r : Reg) : s.readValue r = s.regValue r := by
  simp [State.readValue, h]

theorem readValue_of_inexact {s : State} {r : Reg} (hbusy : s.busy = true) (h : InexactWhileBusy r) :
    s.readValue r = Config.freeRead s.draws := by
  rw [State.readValue, if_pos hbusy, if_pos ((unspecifiedWhileBusy_iff r).mpr h)]

/-- R61: of STATUS only bits 4 and 5 are free while BUSY. -/
theorem readValue_status {s : State} (hbusy : s.busy = true) :
    ∃ empty single, s.readValue .status = statusWith s empty single := by
  rw [State.readValue, if_pos hbusy]
  exact ⟨_, _, rfl⟩

/-- R61: every other register is exact while BUSY. -/
theorem readValue_of_exact {s : State} {r : Reg} (h : r.unspecifiedWhileBusy = false) (hr : r ≠ .status) :
    s.readValue r = s.regValue r := by
  simp [State.readValue, h, hr]

/-- R23: the bits of a STATUS word other than EMPTY and SINGLE do not depend on what these read as. -/
theorem statusWith_getLsbD (s : State) (e e' g g' : Bool) {k : Nat} (h4 : k ≠ 4) (h5 : k ≠ 5) :
    (statusWith s e g).getLsbD k = (statusWith s e' g').getLsbD k := by
  obtain ⟨h0, h1, h2, h3, -⟩ := statusWith_fields s e g
  obtain ⟨h0', h1', h2', h3', -⟩ := statusWith_fields s e' g'
  have habove : ∀ (x y : Bool) (j : Nat), (statusWith s x y).getLsbD (1 + (1 + (1 + (1 + (1 + (1 + j)))))) =
      (0#48 ++ s.errSub ++ s.errCode ++ 0#2).getLsbD j := fun x y j =>
    (Driver.getLsbD_above (n := 63) (m := 1) _ _ _).trans <|
      (Driver.getLsbD_above (n := 62) (m := 1) _ _ _).trans <|
      (Driver.getLsbD_above (n := 61) (m := 1) _ _ _).trans <|
      (Driver.getLsbD_above (n := 60) (m := 1) _ _ _).trans <|
      (Driver.getLsbD_above (n := 59) (m := 1) _ _ _).trans <| Driver.getLsbD_above (n := 58) (m := 1) _ _ _
  match k with
  | 0 => rw [h0, h0']
  | 1 => rw [h1, h1']
  | 2 => rw [h2, h2']
  | 3 => rw [h3, h3']
  | 4 => exact absurd rfl h4
  | 5 => exact absurd rfl h5
  | j + 6 => rw [show j + 6 = 1 + (1 + (1 + (1 + (1 + (1 + j))))) by omega, habove, habove]

/-- A read that is served. -/
theorem busRead_legal {s : State} {a : Access} (hlow : s.rst = false) (hlegal : a.legalRead = true) :
    s.busRead a =
      { s with
        resp := .data (s.readValue (Reg.ofOffset a.off)),
        draws := if s.readDraws (Reg.ofOffset a.off) then s.draws + 1 else s.draws } := by
  rw [State.busRead, if_neg (by simp [hlow, hlegal])]

/-- Settles O14: `busRead_legal`, with the registers of R61's list told apart by `readDraws_iff`. -/
theorem readsArePureAndExactUnlessBusy : Obligations.ReadsArePureAndExactUnlessBusy := by
  unfold Obligations.ReadsArePureAndExactUnlessBusy
  refine ⟨fun s a rest hlow h8 hle hsize => ?_, fun s r => (readValue_of_idle · r), fun s r hbusy => ⟨?_, ?_, ?_⟩⟩
  · have hlegal : a.legalRead = true := legalRead_iff.mpr ⟨h8, hle, hsize⟩
    have hread := busRead_legal (s := { s with script := rest }) hlow hlegal
    rw [busRead_legal hlow hlegal]
    refine ⟨fun h => ?_, fun h => ?_, fun hscript => ?_, fun hscript hidle => ?_⟩
    · rw [if_pos ((readDraws_iff s _).mpr h)]
    · rw [if_neg fun hdraws => h ((readDraws_iff s _).mp hdraws)]
    · exact step_of_low (acted_rd hscript) (by rw [hread]; exact hlow)
    · have hnodraw : State.readDraws { s with script := rest } (Reg.ofOffset a.off) = false := by
        rw [State.readDraws, hidle]
        rfl
      rw [step_of_idle (acted_rd hscript) (by rw [hread]; exact hidle), hread, hnodraw, readValue_of_idle (by exact hidle)]
      rfl
  · exact readValue_of_inexact hbusy
  · rintro (rfl | rfl | rfl | rfl | rfl | rfl | rfl) <;> exact readValue_of_exact rfl (by decide)
  · rintro rfl k h4 h5
    obtain ⟨empty, single, hread⟩ := readValue_status hbusy
    rw [hread]
    exact statusWith_getLsbD s _ _ _ _ h4 h5

/-- Settles O15: the access is no legal read or write, so the bus answers with an error and nothing else happens. -/
theorem illegalAccessChangesNothing : Obligations.IllegalAccessChangesNothing := by
  unfold Obligations.IllegalAccessChangesNothing
  intro s a v rest hlow h
  have hacted : acted s = { s with script := rest, resp := .busError } := by
    rcases h with ⟨hscript, h⟩ | ⟨hscript, h⟩
    · have hillegal : ¬a.legalRead = true := by
        rw [legalRead_iff]
        omega
      rw [acted_rd hscript, State.busRead, if_pos (by simp [hillegal])]
      rfl
    · refine acted_wr_refused hscript (.inr (Bool.eq_false_iff.mpr fun hlegal => ?_))
      obtain ⟨hread, hstrobes⟩ := legalWrite_iff.mp hlegal
      rw [legalRead_iff] at hread
      rcases h with h | h | h | h
      · exact h hread.1
      · exact h hread.2.2
      · omega
      · exact h hstrobes
  exact ⟨step_of_low hacted hlow, step_of_idle hacted⟩

/-! ## Writes -/

/-- The state with other operand registers. -/
def State.withOperands (l c : Word) (s : State) : State := { s with len := l, count := c }

section
variable (l c : Word)

/-- R26: a body reads the latched operands, not LEN and COUNT. -/
theorem complete_withOperands (i : Instr) (s : State) (inp : List Byte) :
    (body i (s.withOperands l c) inp).complete = (body i s inp).complete.withOperands l c := by
  have hbody : (body i (s.withOperands l c) inp).out = (body i s inp).out ∧
      (body i (s.withOperands l c) inp).err = (body i s inp).err ∧
      (body i (s.withOperands l c) inp).after = (body i s inp).after.withOperands l c := by
    cases i with
    | deser =>
      simp only [body, deserBody]
      split <;> exact ⟨rfl, rfl, rfl⟩
    | _ => exact ⟨rfl, rfl, rfl⟩
  obtain ⟨hout, herr, hafter⟩ := hbody
  unfold Body.complete
  rw [hout, herr, hafter]
  cases (body i s inp).err <;> rfl

theorem available_withOperands (i : Instr) (s : State) : available i (s.withOperands l c) = available i s :=
  available_congr i rfl rfl rfl rfl rfl rfl

theorem popMany_withOperands (n : Nat) (s : State) : popMany n (s.withOperands l c) = (popMany n s).withOperands l c := by
  have hrun : (s.withOperands l c).running = s.running := rfl
  unfold popMany
  rw [hrun]
  cases s.running <;> rfl

theorem pushMany_withOperands (n : Nat) (s : State) : pushMany n (s.withOperands l c) = (pushMany n s).withOperands l c := by
  have hrun : (s.withOperands l c).running = s.running := rfl
  unfold pushMany
  simp only [hrun, available_withOperands]
  cases s.running <;> rfl

theorem tryComplete_withOperands (s : State) : tryComplete (s.withOperands l c) = (tryComplete s).withOperands l c := by
  cases hr : s.running with
  | none =>
    have hr' : (s.withOperands l c).running = none := hr
    simp [tryComplete, hr, hr']
  | some i =>
    have hr' : (s.withOperands l c).running = some i := hr
    have hout : (body i (s.withOperands l c) s.got).out = (body i s s.got).out :=
      (body_congr (s := s) (t := s.withOperands l c) i s.got rfl rfl rfl rfl).1
    rw [tryComplete_running hr, tryComplete_running hr', apply_ite (State.withOperands l c), ← complete_withOperands]
    show (if s.got.length = inputLen i s.lenL ∧ s.sent = (body i (s.withOperands l c) s.got).out.length then _ else _) = _
    rw [hout]
    rfl

theorem moves_withOperands (ms : List EngineMove) (s : State) :
    ms.foldl engineMove (s.withOperands l c) = (ms.foldl engineMove s).withOperands l c := by
  induction ms generalizing s with
  | nil => rfl
  | cons m ms ih =>
    rw [List.foldl_cons, List.foldl_cons, ← ih]
    congr 1
    cases m with
    | pop => exact popMany_withOperands l c 1 s
    | push => exact pushMany_withOperands l c 1 s
    | complete => exact tryComplete_withOperands l c s

theorem runUntilWaiting_withOperands (s : State) :
    runUntilWaiting (s.withOperands l c) = (runUntilWaiting s).withOperands l c := by
  have hinq : (s.withOperands l c).inq = s.inq := rfl
  have hrun : ∀ p : State, (p.withOperands l c).running = p.running := fun _ => rfl
  simp only [runUntilWaiting, hinq, hrun, popMany_withOperands, available_withOperands, pushMany_withOperands,
    tryComplete_withOperands]

theorem engineTurn_withOperands (s : State) : engineTurn (s.withOperands l c) = (engineTurn s).withOperands l c := by
  cases hb : s.busy with
  | false => rw [engineTurn_idle hb, engineTurn_idle (by exact hb)]
  | true =>
    have hb' : (s.withOperands l c).busy = true := hb
    cases ht : s.turns with
    | nil => rw [engineTurn_of_no_turns hb ht, engineTurn_of_no_turns hb' ht, runUntilWaiting_withOperands]
    | cons ms rest =>
      rw [engineTurn_of_turn hb ht, engineTurn_of_turn hb' ht]
      exact moves_withOperands l c ms { s with turns := rest }

end

/-- R62: writes to read-only registers and unmapped offsets are ignored. -/
theorem writeReg_ignored {off : Nat} (v : Word) (s : State) (h8 : off % 8 = 0) (hoff : off = 0x0000 ∨ 0x0030 ≤ off) :
    Reg.ofOffset off ≠ .cmd ∧ s.writeReg (Reg.ofOffset off) v = s := by
  have hne : ∀ {r : Reg} {n : Nat}, r.offset = some n → 0x0000 < n → n < 0x0030 → Reg.ofOffset off ≠ r := by
    intro r n hr hlow hhigh hreg
    have hmapped : Reg.ofOffset off ≠ .unmapped := by
      rintro hunmapped
      rw [← hreg, hunmapped] at hr
      cases hr
    have hoff' := offset_ofOffset h8 hmapped
    rw [hreg, hr, Option.some_inj] at hoff'
    omega
  have hctrl := hne (r := .ctrl) rfl (by decide) (by decide)
  have hstatus := hne (r := .status) rfl (by decide) (by decide)
  have hcmd := hne (r := .cmd) rfl (by decide) (by decide)
  have hlen := hne (r := .len) rfl (by decide) (by decide)
  have hcount := hne (r := .count) rfl (by decide) (by decide)
  refine ⟨hcmd, ?_⟩
  cases hreg : Reg.ofOffset off with
  | ctrl => exact absurd hreg hctrl
  | status => exact absurd hreg hstatus
  | cmd => exact absurd hreg hcmd
  | len => exact absurd hreg hlen
  | count => exact absurd hreg hcount
  | _ => rfl

/-- R23: the W1C of DONE. -/
theorem writeStatus_eq (v : Word) (s : State) : s.writeStatus v = { s with done := s.done && !v.getLsbD 1 } := by
  unfold State.writeStatus
  cases v.getLsbD 1 <;> simp

/-- Settles O16: each offset leads to its register, whose write is the one stated; the engine reads the latched operands, so
that its turn commutes with writes to LEN and COUNT (`engineTurn_withOperands`). -/
theorem registerWritesActAsStated : Obligations.RegisterWritesActAsStated := by
  unfold Obligations.RegisterWritesActAsStated
  refine ⟨fun u => engineTurn_idle, fun u l c => engineTurn_withOperands l c u, fun s off v rest hlow hscript h8 hle => ?_⟩
  have hacted := acted_wr_reg hscript hlow (legalWrite_full h8 hle)
  refine ⟨?_, ?_, ?_, ?_, fun hoff => ?_⟩
  · rintro rfl hsrst
    exact step_of_low ((hacted (by decide)).trans (if_neg (Bool.eq_false_iff.mp hsrst))) hlow
  · rintro rfl
    exact step_of_low ((hacted (by decide)).trans (writeStatus_eq v _)) hlow
  · rintro rfl
    exact step_of_low (hacted (by decide)) hlow
  · rintro rfl
    exact step_of_low (hacted (by decide)) hlow
  · obtain ⟨hcmd, hignored⟩ := writeReg_ignored v { s with script := rest, resp := .written } h8 hoff
    exact step_of_low ((hacted hcmd).trans hignored) hlow

/-! ## The interrupt line and the stream ports -/

theorem irq_of_low {s : State} (h : s.rst = false) : s.irq = (s.done && s.ieDone || s.err && s.ieErr) := by
  simp [State.irq, h]

/-- Settles O17: `irq_of_low`; CLRF on a ready block ends with DONE (`exec_clrf`), and the W1C clears it. -/
theorem interruptFollowsDoneAndErr : Obligations.InterruptFollowsDoneAndErr := by
  unfold Obligations.InterruptFollowsDoneAndErr
  intro s hlow
  refine ⟨?_, fun hready hie => ⟨_, exec_clrf hready, ?_⟩, fun hnoErr => ?_⟩
  · rw [irq_of_low hlow, Bool.or_eq_true, Bool.and_eq_true, Bool.and_eq_true]
  · rw [irq_of_low (by exact hlow)]
    simp [hie]
  · rw [writeStatus_eq, irq_of_low (by exact hlow)]
    simp [hnoErr]

theorem inReady_of_low {s : State} (h : s.rst = false) : s.inReady = within s.inDepth (s.inq.length + 1) := by
  rw [State.inReady, h, Bool.eq_iff_iff, Bool.not_false, Bool.true_and, roomIn_iff]

theorem outValid_of_low {s : State} (h : s.rst = false) : s.outValid = !s.outq.isEmpty := by
  rw [State.outValid, h]
  rfl

/-- Settles O18: what `in_ready` and `out_valid` are with `rst` low; the engine's turn follows. -/
theorem portsAreQueues : Obligations.PortsAreQueues := by
  unfold Obligations.PortsAreQueues
  refine ⟨fun u => engineTurn_idle, fun s rest hlow => ⟨?_, ?_, ?_, ?_⟩⟩
  · intro b hscript hroom
    have hacted : acted s = { s with script := rest, inq := s.inq ++ [b] } := by
      rw [acted_push hscript, offerByte, inReady_of_low hlow, if_pos hroom]
      rfl
    exact step_of_low hacted hlow
  · intro b hscript hfull
    have hacted : acted s = s := by rw [acted_push hscript, offerByte, inReady_of_low hlow, if_neg (by simp [hfull])]
    exact step_of_low hacted hlow
  · intro b q hscript hout
    have hacted : acted s = { s with script := rest, outq := q, taken := s.taken ++ [b] } := by
      rw [acted_pop hscript, takeByte, outValid_of_low hlow, if_pos (by simp [hout]), State.popOut, hout]
      rfl
    exact step_of_low hacted hlow
  · intro hscript hout
    have hacted : acted s = s := by rw [acted_pop hscript, takeByte, outValid_of_low hlow, if_neg (by simp [hout])]
    exact step_of_low hacted hlow

/-! ## What the host cannot write -/

/-- R61, R63: a read changes the response and uses up at most one free value. -/
theorem busRead_eq (s : State) (a : Access) : ∃ (r : BusResp) (n : Nat), s.busRead a = { s with resp := r, draws := n } := by
  unfold State.busRead
  split
  · exact ⟨.busError, s.draws, rfl⟩
  · exact ⟨_, _, rfl⟩

theorem kept_busRead (s : State) (a : Access) (p : List HostAction) : Kept s (State.busRead a { s with script := p }) := by
  obtain ⟨r, n, h⟩ := busRead_eq { s with script := p } a
  exact h ▸ kept_hosted s p r n

theorem kept_offerByte (s : State) (b : Byte) (p : List HostAction) : Kept s (offerByte b p s) := by
  unfold offerByte
  split
  · exact ⟨rfl, id, id, id⟩
  · exact ⟨rfl, id, id, id⟩

theorem kept_takeByte (s : State) (p : List HostAction) : Kept s (takeByte p s) := by
  unfold takeByte
  split
  · exact ⟨rfl, id, id, id⟩
  · exact ⟨rfl, id, id, id⟩

theorem kept_waitIdle (s : State) (p : List HostAction) : Kept s (waitIdle p s) := by
  obtain ⟨r, n, h⟩ := busRead_eq s (Access.full 0x0010)
  rw [waitIdle, h]
  cases r with
  | data v =>
    dsimp only
    split
    · exact kept_hosted s s.script (.data v) n
    · exact kept_hosted s p (.data v) n
  | none => exact kept_hosted s s.script .none n
  | written => exact kept_hosted s s.script .written n
  | busError => exact kept_hosted s s.script .busError n

/-- R62: a write to another register than CMD and without SRST. -/
theorem kept_writeReg (s : State) (p : List HostAction) {r : Reg} (v : Word) (hcmd : r ≠ .cmd)
    (hsrst : r = .ctrl → v.getLsbD 0 = false) : Kept s (State.writeReg r v { s with script := p, resp := .written }) := by
  cases r with
  | ctrl =>
    have hplain := Bool.eq_false_iff.mp (hsrst rfl)
    rw [State.writeReg, State.writeCtrl, if_neg hplain]
    exact ⟨rfl, id, id, id⟩
  | status =>
    rw [State.writeReg, writeStatus_eq]
    exact ⟨rfl, fun h => (Bool.and_eq_true_iff.mp h).1, id, id⟩
  | cmd => exact absurd rfl hcmd
  | len => exact ⟨rfl, id, id, id⟩
  | count => exact ⟨rfl, id, id, id⟩
  | _ => exact kept_hosted s p .written s.draws

/-- An action that neither resets nor writes at CMD. -/
theorem acted_kept {s : State} (hreset : resets s = false) (hcmd : ∀ a v rest, s.script = .wr a v :: rest → a.off ≠ 0x0018) :
    Kept s (acted s) := by
  cases hscript : s.script with
  | nil =>
    have hacted : acted s = s := by rw [acted, fetch, hscript]
    rw [hacted]
    exact kept_hosted s s.script s.resp s.draws
  | cons action rest =>
    cases action with
    | rd a => exact acted_rd hscript ▸ kept_busRead s a rest
    | push b => exact acted_push hscript ▸ kept_offerByte s b rest
    | pop => exact acted_pop hscript ▸ kept_takeByte s rest
    | wait => exact acted_wait hscript ▸ kept_waitIdle s rest
    | rst level =>
      rw [resets, hscript] at hreset
      obtain rfl : level = false := hreset
      rw [acted_rst hscript]
      exact ⟨rfl, id, id, fun _ => rfl⟩
    | wr a v =>
      by_cases hserved : s.rst = false ∧ a.legalWrite = true
      · obtain ⟨hlow, hlegal⟩ := hserved
        have h8 : a.off % 8 = 0 := (legalRead_iff.mp (legalWrite_iff.mp hlegal).1).1
        have hoff : ∀ {r : Reg}, Reg.ofOffset a.off = r → r ≠ .unmapped → r.offset = some a.off := by
          rintro r rfl hmapped
          exact offset_ofOffset h8 hmapped
        have hreg : Reg.ofOffset a.off ≠ .cmd := fun h =>
          hcmd a v rest hscript (Option.some.inj (hoff h (nomatch ·))).symm
        rw [acted_wr_reg hscript hlow hlegal hreg]
        refine kept_writeReg s rest v hreg fun h => ?_
        have hctrl : a.off = 0x0008 := (Option.some.inj (hoff h (nomatch ·))).symm
        simpa [resets, hscript, hlow, hlegal, hctrl] using hreset
      · have hrefused : s.rst = true ∨ a.legalWrite = false := by
          simpa only [not_and_or, Bool.not_eq_false, Bool.not_eq_true] using hserved
        exact acted_wr_refused hscript hrefused ▸ kept_hosted s rest .busError s.draws

/-- Settles O50: an idle engine makes no move; while BUSY an action that is no reset is kept, a command write included, as it
is dropped. -/
theorem hostCannotWriteTables : Obligations.HostCannotWriteTables := by
  unfold Obligations.HostCannotWriteTables
  intro s t hstep hreset
  obtain ⟨heffect, hturn⟩ := step_cases hstep
  refine ⟨fun hidle hcmd => ?_, fun hbusy hlow => ⟨acted s, ?_⟩⟩
  · have hkept := acted_kept hreset hcmd
    obtain rfl : t = acted s := by
      rcases hturn with ⟨h, -⟩ | ⟨h, -⟩
      · exact h
      · rw [h, engineTurn_idle (hkept.busy.trans hidle)]
    exact ⟨hkept.freq, hkept.total, hkept.node, hkept.root, hkept.nnodes, hkept.code, hkept.outCount, hkept.errInfo,
      hkept.curCmd, hkept.lenL, hkept.countL⟩
  · have hkept : Kept s (acted s) := by
      cases heffect with
      | kept h => exact h
      | reset h => exact absurd (h.symm.trans hreset) (by decide)
      | accepted i u hb => exact absurd (hb.symm.trans hbusy) (by decide)
      | refused c info u hb => exact absurd (hb.symm.trans hbusy) (by decide)
    have htlow := hkept.low hlow
    rcases hturn with ⟨-, hhigh⟩ | ⟨h, -⟩
    · exact absurd (htlow.symm.trans hhigh) (by decide)
    · exact ⟨h, hkept.freq, hkept.total, hkept.node, hkept.root, hkept.nnodes, hkept.code, hkept.outCount, hkept.errInfo,
        hkept.curCmd, hkept.lenL, hkept.countL, hkept.busy.trans hbusy, hkept.err, hkept.errCode, hkept.errSub, hkept.got,
        hkept.sent⟩

end Sys2Proof.Machine
end

section
/-! PROOFS. The engine's turn while a command runs (`20_memory.md` rules R64, R65, R70): when it has to wait, when it
completes, and that what it may push does not depend on how its moves are interleaved. -/

namespace Sys2Proof.Machine

theorem Progress.outCount {s t : State} (h : Progress s t) : t.outCount = s.outCount := by rw [h.same]
theorem Progress.done {s t : State} (h : Progress s t) : t.done = s.done := by rw [h.same]
theorem Progress.err {s t : State} (h : Progress s t) : t.err = s.err := by rw [h.same]

/-- R27, R70: what the sequencer's invariant says of the running command. -/
theorem SequencerInv.within_input {s : State} {i : Instr} (h : SequencerInv s) (hrun : s.running = some i) :
    s.got.length ≤ inputLen i s.lenL ∧ s.sent ≤ (available i s).length := by
  obtain ⟨-, -, hbusy⟩ := h
  obtain ⟨j, hj, hbounds⟩ := hbusy (State.busy_of_running hrun)
  obtain rfl : i = j := Option.some.inj (hrun.symm.trans hj)
  exact hbounds

/-! ## Waiting -/

/-- R64: the popped bytes and those in IN are a fixed sequence. -/
theorem Progress.got_inq {s t : State} (h : Progress s t) : t.got ++ t.inq = s.got ++ s.inq := by
  obtain ⟨xs, hgot, hinq⟩ := h.popped
  rw [hgot, hinq, List.append_assoc]

/-- R64: a command completes only if IN has delivered its whole input. -/
theorem Completes.fed {s t u : State} {i : Instr} (h : Completes s t i u) : inputLen i s.lenL ≤ s.got.length + s.inq.length := by
  have hlen := congrArg List.length h.progress.got_inq
  rw [List.length_append, List.length_append, h.popped, h.progress.lenL] at hlen
  omega

/-- Settles O19: `Completes.fed` excludes the completion, and a turn without it changes the queues only. -/
theorem starvedCommandWaits : Obligations.StarvedCommandWaits := by
  unfold Obligations.StarvedCommandWaits
  intro s i hrun hstarved
  rcases engineTurn_cases s with h | ⟨j, u, h⟩
  · refine ⟨h.busy.trans (State.busy_of_running hrun), h.done, h.err, ?_, ?_, ?_, ?_, h.outCount, h.freq, h.total, h.node, h.root,
      h.nnodes, h.code, h.got_inq⟩
    all_goals rw [h.same]
  · obtain rfl : i = j := Option.some.inj (hrun.symm.trans h.was_running)
    exact absurd h.fed (Nat.not_le.mpr hstarved)

/-- R206: the output of a command that completes, as a function of the state the turn starts in. -/
theorem Completes.out {s t u : State} {i : Instr} (h : Completes s t i u) :
    (body i u u.got).out = (body i s (s.got ++ s.inq.take (inputLen i s.lenL - s.got.length))).out := by
  have hp := h.progress
  rw [(hp.popped_all h.popped).1]
  exact (body_congr i _ hp.code hp.node hp.root hp.countL).1

/-- R65: a command completes only if OUT takes all that is still to be pushed. -/
theorem Completes.drained {s t u : State} {i : Instr} (h : Completes s t i u) (hfit : QueuesFit s) :
    OutTakes s ((body i s (s.got ++ s.inq.take (inputLen i s.lenL - s.got.length))).out.length - s.sent) := by
  obtain ⟨ys, houtq, hsent⟩ := h.progress.pushed
  have hdepth : u.outDepth = s.outDepth := by rw [h.progress.same]
  have hfits := (h.progress.fit hfit).2
  rw [houtq, List.length_append, hdepth] at hfits
  rw [← h.out, ← h.pushed, hsent, Nat.add_sub_cancel_left]
  exact hfits

/-- Settles O20: `Completes.drained` excludes the completion. -/
theorem undrainedCommandWaits : Obligations.UndrainedCommandWaits := by
  unfold Obligations.UndrainedCommandWaits
  intro s i hrun hseq hfit hfull
  rcases engineTurn_cases s with h | ⟨j, u, h⟩
  · exact ⟨h.busy.trans (State.busy_of_running hrun), h.done, h.err, h.outCount⟩
  · obtain rfl : i = j := Option.some.inj (hrun.symm.trans h.was_running)
    exact absurd (h.drained hfit) hfull

/-! ## What the engine may push -/

theorem available_of_popped {i : Instr} {s : State} (h : s.got.length = inputLen i s.lenL) :
    available i s = (body i s s.got).out := if_pos h

theorem available_of_unpopped {i : Instr} {s : State} (h : s.got.length ≠ inputLen i s.lenL) :
    available i s = streamed i s := if_neg h

/-- R70: what the engine may push begins every output the command may still have. -/
theorem available_prefix_out (i : Instr) (s : State) {more : List Byte} (h : s.got.length + more.length = inputLen i s.lenL) :
    (available i s).IsPrefix (body i s (s.got ++ more)).out := by
  by_cases hpopped : s.got.length = inputLen i s.lenL
  · obtain rfl : more = [] := List.eq_nil_of_length_eq_zero (by omega)
    rw [available_of_popped hpopped, List.append_nil]
  · rw [available_of_unpopped hpopped]
    exact streamed_prefix i s more h

/-- R166: DESER pushes nothing. -/
theorem body_deser_out (s : State) (inp : List Byte) : (body .deser s inp).out = [] := by
  simp only [body, deserBody]
  split
  · rfl
  · rfl

/-- R70 (c): with input still to come, what begins every output is already streamed. -/
theorem streamed_exact {i : Instr} {s : State} {p : List Byte} (htree : TreeInv s) (hcodes : CodesOfTree s)
    (hopen : s.got.length < inputLen i s.lenL)
    (h : ∀ more : List Byte, s.got.length + more.length = inputLen i s.lenL → p.IsPrefix (body i s (s.got ++ more)).out) :
    p.IsPrefix (streamed i s) := by
  have hcloses : ∀ {more : List Byte}, more.length = inputLen i s.lenL - s.got.length →
      s.got.length + more.length = inputLen i s.lenL := by omega
  have hsilent : (∀ inp, (body i s inp).out = []) → p.IsPrefix [] := fun hout => by
    have hp := h (List.replicate _ 0) (hcloses List.length_replicate)
    rwa [hout] at hp
  cases i with
  | hist => exact hsilent fun _ => rfl
  | deser => exact hsilent (body_deser_out s)
  | pack =>
    obtain ⟨n, hn⟩ : ∃ n, inputLen .pack s.lenL - s.got.length = n + 1 := ⟨_, (Nat.succ_pred_eq_of_pos (by omega)).symm⟩
    exact packRun_exact htree hcodes s.got p n fun more hmore => h more (hcloses (hmore.trans hn.symm))
  | unpack => exact determinedByPrefix_exact htree s.countL.toNat _ s.got p fun more hmore => h more (hcloses hmore)
  | _ => exact absurd hopen (Nat.not_lt_zero _)

/-- Settles O22: `available_prefix_out` one way; the other way with the empty rest once all input is popped, and
`streamed_exact` before. -/
theorem availableOutputIsDetermined : Obligations.AvailableOutputIsDetermined := by
  unfold Obligations.AvailableOutputIsDetermined
  intro i s p htree hcodes hgot
  refine ⟨fun h more hmore => h.trans (available_prefix_out i s hmore), fun h => ?_⟩
  rcases hgot.eq_or_lt with hpopped | hopen
  · rw [available_of_popped hpopped]
    simpa using h [] (by simpa using hpopped)
  · rw [available_of_unpopped hopen.ne]
    exact streamed_exact htree hcodes hopen h

/-! ## Completion -/

/-- R70: what was pushed before is a beginning of the output, so the sent count is bounded by it. -/
theorem SequencerInv.sent_le_out {s : State} {i : Instr} (h : SequencerInv s) (hrun : s.running = some i)
    (hfed : inputLen i s.lenL ≤ s.got.length + s.inq.length) :
    s.sent ≤ (body i s (s.got ++ s.inq.take (inputLen i s.lenL - s.got.length))).out.length := by
  obtain ⟨hgot, hsent⟩ := h.within_input hrun
  have hwhole : s.got.length + (s.inq.take (inputLen i s.lenL - s.got.length)).length = inputLen i s.lenL := by
    rw [List.length_take]
    omega
  exact hsent.trans (available_prefix_out i s hwhole).length_le

/-- Settles O21: by `runUntilWaiting_completes`. -/
theorem fedAndDrainedCommandCompletes : Obligations.FedAndDrainedCommandCompletes := by
  unfold Obligations.FedAndDrainedCommandCompletes
  intro s i hrun hseq hturns hfed hroom
  obtain ⟨hgot, -⟩ := hseq.within_input hrun
  rw [engineTurn_of_no_turns (State.busy_of_running hrun) hturns,
    runUntilWaiting_completes hrun rfl hgot (hseq.sent_le_out hrun hfed) hfed (.inr hroom)]
  refine ⟨Body.complete_busy _, ?_⟩
  rw [Body.complete_done, Body.complete_err]
  cases (body i _ _).err <;> simp

/-- R207: a completed turn is determined by the state it starts in. -/
theorem Completes.before {s t u : State} {i : Instr} (h : Completes s t i u) (hseq : SequencerInv s) (hturns : t.turns = s.turns) :
    u = { s with
      got := s.got ++ s.inq.take (inputLen i s.lenL - s.got.length), inq := s.inq.drop (inputLen i s.lenL - s.got.length),
      outq := s.outq ++ (body i u u.got).out.drop s.sent, sent := (body i u u.got).out.length } := by
  have hp := h.progress
  obtain ⟨hgot, hsent⟩ := hseq.within_input h.was_running
  obtain ⟨hgot', hinq'⟩ := hp.popped_all h.popped
  have houtq : u.outq = s.outq ++ (body i u u.got).out.drop s.sent := by
    obtain ⟨hle, houtq⟩ := hp.due i h.was_running hgot hsent
    rw [available_of_popped h.popped, h.pushed] at houtq
    rw [houtq, List.take_of_length_le (List.length_drop ▸ le_rfl)]
  have hturns' : u.turns = s.turns := by
    obtain ⟨f, n, m, r, k, d, hafter⟩ := body_after i u u.got
    rw [← hturns, h.result, Body.complete_turns, hafter]
  rw [← hgot', ← hinq', ← houtq, ← h.pushed, ← hturns']
  exact hp.same

/-- Settles O23: the moves are a turn that completed (`turned_moves`), as is the one that goes on to the end; the state before
the completion is the same (`Completes.before`). -/
theorem interleavingDoesNotMatter : Obligations.InterleavingDoesNotMatter := by
  unfold Obligations.InterleavingDoesNotMatter
  intro s i ms hrun hseq _ hout hfed hidle
  obtain ⟨hgot, -⟩ := hseq.within_input hrun
  rcases turned_moves ms s with h | ⟨j, u, h⟩
  · exact absurd ((h.busy.symm.trans hidle).symm.trans (State.busy_of_running hrun)) (by decide)
  · obtain rfl : i = j := Option.some.inj (hrun.symm.trans h.was_running)
    rw [runUntilWaiting_completes hrun rfl hgot (hseq.sent_le_out hrun hfed) hfed (.inr (outTakes_of_unbounded hout _)), ← h.out,
      ← (h.progress.popped_all h.popped).1]
    have hu := h.before hseq (moves_turns ms s)
    rw [← (h.progress.popped_all h.popped).1] at hu
    rw [h.result]
    exact congrArg (fun v => (body i v u.got).complete) hu

end Sys2Proof.Machine
end

section
/-! PROOFS. BUILD (`41_build.md` rules R121 to R127): its frame, and the tree it leaves, which is that of the frequency table
(`buildTree`) with the facts of `Built`. -/

namespace Sys2Proof.Machine

/-- R121: the node table BUILD leaves. -/
theorem exec_build_tree {s : State} (h : Ready s) :
    ∃ t, exec .build s = .next t ∧ t.node = (buildTree s.freq).node ∧ t.root = (buildTree s.freq).root ∧
      t.nnodes = (buildTree s.freq).nnodes := ⟨_, exec_build h, rfl, rfl, rfl⟩

/-- R31: a sum that stands in TOTAL is below 2^64. -/
theorem TotalIsSum.freqSum_lt {s : State} (h : TotalIsSum s) : freqSum s.freq < 2 ^ 64 := by
  rw [← h]
  exact s.total.isLt

/-- Settles O26: `exec_build`, twice. -/
theorem buildReplacesTreeOnly : Obligations.BuildReplacesTreeOnly := by
  unfold Obligations.BuildReplacesTreeOnly
  intro s hready
  refine ⟨_, _, _, exec_build hready, fun u hfreq hu => ?_⟩
  rw [← hfreq]
  exact exec_build_tree hu

/-- Settles O28: the facts of `Built`; the sums are exact because TOTAL is the sum of the counters. -/
theorem buildTreeCarriesTheCounts : Obligations.BuildTreeCarriesTheCounts := by
  unfold Obligations.BuildTreeCarriesTheCounts
  intro s hready hsum hpresent
  obtain ⟨t, hexec, hnode, hroot, hnnodes⟩ := exec_build_tree hready
  obtain ⟨sh, hbuilt⟩ := buildTree_some hpresent
  have htree : t.tree = sh.tree := by rw [State.tree, hnode, hroot, hbuilt.treeOf_eq]
  refine ⟨t, hexec, htree ▸ hbuilt.leaves, htree ▸ sh.full_tree, ?_, ?_, ?_, ?_⟩
  · rw [hnnodes, hbuilt.nnodes, hbuilt.size]
  · refine BitVec.eq_of_toNat_eq ?_
    rw [hnode, hroot, hbuilt.total hsum.freqSum_lt, hsum]
  · rw [hnode]
    exact fun i hvalid hleaf => (hbuilt.leafAt i hvalid hleaf).2.2
  · rw [hnode]
    exact hbuilt.sums hsum.freqSum_lt

/-- Settles O29: `Built` again; without a present symbol no entry is valid. -/
theorem buildPlacesNodesAsStated : Obligations.BuildPlacesNodesAsStated := by
  unfold Obligations.BuildPlacesNodesAsStated
  intro s hready
  obtain ⟨t, hexec, hnode, hroot, -⟩ := exec_build_tree hready
  refine ⟨t, hexec, ?_⟩
  rw [hnode, hroot]
  by_cases hpresent : present s.freq = []
  · rw [buildTree_none hpresent, hpresent]
    have hinvalid : ∀ i, (nodeAt TreeTable.none.node i).valid = false := fun i =>
      congrArg Node.valid (nodeAt_noNodes i)
    exact ⟨fun i h => absurd h (by simp [hinvalid]), fun i h => absurd h (by simp [hinvalid]), by simp⟩
  · obtain ⟨sh, hbuilt⟩ := buildTree_some hpresent
    refine ⟨fun i hvalid hleaf => ?_, hbuilt.innerAt, fun htwo => ?_⟩
    · obtain ⟨hindex, hcount, -⟩ := hbuilt.leafAt i hvalid hleaf
      exact ⟨hindex, hcount⟩
    · have hle := present_length_le s.freq
      rw [hbuilt.rootAt htwo, BitVec.toNat_ofNat, Nat.mod_eq_of_lt (by omega)]

/-- Settles O31: `Built` says that the stored tree is reached by merges. -/
theorem buildIsAnAdmittedMerge : Obligations.BuildIsAnAdmittedMerge := by
  unfold Obligations.BuildIsAnAdmittedMerge
  intro s hready hsum hpresent
  obtain ⟨t, hexec, hnode, hroot, -⟩ := exec_build_tree hready
  obtain ⟨sh, hbuilt⟩ := buildTree_some hpresent
  refine ⟨t, hexec, ?_⟩
  rw [State.tree, hnode, hroot, hbuilt.treeOf_eq, hsum]
  exact hbuilt.merges hsum.freqSum_lt

end Sys2Proof.Machine
end

section
/-! PROOFS. The stream commands: PACK on a byte without a code (`43_pack.md` rules R141, R143), UNPACK along the paths of the
tree (`44_unpack.md` rules R151 to R154), and every command on a fresh block (`70_reset_and_hazards.md` rule R243). -/

namespace Sys2Proof.Machine

/-! ## PACK -/

/-- R141, R69: at a byte without a code the pending bits are discarded; the whole bytes before it stay. -/
theorem packRun_missing {c : CodeTable} {front back : List Byte} {b : Byte} (hcov : covers c front = true)
    (hb : (codeAt c b).valid = false) :
    (packRun c (front ++ b :: back)).flushed = wholeBytes (streamOf c front) ∧
      (packRun c (front ++ b :: back)).error = some (.inputMismatch, BitVec.ofNat 64 front.length) := by
  obtain ⟨hout, herr⟩ := packRun_uncovered (back := back) hcov hb
  constructor
  · rw [Packing.flushed, herr]
    exact hout
  · rw [Packing.error, herr]
    rfl

/-- Settles O35: `packRun_missing`, completed with the error. -/
theorem packReportsFirstMissingCode : Obligations.PackReportsFirstMissingCode := by
  unfold Obligations.PackReportsFirstMissingCode
  intro s front back b hready hfed hinput hcov hb hroom
  obtain ⟨hout, herr⟩ := packRun_missing (back := back) hcov hb
  rw [← hinput] at hout herr
  rw [exec_pack hready hfed (by rwa [hout, wholeBytes_length]), hout, Body.complete_of_error herr, encode_pack,
    wholeBytes_length, wholeBytes_eq_take]
  rfl

/-! ## UNPACK -/

/-- Settles O36: the loop emits the leaves whose paths it reads (`unpackRun_success`). -/
theorem unpackEmitsTheLeavesReached : Obligations.UnpackEmitsTheLeavesReached := by
  unfold Obligations.UnpackEmitsTheLeavesReached
  intro s cs hready hfed hcs hcount hpayload hroom
  obtain ⟨hout, herr⟩ := unpackRun_success hcs hpayload
  rw [hcount] at hout herr
  have hnoErr : (unpackRun s.node s.root s.count.toNat (s.inq.take s.len.toNat)).error = none := by
    rw [Unpacking.error, herr]
    rfl
  rw [exec_unpack hready hfed (.inr (by rwa [hout, List.length_map])), hout, Body.complete_of_noError hnoErr, encode_unpack,
    List.length_map, hcount, BitVec.ofNat_toNat, BitVec.setWidth_eq]

/-- Settles O37: the loop stops strictly above a leaf (`unpackRun_exhausted`), completed with the error. -/
theorem unpackReportsExhaustedPayload : Obligations.UnpackReportsExhaustedPayload := by
  unfold Obligations.UnpackReportsExhaustedPayload
  intro s cs way hready hfed hcs hcount hpayload ⟨v, more, hmore, hv⟩ hroom
  obtain ⟨hout, herr⟩ := unpackRun_exhausted hcs hcount hpayload hmore hv
  have hexhausted : (unpackRun s.node s.root s.count.toNat (s.inq.take s.len.toNat)).error =
      some (.payloadExhausted, BitVec.ofNat 64 cs.length) := by
    rw [Unpacking.error, herr]
    rfl
  rw [exec_unpack hready hfed (.inr (by rwa [hout, List.length_map])), hout, Body.complete_of_error hexhausted, encode_unpack,
    List.length_map]
  rfl

/-! ## The freshly reset block -/

theorem streamOf_nil (c : CodeTable) : streamOf c [] = [] := List.flatMap_nil

theorem payloadOfStream_nil : payloadOfStream [] = [] := by
  simp [payloadOfStream]

theorem present_zeroFreq : present zeroFreq = [] := by
  simp [present]

/-- R243: with LEN = COUNT = 0 every command completes on a fresh block, without output and with the empty tree. -/
theorem exec_fresh {s : State} (hfresh : s.softReset = s) (hready : Ready s) (i : Instr) :
    ∃ t, exec i s = .next t ∧ t.done = true ∧ t.busy = false ∧ t.err = false ∧ t.outq = [] ∧ t.outCount = 0 ∧ t.root = NIL ∧
      t.nnodes = 0 := by
  have herr : s.err = false := hready.2.1
  have hlen : s.len = 0 := (congrArg State.len hfresh).symm
  have hcount : s.count = 0 := (congrArg State.count hfresh).symm
  have htotal : s.total = 0 := (congrArg State.total hfresh).symm
  have hfreq : s.freq = zeroFreq := (congrArg State.freq hfresh).symm
  have hroot : s.root = NIL := (congrArg State.root hfresh).symm
  have hnnodes : s.nnodes = 0 := (congrArg State.nnodes hfresh).symm
  have houtq : s.outq = [] := (congrArg State.outq hfresh).symm
  have hfed : s.len.toNat ≤ s.inq.length := by simp [hlen]
  have hinput : s.inq.take s.len.toNat = [] := by simp [hlen]
  cases i with
  | clrf => exact ⟨_, exec_clrf hready, rfl, rfl, herr, houtq, rfl, hroot, hnnodes⟩
  | hist =>
    have hfits : s.total.toNat + s.len.toNat < 2 ^ 64 := by simp [htotal, hlen]
    exact ⟨_, exec_hist hready hfits hfed, rfl, rfl, herr, houtq, rfl, hroot, hnnodes⟩
  | build =>
    have hnone : buildTree s.freq = TreeTable.none := buildTree_none (hfreq ▸ present_zeroFreq)
    exact ⟨_, exec_build hready, rfl, rfl, herr, houtq, rfl, congrArg TreeTable.root hnone, congrArg TreeTable.nnodes hnone⟩
  | gencode => exact ⟨_, exec_gencode hready, rfl, rfl, herr, houtq, rfl, hroot, hnnodes⟩
  | pack =>
    have hexec := packPushesThePayload s hready hfed (by rw [hinput]; rfl) (by
      rw [hinput, streamOf_nil, payloadOfStream_nil, OutTakes, houtq]
      exact within_zero _)
    rw [hinput, streamOf_nil, payloadOfStream_nil, List.append_nil] at hexec
    exact ⟨_, hexec, rfl, rfl, herr, houtq, rfl, hroot, hnnodes⟩
  | unpack => exact ⟨_, (unpackOnEmptyTree s hready hfed hroot).1 hcount, rfl, rfl, herr, houtq, rfl, hroot, hnnodes⟩
  | ser =>
    have hser : s.tree.ser = [] := by rw [State.tree, hroot]; rfl
    have hexec := exec_ser hready (by rw [hser, OutTakes, houtq]; exact within_zero _)
    rw [hser, List.append_nil] at hexec
    exact ⟨_, hexec, rfl, rfl, herr, houtq, rfl, hroot, hnnodes⟩
  | deser =>
    have hparse : parseTree (s.inq.take s.len.toNat) = .ok TreeTable.none := by rw [hinput, parseTree_nil]
    exact ⟨_, exec_deser_ok hready hfed hparse, rfl, rfl, herr, houtq, rfl, rfl, rfl⟩

/-- Settles O44: `exec_fresh`; UNPACK by `unpackOnEmptyTree`, PACK by `packReportsFirstMissingCode` with nothing before the
byte, as no byte has a code. -/
theorem freshBlockRunsEveryCommand : Obligations.FreshBlockRunsEveryCommand := by
  unfold Obligations.FreshBlockRunsEveryCommand
  intro s n c q hfresh hlow hturns hfed
  have hidle : s.busy = false := (congrArg State.busy hfresh).symm
  have hnoErr : s.err = false := (congrArg State.err hfresh).symm
  have hroot : s.root = NIL := (congrArg State.root hfresh).symm
  have hcount : s.count = 0 := (congrArg State.count hfresh).symm
  have hcode : s.code = noCodes := (congrArg State.code hfresh).symm
  have houtq : s.outq = [] := (congrArg State.outq hfresh).symm
  have hready : Ready s := ⟨hidle, hnoErr, hturns⟩
  refine ⟨exec_fresh hfresh hready, ?_, fun hne => ?_, fun hne => ?_⟩
  · exact ⟨_, (unpackOnEmptyTree { s with len := n, inq := q } hready hfed hroot).1 hcount, rfl, hnoErr, houtq, rfl, rfl⟩
  · obtain ⟨b, back, hinput⟩ : ∃ b back, q.take n.toNat = b :: back := by
      refine List.exists_cons_of_ne_nil fun hnil => hne ?_
      have hlen := congrArg List.length hnil
      rw [List.length_take, min_eq_left hfed] at hlen
      exact BitVec.eq_of_toNat_eq hlen
    have hb : (codeAt s.code b).valid = false := by rw [hcode, codeAt_noCodes]; rfl
    have hroom : OutTakes { s with len := n, inq := q } 0 := by
      rw [OutTakes, houtq]
      exact within_zero _
    have hexec := packReportsFirstMissingCode { s with len := n, inq := q } [] back b hready hfed hinput rfl hb
      (by rwa [streamOf_nil])
    rw [streamOf_nil, payloadOfStream_nil, List.take_nil, List.append_nil] at hexec
    exact ⟨_, hexec, rfl, rfl, rfl, rfl, houtq, rfl, rfl⟩
  · exact ⟨_, (unpackOnEmptyTree { s with len := n, count := c, inq := q } hready hfed hroot).2 hne, rfl, rfl, rfl, rfl, houtq, rfl,
      rfl⟩

end Sys2Proof.Machine
end

section
/-! PROOFS. The frames of the commands (`10_state.md` rule R42): what a command leaves as it is, whether it is dropped, refused
or accepted, and whether it then waits or completes. -/

namespace Sys2Proof.Machine

/-! ## The outcomes of a command write -/

/-- R93, R70: a command write is dropped; or HIST is refused; or the command is accepted, and its pops and pushes lead to a
state that is the outcome or that the completion starts from. -/
theorem exec_cases {i : Instr} {s t : State} (h : exec i s = .next t) :
    t = engineTurn s.drop ∧ (s.busy = true ∨ s.err = true) ∨
      i = .hist ∧ t = s.raise .countOverflow s.len ∨
      ∃ u, Progress (s.accept i) u ∧ (t = u ∨ t = (body i u u.got).complete) := by
  have ht : t = engineTurn (s.present (issue i)) := next_inj h (exec_eq i s)
  by_cases hrefused : s.busy = true ∨ s.err = true
  · rw [present_refused hrefused] at ht
    exact .inl ⟨ht, hrefused⟩
  simp only [not_or, Bool.not_eq_true] at hrefused
  obtain ⟨hidle, hnoErr⟩ := hrefused
  rw [present_idle hidle hnoErr] at ht
  rcases issue_cases i s with hi | ⟨rfl, -, hi⟩
  · rw [hi] at ht
    refine .inr (.inr ?_)
    rcases engineTurn_cases (s.accept i) with hp | ⟨j, u, hc⟩
    · exact ⟨t, ht ▸ hp, .inl rfl⟩
    · obtain rfl : i = j := Option.some.inj ((State.running_accept s i).symm.trans hc.was_running)
      exact ⟨u, hc.progress, .inr (ht.trans hc.result)⟩
  · rw [hi, engineTurn_idle (State.raise_busy ..)] at ht
    exact .inr (.inl ⟨rfl, ht⟩)

/-- Settles O45: neither what a command write does before the turn nor the turn (`engineTurn_untouched`) writes them. -/
theorem noCommandWritesOperandsOrControl : Obligations.NoCommandWritesOperandsOrControl := by
  unfold Obligations.NoCommandWritesOperandsOrControl
  intro i s t hexec
  obtain rfl : t = engineTurn (s.present (issue i)) := next_inj hexec (exec_eq i s)
  obtain ⟨hlen, hcount, hieDone, hieErr, hrst, hin, hout, hscript, hresp, htaken, hdraws, -⟩ :=
    engineTurn_untouched (s.present (issue i))
  rw [hlen, hcount, hieDone, hieErr, hrst, hin, hout, hscript, hresp, htaken, hdraws]
  have hkept : s.present (issue i) = s.drop ∨ s.present (issue i) = s.accept i ∨
      s.present (issue i) = s.raise .countOverflow s.len := by
    rcases present_cases (issue i) s with h | ⟨-, -, h⟩
    · exact .inl h
    · rcases issue_cases i s with hi | ⟨-, -, hi⟩
      · exact .inr (.inl (h.trans hi))
      · exact .inr (.inr (h.trans hi))
  rcases hkept with h | h | h
  · rw [h]; simp
  · rw [h]; simp
  · rw [h]; simp

/-! ## What a command's body leaves -/

section
variable {i : Instr} (s : State) (inp : List Byte)

theorem body_keeps_freq (hclrf : i ≠ .clrf) (hhist : i ≠ .hist) :
    (body i s inp).after.freq = s.freq ∧ (body i s inp).after.total = s.total := by
  cases i with
  | clrf => exact absurd rfl hclrf
  | hist => exact absurd rfl hhist
  | deser =>
    simp only [body, deserBody]
    split
    · exact ⟨rfl, rfl⟩
    · exact ⟨rfl, rfl⟩
  | _ => exact ⟨rfl, rfl⟩

theorem body_keeps_node (hbuild : i ≠ .build) (hdeser : i ≠ .deser) :
    (body i s inp).after.node = s.node ∧ (body i s inp).after.root = s.root ∧ (body i s inp).after.nnodes = s.nnodes := by
  cases i with
  | build => exact absurd rfl hbuild
  | deser => exact absurd rfl hdeser
  | _ => exact ⟨rfl, rfl, rfl⟩

theorem body_keeps_code (hbuild : i ≠ .build) (hgencode : i ≠ .gencode) (hdeser : i ≠ .deser) :
    (body i s inp).after.code = s.code := by
  cases i with
  | build => exact absurd rfl hbuild
  | gencode => exact absurd rfl hgencode
  | deser => exact absurd rfl hdeser
  | _ => rfl

/-- R212: a command without input records no error. -/
theorem body_err_of_no_input (h : hasLen i = false) : (body i s inp).err = none := by
  cases i with
  | clrf => rfl
  | build => rfl
  | gencode => rfl
  | ser => rfl
  | _ => exact absurd h (by decide)

theorem body_keeps_queues : (body i s inp).after.inq = s.inq ∧ (body i s inp).after.outq = s.outq ∧
    (body i s inp).after.ovr = s.ovr := by
  obtain ⟨f, n, m, r, k, d, hafter⟩ := body_after i s inp
  rw [hafter]
  exact ⟨rfl, rfl, rfl⟩

/-- R42: the commands that push nothing. -/
theorem available_silent (hpack : i ≠ .pack) (hunpack : i ≠ .unpack) (hser : i ≠ .ser) : available i s = [] := by
  cases i with
  | pack => exact absurd rfl hpack
  | unpack => exact absurd rfl hunpack
  | ser => exact absurd rfl hser
  | deser => rw [available, body_deser_out, streamed, ite_self]
  | _ => exact ite_self _

end

/-! ## Frames -/

/-- R42: what a command leaves as it is, by its row; OUT only grows at its tail and IN only loses bytes at its head. -/
structure Frame (i : Instr) (s t : State) : Prop where
  freq : i ≠ .clrf → i ≠ .hist → t.freq = s.freq ∧ t.total = s.total
  node : i ≠ .build → i ≠ .deser → t.node = s.node ∧ t.root = s.root ∧ t.nnodes = s.nnodes
  code : i ≠ .build → i ≠ .gencode → i ≠ .deser → t.code = s.code
  outGrows : s.outq.IsPrefix t.outq
  silent : i ≠ .pack → i ≠ .unpack → i ≠ .ser → t.outq = s.outq
  inShrinks : t.inq.IsSuffix s.inq
  noInput : hasLen i = false → t.inq = s.inq
  noError : hasLen i = false → t.errCode = s.errCode ∧ t.errSub = s.errSub ∧ t.errInfo = s.errInfo ∧ t.err = s.err
  ovr : s.err = false → t.ovr = s.ovr

/-- R93 case 1. -/
theorem frame_drop (i : Instr) {s : State} (herr : s.err = true) : Frame i s s.drop where
  freq _ _ := ⟨rfl, rfl⟩
  node _ _ := ⟨rfl, rfl, rfl⟩
  code _ _ _ := rfl
  outGrows := List.prefix_rfl
  silent _ _ _ := rfl
  inShrinks := List.suffix_rfl
  noInput _ := rfl
  noError _ := ⟨rfl, rfl, rfl, rfl⟩
  ovr hnoErr := absurd (herr.symm.trans hnoErr) (by decide)

/-- R93 case 3. -/
theorem frame_overflow (s : State) : Frame .hist s (s.raise .countOverflow s.len) where
  freq _ hhist := absurd rfl hhist
  node _ _ := ⟨rfl, rfl, rfl⟩
  code _ _ _ := rfl
  outGrows := List.prefix_rfl
  silent _ _ _ := rfl
  inShrinks := List.suffix_rfl
  noInput h := absurd h (by decide)
  noError h := absurd h (by decide)
  ovr _ := rfl

/-- R64, R65, R70: an accepted command that waits. -/
theorem frame_progress {i : Instr} {s u : State} (h : Progress (s.accept i) u) : Frame i s u where
  freq _ _ := ⟨h.freq, h.total⟩
  node _ _ := ⟨h.node, h.root, h.nnodes⟩
  code _ _ _ := h.code
  outGrows := by
    obtain ⟨ys, houtq, -⟩ := h.pushed
    exact ⟨ys, houtq.symm⟩
  silent hpack hunpack hser := by
    obtain ⟨-, houtq⟩ := h.due i (State.running_accept s i) (Nat.zero_le _) (Nat.zero_le _)
    rw [houtq, available_silent u hpack hunpack hser, List.drop_nil, List.take_nil, List.append_nil, State.accept_outq]
  inShrinks := by
    obtain ⟨xs, -, hinq⟩ := h.popped
    exact ⟨xs, hinq.symm⟩
  noInput hno := by
    obtain ⟨xs, hgot, hinq⟩ := h.popped
    have hle := h.gotLe i (State.running_accept s i) (Nat.zero_le _)
    rw [inputLen, if_neg (Bool.eq_false_iff.mp hno), hgot, List.length_append] at hle
    obtain rfl : xs = [] := List.eq_nil_of_length_eq_zero (by omega)
    exact hinq.symm
  noError _ := by
    rw [h.same]
    exact ⟨rfl, rfl, rfl, rfl⟩
  ovr _ := by rw [h.same]; rfl

/-- R206: and the completion of one that does not. -/
theorem Frame.complete {i : Instr} {s u : State} (h : Frame i s u) (inp : List Byte) : Frame i s (body i u inp).complete where
  freq hclrf hhist := by
    rw [Body.complete_freq, Body.complete_total, (body_keeps_freq u inp hclrf hhist).1, (body_keeps_freq u inp hclrf hhist).2]
    exact h.freq hclrf hhist
  node hbuild hdeser := by
    obtain ⟨hnode, hroot, hnnodes⟩ := body_keeps_node u inp hbuild hdeser
    rw [Body.complete_node, Body.complete_root, Body.complete_nnodes, hnode, hroot, hnnodes]
    exact h.node hbuild hdeser
  code hbuild hgencode hdeser := by
    rw [Body.complete_code, body_keeps_code u inp hbuild hgencode hdeser]
    exact h.code hbuild hgencode hdeser
  outGrows := by
    rw [Body.complete_outq, (body_keeps_queues u inp).2.1]
    exact h.outGrows
  silent hpack hunpack hser := by
    rw [Body.complete_outq, (body_keeps_queues u inp).2.1]
    exact h.silent hpack hunpack hser
  inShrinks := by
    rw [Body.complete_inq, (body_keeps_queues u inp).1]
    exact h.inShrinks
  noInput hno := by
    rw [Body.complete_inq, (body_keeps_queues u inp).1]
    exact h.noInput hno
  noError hno := by
    obtain ⟨f, n, m, r, k, d, hafter⟩ := body_after i u inp
    rw [Body.complete_of_noError (body_err_of_no_input u inp hno), hafter]
    exact h.noError hno
  ovr hnoErr := by
    rw [Body.complete_ovr, (body_keeps_queues u inp).2.2]
    exact h.ovr hnoErr

/-- R42: the frame of every command written to an idle block. -/
theorem exec_frame {i : Instr} {s t : State} (hidle : s.busy = false) (h : exec i s = .next t) : Frame i s t := by
  rcases exec_cases h with ⟨rfl, hrefused⟩ | ⟨rfl, rfl⟩ | ⟨u, hp, rfl | rfl⟩
  · have herr : s.err = true := hrefused.resolve_left (Bool.eq_false_iff.mp hidle)
    rw [engineTurn_idle (by exact hidle)]
    exact frame_drop i herr
  · exact frame_overflow s
  · exact frame_progress hp
  · exact (frame_progress hp).complete u.got

/-- Settles O46: `exec_frame`. -/
theorem tableCommandsFrame : Obligations.TableCommandsFrame := by
  unfold Obligations.TableCommandsFrame
  intro i s t hi hidle hexec
  have hframe := exec_frame hidle hexec
  obtain ⟨hpack, hunpack, hser⟩ : i ≠ .pack ∧ i ≠ .unpack ∧ i ≠ .ser := by
    rcases hi with rfl | rfl | rfl | rfl | rfl <;> decide
  refine ⟨hframe.silent hpack hunpack hser, hframe.inShrinks, hframe.ovr, hframe.freq, hframe.node, fun hcode => ?_,
    fun hhist hdeser => ?_⟩
  · obtain ⟨hbuild, hgencode, hdeser⟩ : i ≠ .build ∧ i ≠ .gencode ∧ i ≠ .deser := by
      rcases hcode with rfl | rfl <;> decide
    exact hframe.code hbuild hgencode hdeser
  · have hno : hasLen i = false := by
      rcases hi with rfl | rfl | rfl | rfl | rfl
      · rfl
      · exact absurd rfl hhist
      · rfl
      · rfl
      · exact absurd rfl hdeser
    exact ⟨hframe.noInput hno, hframe.noError hno⟩

/-- Settles O47: `exec_frame`. -/
theorem streamCommandsFrame : Obligations.StreamCommandsFrame := by
  unfold Obligations.StreamCommandsFrame
  intro i s t hi hidle hexec
  have hframe := exec_frame hidle hexec
  obtain ⟨hclrf, hhist, hbuild, hgencode, hdeser⟩ : i ≠ .clrf ∧ i ≠ .hist ∧ i ≠ .build ∧ i ≠ .gencode ∧ i ≠ .deser := by
    rcases hi with rfl | rfl | rfl <;> decide
  obtain ⟨hfreq, htotal⟩ := hframe.freq hclrf hhist
  obtain ⟨hnode, hroot, hnnodes⟩ := hframe.node hbuild hdeser
  refine ⟨hfreq, htotal, hnode, hroot, hnnodes, hframe.code hbuild hgencode hdeser, hframe.outGrows, hframe.inShrinks, ?_,
    hframe.ovr⟩
  rintro rfl
  exact ⟨hframe.noInput rfl, hframe.noError rfl⟩

end Sys2Proof.Machine
end

section
/-! PROOFS. What the node table invariant says of the table's entries (`10_state.md` rule R33). The edges of the stored tree
are listed once (`Shape.edges`): their children are all its indices but the root's, each once, which gives the entries' unique
parents. -/

namespace Sys2Proof.Machine

/-! ## The edges of a stored tree -/

/-- The edges, parent and child, in pre-order of the children. -/
def Shape.edges : Shape → List (Idx × Idx)
  | .leaf _ _ => []
  | .fork i l r => (i, l.index) :: l.edges ++ (i, r.index) :: r.edges

/-- Every index but the root's is the child of exactly one edge. -/
theorem Shape.indices_eq (sh : Shape) : sh.indices = sh.index :: sh.edges.map Prod.snd := by
  induction sh with
  | leaf i v => rfl
  | fork i l r ihl ihr =>
    rw [Shape.indices, Shape.edges, List.map_append, List.map_cons, List.map_cons, ihl, ihr]
    rfl

theorem Shape.child_mem_indices {sh : Shape} {p c : Idx} (h : (p, c) ∈ sh.edges) : c ∈ sh.indices := by
  rw [sh.indices_eq]
  exact List.mem_cons_of_mem _ (List.mem_map_of_mem h)

section
variable {t : NodeTable} {sh : Shape}

/-- R32, R35: the edges are the children of the internal entries. -/
theorem Shape.StandsIn.mem_edges_iff (h : sh.StandsIn t) (p c : Idx) :
    (p, c) ∈ sh.edges ↔
      p ∈ sh.indices ∧ (nodeAt t p).leaf = false ∧ ((nodeAt t p).left = c ∨ (nodeAt t p).right = c) := by
  induction sh with
  | leaf i v =>
    have hleaf : (nodeAt t i).leaf = true := by
      rw [h]
      rfl
    simp only [Shape.edges, Shape.indices, List.not_mem_nil, List.mem_singleton, false_iff]
    rintro ⟨rfl, hinner, -⟩
    exact absurd (hleaf.symm.trans hinner) (by decide)
  | fork i l r ihl ihr =>
    obtain ⟨hnode, hl, hr⟩ := h
    have htop : p = i → ((c = l.index ∨ c = r.index) ↔
        (nodeAt t p).leaf = false ∧ ((nodeAt t p).left = c ∨ (nodeAt t p).right = c)) := by
      rintro rfl
      rw [hnode]
      simp [eq_comm]
    simp only [Shape.edges, Shape.indices, List.cons_append, List.mem_cons, List.mem_append, Prod.mk.injEq, ihl hl, ihr hr]
    grind

/-- R33: the children of an internal entry differ. -/
theorem Shape.StandsIn.left_ne_right (h : sh.StandsIn t) (hnodup : sh.indices.Nodup) {p : Idx} (hp : p ∈ sh.indices)
    (hinner : (nodeAt t p).leaf = false) : (nodeAt t p).left ≠ (nodeAt t p).right := by
  induction sh with
  | leaf i v =>
    obtain rfl : p = i := List.mem_singleton.mp hp
    rw [h] at hinner
    cases hinner
  | fork i l r ihl ihr =>
    obtain ⟨hnode, hl, hr⟩ := h
    obtain ⟨-, hnodup⟩ := List.nodup_cons.mp hnodup
    obtain ⟨hnodupL, hnodupR, hdisjoint⟩ := List.nodup_append.mp hnodup
    rcases List.mem_cons.mp hp with rfl | hp
    · rw [hnode]
      exact hdisjoint _ l.index_mem _ r.index_mem
    · rcases List.mem_append.mp hp with hp | hp
      · exact ihl hl hnodupL hp
      · exact ihr hr hnodupR hp

/-- R33: the walk from ROOT reaches every node of the tree. -/
theorem Shape.StandsIn.reached {root : Idx} (h : sh.StandsIn t) (hroot : Reached t root sh.index) {i : Idx}
    (hi : i ∈ sh.indices) : Reached t root i := by
  induction sh with
  | leaf j v =>
    obtain rfl : i = j := List.mem_singleton.mp hi
    exact hroot
  | fork j l r ihl ihr =>
    obtain ⟨hnode, hl, hr⟩ := h
    have hinner : (nodeAt t j).leaf = false := congrArg Node.leaf hnode
    have hleft : (nodeAt t j).left = l.index := congrArg Node.left hnode
    have hright : (nodeAt t j).right = r.index := congrArg Node.right hnode
    rcases List.mem_cons.mp hi with rfl | hi
    · exact hroot
    · rcases List.mem_append.mp hi with hi | hi
      · exact ihl hl (hleft ▸ hroot.left hinner) hi
      · exact ihr hr (hright ▸ hroot.right hinner) hi

/-- R33: a node other than the root has exactly one parent, because its index is the child of one edge. -/
theorem Shape.StandsIn.parent_unique (h : sh.StandsIn t) (hnodup : sh.indices.Nodup) {i : Idx} (hi : i ∈ sh.indices)
    (hroot : i ≠ sh.index) :
    ∃ p, ∀ q, (q ∈ sh.indices ∧ (nodeAt t q).leaf = false ∧ ((nodeAt t q).left = i ∨ (nodeAt t q).right = i)) ↔ q = p := by
  rw [sh.indices_eq] at hi hnodup
  obtain ⟨⟨p, c⟩, hp, rfl⟩ := List.mem_map.mp ((List.mem_cons.mp hi).resolve_left hroot)
  refine ⟨p, fun q => ?_⟩
  rw [← h.mem_edges_iff]
  constructor
  · intro hq
    have hsame : (q, c) = (p, c) := List.inj_on_of_nodup_map (List.nodup_cons.mp hnodup).2 hq hp rfl
    exact congrArg Prod.fst hsame
  · rintro rfl
    exact hp

end

/-! ## Counting the valid entries -/

/-- R33: the valid entries of the table, counted by their indices. -/
theorem length_filter_valid (t : NodeTable) {is : List Idx} (hnodup : is.Nodup)
    (hvalid : ∀ i, (nodeAt t i).valid = true ↔ i ∈ is) : (t.toList.filter fun n => n.valid).length = is.length := by
  have hlist : t.toList = (List.range 511).map fun k => nodeAt t (BitVec.ofNat 9 k) := by
    refine List.ext_getElem (by simp) fun k hk _ => ?_
    have hk' : k < 511 := by simpa using hk
    rw [List.getElem_map, List.getElem_range, nodeAt]
    simp [Nat.mod_eq_of_lt (show k < 512 by omega), hk']
  have hinj : ∀ i : Idx, BitVec.ofNat 9 i.toNat = i := fun i => by simp
  have hperm : ((List.range 511).filter fun k => (nodeAt t (BitVec.ofNat 9 k)).valid).Perm (is.map BitVec.toNat) := by
    refine (List.perm_ext_iff_of_nodup (List.nodup_range.filter _) ?_).mpr fun k => ?_
    · exact (List.nodup_map_iff fun _ _ => BitVec.eq_of_toNat_eq).mpr hnodup
    · rw [List.mem_filter, List.mem_range, List.mem_map]
      constructor
      · rintro ⟨hk, hk'⟩
        exact ⟨BitVec.ofNat 9 k, (hvalid _).mp hk', by simp; omega⟩
      · rintro ⟨i, hi, rfl⟩
        have hi' := (hvalid i).mpr hi
        exact ⟨idx_lt_of_ne_NIL (ne_NIL_of_valid hi'), by rwa [hinj]⟩
  rw [hlist, List.filter_map, List.length_map]
  exact hperm.length_eq.trans (List.length_map _)

/-! ## The invariant -/

section
variable {t : NodeTable} {sh : Shape} (h : sh.StandsIn t) (hothers : ∀ i, i ∉ sh.indices → nodeAt t i = Node.invalid)
include h hothers

theorem Shape.StandsIn.valid_iff_mem (i : Idx) : (nodeAt t i).valid = true ↔ i ∈ sh.indices := by
  refine ⟨fun hvalid => ?_, h.valid_of_mem⟩
  by_contra hi
  rw [hothers i hi] at hvalid
  cases hvalid

/-- R33: the children of an internal entry are valid. -/
theorem Shape.StandsIn.children_valid {i : Idx} (hvalid : (nodeAt t i).valid = true) (hinner : (nodeAt t i).leaf = false) :
    (nodeAt t (nodeAt t i).left).valid = true ∧ (nodeAt t (nodeAt t i).right).valid = true := by
  have hi := (h.valid_iff_mem hothers i).mp hvalid
  have hleft := Shape.child_mem_indices ((h.mem_edges_iff i (nodeAt t i).left).mpr ⟨hi, hinner, .inl rfl⟩)
  have hright := Shape.child_mem_indices ((h.mem_edges_iff i (nodeAt t i).right).mpr ⟨hi, hinner, .inr rfl⟩)
  exact ⟨h.valid_of_mem hleft, h.valid_of_mem hright⟩

/-- R33: the valid entries are those the walk from ROOT reaches. -/
theorem Shape.StandsIn.valid_iff_reached (i : Idx) : (nodeAt t i).valid = true ↔ Reached t sh.index i := by
  refine ⟨fun hvalid => ?_, fun hreached => ?_⟩
  · exact h.reached (.root h.index_ne_NIL) ((h.valid_iff_mem hothers i).mp hvalid)
  · induction hreached with
    | root => exact h.valid_of_mem sh.index_mem
    | left _ hinner ih => exact (h.children_valid hothers ih hinner).1
    | right _ hinner ih => exact (h.children_valid hothers ih hinner).2

end

/-- Settles O56: without a tree no entry is valid; else the valid entries are the indices of the stored tree, of which the
lemmas above speak, and its sizes are those of a full tree. -/
theorem treeInvariantMeansRuleR33 : Obligations.TreeInvariantMeansRuleR33 := by
  unfold Obligations.TreeInvariantMeansRuleR33
  intro s htree
  obtain ⟨hroot, hnnodes, hnone⟩ | ⟨sh, hroot, hstands, hnodup, hnnodes, hothers⟩ := id htree
  · have hinvalid : ∀ i, (nodeAt s.node i).valid ≠ true := fun i => by simp [hnone]
    exact ⟨fun _ => ⟨hnnodes, fun i => by simp [hnone]⟩, fun hne => absurd hroot hne, fun i h => absurd h (hinvalid i),
      fun i h => absurd h (hinvalid i)⟩
  · have hvalid := hstands.valid_iff_mem hothers
    have hne : s.root ≠ NIL := hroot ▸ hstands.index_ne_NIL
    refine ⟨fun h => absurd h hne, fun _ => ?_, fun i hi hinner => ?_, fun i hi hnotRoot => ?_⟩
    · obtain ⟨-, hfull, -, hdepth, hsize⟩ := htree.tree_cases.resolve_left fun h => hne h.1
      have hleaves := Tree.size_of_full hfull
      have hbound := Tree.depth_lt_leaves_of_full hfull
      refine ⟨(hvalid _).mpr (hroot ▸ sh.index_mem), (length_filter_valid s.node hnodup hvalid).trans hnnodes.symm, ?_, ?_, ?_, ?_,
        hdepth⟩
      · rw [hroot]
        exact hstands.valid_iff_reached hothers
      · omega
      · rw [State.tree]
        omega
      · rw [State.tree]
        omega
    · obtain ⟨hleft, hright⟩ := hstands.children_valid hothers hi hinner
      exact ⟨hleft, hright, ne_NIL_of_valid hleft, ne_NIL_of_valid hright,
        hstands.left_ne_right hnodup ((hvalid i).mp hi) hinner⟩
    · obtain ⟨p, hp⟩ := hstands.parent_unique hnodup ((hvalid i).mp hi) (hroot ▸ hnotRoot)
      exact ⟨p, fun q => by rw [hvalid q]; exact hp q⟩

end Sys2Proof.Machine
end

section
/-! PROOFS. The firmware's passes on the block (`49_firmware_protocol.md` rules R185, R190, R193; `70_reset_and_hazards.md` rule
R253): each command of a pass gives, with enough actions, the result of its body, and the results follow on one another as
those of the pure pass do. -/

namespace Sys2Proof.Machine.Driver

/-! ## Passes that end -/

/-- With enough actions the pass ends in state `t` with result `r`. -/
def Gives {α : Type} (p : Nat → Pass α) (t : State) (r : Except Firmware.FwError α) : Prop :=
  ∃ n, ∀ fuel, n ≤ fuel → p fuel = some (t, r)

section
variable {α β : Type} {p : Nat → Pass α} {f : Nat → α → State → Pass β} {s : State}

theorem Gives.andThen {a : α} {t : State} {r : Except Firmware.FwError β} (hp : Gives p s (.ok a))
    (hf : Gives (fun fuel => f fuel a s) t r) : Gives (fun fuel => (p fuel).andThen (f fuel)) t r := by
  obtain ⟨n, hn⟩ := hp
  obtain ⟨m, hm⟩ := hf
  refine ⟨max n m, fun fuel hfuel => ?_⟩
  show (p fuel).andThen (f fuel) = _
  rw [hn fuel ((le_max_left n m).trans hfuel)]
  exact hm fuel ((le_max_right n m).trans hfuel)

theorem Gives.andThen_error {e : Firmware.FwError} (hp : Gives p s (.error e)) :
    Gives (fun fuel => (p fuel).andThen (f fuel)) s (.error e) := by
  obtain ⟨n, hn⟩ := hp
  refine ⟨n, fun fuel hfuel => ?_⟩
  show (p fuel).andThen (f fuel) = _
  rw [hn fuel hfuel]
  rfl

end

theorem gives_const {α : Type} {t : State} {r : Except Firmware.FwError α} : Gives (fun _ => some (t, r)) t r :=
  ⟨0, fun _ _ => rfl⟩

/-! ## What a command of a pass leaves in the registers -/

section
variable {i : Instr} {a s u : State} {inp : List Byte} (h : Ran i a inp s u)
include h

theorem Ran.freq : u.freq = (body i a inp).after.freq := by rw [h.same]; exact Body.complete_freq _
theorem Ran.total : u.total = (body i a inp).after.total := by rw [h.same]; exact Body.complete_total _
theorem Ran.node : u.node = (body i a inp).after.node := by rw [h.same]; exact Body.complete_node _
theorem Ran.root : u.root = (body i a inp).after.root := by rw [h.same]; exact Body.complete_root _
theorem Ran.code : u.code = (body i a inp).after.code := by rw [h.same]; exact Body.complete_code _
theorem Ran.outCount : u.outCount = BitVec.ofNat 64 (body i a inp).out.length := by
  rw [h.same]
  exact Body.complete_outCount _

/-- A command without output leaves the bytes taken as they are. -/
theorem Ran.taken_of_silent (hout : (body i a inp).out = []) : u.taken = s.taken := by
  rw [h.output, hout, List.append_nil]

end

/-- R190: a command of a pass that records no error. -/
theorem command_gives (i : Instr) (l c : Word) {inp : List Byte} {s : State} (hs : Between s)
    (hL : inp.length = inputLen i l) (hh : i = .hist → s.total.toNat + l.toNat < 2 ^ 64)
    (hok : (body i (start i l c s) inp).err = none) :
    ∃ u, Gives (fun fuel => command fuel (line i l c) inp s) u (.ok ()) ∧ Ran i (start i l c s) inp s u := by
  obtain ⟨n, u, hn, hu⟩ := command_ok i l c hs hL hh hok
  exact ⟨u, ⟨n, hn⟩, hu⟩

/-- R190, R193: one that records an error. -/
theorem command_fails (i : Instr) (l c : Word) {inp : List Byte} {s : State} {e : ErrCause × Word} (hs : Between s)
    (hL : inp.length = inputLen i l) (hh : i = .hist → s.total.toNat + l.toNat < 2 ^ 64)
    (herr : (body i (start i l c s) inp).err = some e) :
    ∃ u, Gives (fun fuel => command fuel (line i l c) inp s) u (.error (Firmware.errorClass e.1.code)) ∧ Between u ∧
      u.softReset = u := by
  obtain ⟨n, u, hn, hbetween, hreset⟩ := command_error i l c hs hL hh herr
  exact ⟨u, ⟨n, hn⟩, hbetween, hreset⟩

theorem length_eq_lenWord {bs : List Byte} (h : bs.length < 2 ^ 64) : bs.length = (Script.lenWord bs).toNat :=
  (toNat_ofNat_length h).symm

/-- R190: RD OUT_COUNT after a command that pushed `out`. -/
theorem output_gives {i : Instr} {a s u : State} {inp out : List Byte} (h : Ran i a inp s u) (hout : (body i a inp).out = out)
    (hlen : out.length < 2 ^ 64) :
    ∃ t, output s.taken.length u = some (t, .ok out) ∧ Between t ∧ t = u.withHost t := by
  obtain ⟨t, ht, hbetween, hsame, -⟩ := output_spec s.taken.length h.between
  refine ⟨t, ?_, hbetween, hsame⟩
  rw [ht, h.output, h.outCount, hout, List.drop_left, toNat_ofNat_length hlen, List.take_length]

/-! ## The encode pass -/

/-- R185: CLRF, HIST, BUILD, GENCODE leave the tree and the codes of the pure pass. -/
theorem tables_give {s : State} {cur : List Byte} (hs : Between s) (hcur : cur.length < 2 ^ 64) :
    ∃ c h b g,
      Gives (fun fuel => command fuel Script.clrf [] s) c (.ok ()) ∧
      Gives (fun fuel => command fuel (Script.hist (Script.lenWord cur)) cur c) h (.ok ()) ∧
      Gives (fun fuel => command fuel Script.build [] h) b (.ok ()) ∧
      Gives (fun fuel => command fuel Script.gencode [] b) g (.ok ()) ∧ Between g ∧
      g.node = (Firmware.passTree cur).node ∧ g.root = (Firmware.passTree cur).root ∧ g.code = Firmware.passCodes cur := by
  obtain ⟨c, hc, rc⟩ := command_gives .clrf 0 0 (inp := []) hs rfl (nomatch ·) rfl
  have hzero : c.freq = zeroFreq := rc.freq
  have htotal : c.total.toNat = 0 := congrArg BitVec.toNat rc.total
  obtain ⟨h, hh, rh⟩ := command_gives .hist (Script.lenWord cur) 0 rc.between (length_eq_lenWord hcur)
    (fun _ => by rw [htotal, Nat.zero_add]; exact (Script.lenWord cur).isLt) rfl
  have hcounted : h.freq = countBytes zeroFreq cur := hzero ▸ rh.freq
  obtain ⟨b, hb, rb⟩ := command_gives .build 0 0 (inp := []) rh.between rfl (nomatch ·) rfl
  have hnode : b.node = (Firmware.passTree cur).node := by rw [Firmware.passTree, ← hcounted]; exact rb.node
  have hroot : b.root = (Firmware.passTree cur).root := by rw [Firmware.passTree, ← hcounted]; exact rb.root
  obtain ⟨g, hg, rg⟩ := command_gives .gencode 0 0 (inp := []) rb.between rfl (nomatch ·) rfl
  have hcode : g.code = genCodes b.node b.root := rg.code
  rw [hnode, hroot] at hcode
  exact ⟨c, h, b, g, hc, hh, hb, hg, rg.between, rg.node.trans hnode, rg.root.trans hroot, hcode⟩

/-- R185: PACK and SER then hand over the payload and the tree bytes of the pure pass. -/
theorem streams_give {g : State} {cur : List Byte} (hg : Between g) (hcur : cur.length < 2 ^ 64)
    (hpayload : (Firmware.passPayload cur).length < 2 ^ 64) (hnode : g.node = (Firmware.passTree cur).node)
    (hroot : g.root = (Firmware.passTree cur).root) (hcode : g.code = Firmware.passCodes cur) :
    ∃ p q r t,
      Gives (fun fuel => command fuel (Script.pack (Script.lenWord cur)) cur g) p (.ok ()) ∧
      output g.taken.length p = some (q, .ok (Firmware.passPayload cur)) ∧
      Gives (fun fuel => command fuel Script.ser [] q) r (.ok ()) ∧
      output q.taken.length r = some (t, .ok (Firmware.passTreeBytes cur)) ∧ Between t := by
  have hnoErr : (packRun g.code cur).error = none := by
    rw [hcode]
    exact (packRun_covered (covers_passCodes hcur)).1.error_eq_none
  obtain ⟨p, hp, rp⟩ := command_gives .pack (Script.lenWord cur) 0 hg (length_eq_lenWord hcur) (nomatch ·) hnoErr
  have hpacked : (packRun g.code cur).flushed = Firmware.passPayload cur := by rw [hcode]; rfl
  obtain ⟨q, hq, bq, sameq⟩ := output_gives rp hpacked hpayload
  have hqnode : q.node = (Firmware.passTree cur).node := by
    rw [sameq]
    exact rp.node.trans hnode
  have hqroot : q.root = (Firmware.passTree cur).root := by
    rw [sameq]
    exact rp.root.trans hroot
  obtain ⟨r, hr, rr⟩ := command_gives .ser 0 0 (inp := []) bq rfl (nomatch ·) rfl
  have hser : (body .ser (start .ser 0 0 q) []).out = Firmware.passTreeBytes cur := by
    show serialize q.node q.root = _
    rw [hqnode, hqroot]
    rfl
  have hbytes : (Firmware.passTreeBytes cur).length < 2 ^ 64 := by
    rw [← ser_passTree]
    exact (buildTree_stands _).ser_length_lt
  obtain ⟨t, ht, bt, -⟩ := output_gives rr hser hbytes
  exact ⟨p, q, r, t, hp, hq, hr, ht, bt⟩

/-- R185: the encode pass on the block gives the pure one's frame. -/
theorem encodePass_gives {s : State} (e : Endian) {cur : List Byte} (depth : Nat) (hs : Between s) (hcur : cur.length < 2 ^ 64)
    (hpayload : (Firmware.passPayload cur).length < 2 ^ 64) :
    ∃ t, Gives (fun fuel => encodePass e fuel cur depth s) t (.ok (Firmware.encodePass e cur depth)) ∧ Between t := by
  obtain ⟨c, h, b, g, hc, hh, hb, hg, bg, hnode, hroot, hcode⟩ := tables_give hs hcur
  obtain ⟨p, q, r, t, hp, hq, hr, ht, bt⟩ := streams_give bg hcur hpayload hnode hroot hcode
  refine ⟨t, hc.andThen (hh.andThen (hb.andThen (hg.andThen (hp.andThen ?_)))), bt⟩
  simp only [hq]
  refine hr.andThen ?_
  simp only [ht]
  exact gives_const

/-! ## The decode pass -/

/-- R151: UNPACK emits at most COUNT symbols. -/
theorem unpackRun_out_le (t : NodeTable) (root : Idx) (count : Nat) (payload : List Byte) :
    (unpackRun t root count payload).out.length ≤ count := by
  obtain ⟨hemitted, hle⟩ := unpackLoop_emitted t root count (count + (payloadBits payload).length + 1)
    { cur := root, bits := payloadBits payload, emitted := 0, out := [], err := none } rfl (Nat.zero_le _)
  exact hemitted ▸ hle

/-- R190: UNPACK and RD OUT_COUNT on the tree that DESER has left. -/
theorem unpack_gives {d : State} {t : TreeTable} {payload : List Byte} {count : Nat} (hd : Between d) (hnode : d.node = t.node)
    (hroot : d.root = t.root) (hpayload : payload.length < 2 ^ 64) (hcount : count < 2 ^ 64)
    (hok : (unpackRun t.node t.root count payload).err = none) :
    ∃ u v,
      Gives (fun fuel => command fuel (Script.unpack (Script.lenWord payload) (BitVec.ofNat 64 count)) payload d) u (.ok ()) ∧
      output d.taken.length u = some (v, .ok (unpackRun t.node t.root count payload).out) ∧ Between v := by
  have hrun : unpackRun d.node d.root (BitVec.ofNat 64 count).toNat payload = unpackRun t.node t.root count payload := by
    rw [hnode, hroot, BitVec.toNat_ofNat, Nat.mod_eq_of_lt hcount]
  have hnoErr : (unpackRun d.node d.root (BitVec.ofNat 64 count).toNat payload).error = none := by
    rw [hrun, Unpacking.error, hok]
    rfl
  obtain ⟨u, hu, ru⟩ :=
    command_gives .unpack (Script.lenWord payload) (BitVec.ofNat 64 count) hd (length_eq_lenWord hpayload) (nomatch ·) hnoErr
  obtain ⟨v, hv, bv, -⟩ := output_gives ru (congrArg Unpacking.out hrun) ((unpackRun_out_le ..).trans_lt hcount)
  exact ⟨u, v, hu, hv, bv⟩

/-- R193: the same with a payload that UNPACK refuses; every refusal is of class INVALID_STREAM. -/
theorem unpack_fails {d : State} {t : TreeTable} {payload : List Byte} {count : Nat} {e : ErrCause × Nat} (hd : Between d)
    (hnode : d.node = t.node) (hroot : d.root = t.root) (hpayload : payload.length < 2 ^ 64) (hcount : count < 2 ^ 64)
    (herr : (unpackRun t.node t.root count payload).err = some e) :
    ∃ u,
      Gives (fun fuel => command fuel (Script.unpack (Script.lenWord payload) (BitVec.ofNat 64 count)) payload d) u
        (.error .invalidStream) ∧
      Between u ∧ u.softReset = u := by
  have herror : (unpackRun d.node d.root (BitVec.ofNat 64 count).toNat payload).error = some (e.1, BitVec.ofNat 64 e.2) := by
    rw [hnode, hroot, BitVec.toNat_ofNat, Nat.mod_eq_of_lt hcount, Unpacking.error, herr]
    rfl
  have hfails := command_fails .unpack (Script.lenWord payload) (BitVec.ofNat 64 count) hd (length_eq_lenWord hpayload)
    (nomatch ·) herror
  rw [unpackRun_error_code herr] at hfails
  exact hfails

/-- R190, R193: the decode pass on the block gives the pure one's bytes, or its error and a reset block. -/
theorem decodePass_gives {s : State} {tree payload : List Byte} {count : Nat} (hs : Between s) (htree : tree.length < 2 ^ 64)
    (hpayload : payload.length < 2 ^ 64) (hcount : count < 2 ^ 64) :
    ∃ t, Gives (fun fuel => decodePass fuel tree payload count s) t (Firmware.decodePass tree payload count) ∧ Between t ∧
      ∀ x, Firmware.decodePass tree payload count = .error x → t.softReset = t := by
  cases hparse : parseTree tree with
  | error e =>
    have hpure : Firmware.decodePass tree payload count = .error .malformedTree := by rw [Firmware.decodePass, hparse]
    have herr : (body .deser (start .deser (Script.lenWord tree) 0 s) tree).err = some (e.1, BitVec.ofNat 64 e.2) := by
      rw [body, deserBody, hparse]
    have hfails := command_fails .deser (Script.lenWord tree) 0 hs (length_eq_lenWord htree) (nomatch ·) herr
    rw [parseTree_error_code hparse] at hfails
    obtain ⟨u, hu, bu, hreset⟩ := hfails
    exact ⟨u, hpure ▸ hu.andThen_error, bu, fun _ _ => hreset⟩
  | ok t =>
    have hbody : body .deser (start .deser (Script.lenWord tree) 0 s) tree =
        { after := (start .deser (Script.lenWord tree) 0 s).withTree t, out := [], err := none } := by
      rw [body, deserBody, hparse]
    obtain ⟨d, hd, rd⟩ := command_gives .deser (Script.lenWord tree) 0 hs (length_eq_lenWord htree) (nomatch ·)
      (congrArg Body.err hbody)
    have hnode : d.node = t.node := rd.node.trans (congrArg (fun b => b.after.node) hbody)
    have hroot : d.root = t.root := rd.root.trans (congrArg (fun b => b.after.root) hbody)
    cases herr : (unpackRun t.node t.root count payload).err with
    | some e =>
      have hpure : Firmware.decodePass tree payload count = .error .invalidStream := by
        simp only [Firmware.decodePass, hparse, herr]
      obtain ⟨u, hu, bu, hreset⟩ := unpack_fails rd.between hnode hroot hpayload hcount herr
      exact ⟨u, hpure ▸ hd.andThen hu.andThen_error, bu, fun _ _ => hreset⟩
    | none =>
      have hpure : Firmware.decodePass tree payload count = .ok (unpackRun t.node t.root count payload).out := by
        simp only [Firmware.decodePass, hparse, herr]
      obtain ⟨u, v, hu, hv, bv⟩ := unpack_gives rd.between hnode hroot hpayload hcount herr
      rw [rd.taken_of_silent (congrArg Body.out hbody)] at hv
      refine ⟨v, hpure ▸ hd.andThen (hu.andThen ?_), bv, fun x hx => ?_⟩
      · simp only [hv]
        exact gives_const
      · rw [hpure] at hx
        cases hx

end Sys2Proof.Machine.Driver

namespace Sys2Proof.Machine

/-- Settles O59: `Driver.encodePass_gives` and `Driver.decodePass_gives`, from a block between two commands. -/
theorem firmwarePassesRunOnTheBlock : Obligations.FirmwarePassesRunOnTheBlock := by
  unfold Obligations.FirmwarePassesRunOnTheBlock
  intro s hbusy herr hrst hinq houtq
  have hs : Driver.Between s := ⟨hbusy, herr, hrst, hinq, houtq⟩
  refine ⟨fun e cur depth hcur hpayload => ?_, fun tree payload count htree hpayload hcount => ?_⟩
  · obtain ⟨t, ⟨n, hn⟩, ht⟩ := Driver.encodePass_gives e depth hs hcur hpayload
    exact ⟨n, t, hn, ht.busy, ht.err, ht.inq, ht.outq⟩
  · obtain ⟨t, ⟨n, hn⟩, ht, hreset⟩ := Driver.decodePass_gives hs htree hpayload hcount
    exact ⟨n, t, hn, ht.busy, ht.err, ht.inq, ht.outq, hreset⟩

end Sys2Proof.Machine
end

section
/-! PROOFS. The script of an encode pass (`30_encoding.md` rules R99, R100; `49_firmware_protocol.md` rule R185), run by steps on
a block with unbounded queues: each of its lines leads from a block at rest to a block at rest, with the rest of the script. -/

namespace Sys2Proof.Machine

/-! ## Runs -/

/-- Some number of steps. -/
abbrev Steps : State → State → Prop := Relation.ReflTransGen fun s t => step s = .next t

theorem Steps.exists_run {s t : State} (h : Steps s t) : ∃ n, Sys2Proof.core.run n s = .next t := by
  induction h using Relation.ReflTransGen.head_induction_on with
  | refl => exact ⟨0, rfl⟩
  | head hstep _ ih =>
    obtain ⟨n, hn⟩ := ih
    refine ⟨n + 1, ?_⟩
    simp only [Host.Core.run]
    rw [show Sys2Proof.core.step _ = .next _ from hstep]
    exact hn

/-! ## A block at rest -/

/-- A ready block with unbounded queues, `rst` low, the script lines `p` to come, and these bytes in IN, in OUT and taken. -/
structure AtRest (p : List HostAction) (inq outq taken : List Byte) (s : State) : Prop where
  ready : Ready s
  rst : s.rst = false
  inDepth : s.inDepth = .unbounded
  outDepth : s.outDepth = .unbounded
  script : s.script = p
  inq : s.inq = inq
  outq : s.outq = outq
  taken : s.taken = taken

/-- Two states hold the same tables. -/
structure SameTables (s t : State) : Prop where
  freq : t.freq = s.freq
  total : t.total = s.total
  node : t.node = s.node
  root : t.root = s.root
  code : t.code = s.code

theorem SameTables.trans {s t u : State} (h : SameTables s t) (k : SameTables t u) : SameTables s u :=
  ⟨k.freq.trans h.freq, k.total.trans h.total, k.node.trans h.node, k.root.trans h.root, k.code.trans h.code⟩

/-! ## The lines of the script -/

section
variable {p : List HostAction} {q o k : List Byte} {s : State}

/-- R64, R99: PUSH. -/
theorem AtRest.push {bs : List Byte} (h : AtRest (Script.push bs ++ p) q o k s) :
    ∃ t, Steps s t ∧ AtRest p (q ++ bs) o k t ∧ SameTables s t := by
  induction bs generalizing q s with
  | nil =>
    rw [List.append_nil]
    exact ⟨s, .refl, h, ⟨rfl, rfl, rfl, rfl, rfl⟩⟩
  | cons b bs ih =>
    have hready : s.inReady = true := by rw [inReady_of_low h.rst, h.inDepth]; rfl
    have hacted : acted s = { s with script := Script.push bs ++ p, inq := s.inq ++ [b] } := by
      rw [acted_push h.script, offerByte, if_pos hready]
      rfl
    obtain ⟨t, hsteps, ht, hsame⟩ := ih (q := q ++ [b]) (s := { s with script := Script.push bs ++ p, inq := s.inq ++ [b] })
      ⟨h.ready, h.rst, h.inDepth, h.outDepth, rfl, congrArg (· ++ [b]) h.inq, h.outq, h.taken⟩
    rw [List.append_assoc] at ht
    exact ⟨t, .head (step_of_idle hacted h.ready.1) hsteps, ht, ⟨hsame.freq, hsame.total, hsame.node, hsame.root, hsame.code⟩⟩

/-- R65, R99: POP of bytes that OUT holds. -/
theorem AtRest.pop {bs : List Byte} (h : AtRest (Script.pop bs.length ++ p) q (bs ++ o) k s) :
    ∃ t, Steps s t ∧ AtRest p q o (k ++ bs) t ∧ SameTables s t := by
  induction bs generalizing k s with
  | nil =>
    rw [List.append_nil]
    exact ⟨s, .refl, h, ⟨rfl, rfl, rfl, rfl, rfl⟩⟩
  | cons b bs ih =>
    have hvalid : s.outValid = true := by rw [outValid_of_low h.rst, h.outq]; rfl
    have hacted : acted s =
        { s with script := Script.pop bs.length ++ p, outq := s.outq.drop 1, taken := s.taken ++ s.outq.take 1 } := by
      rw [acted_pop h.script, takeByte, if_pos hvalid]
      rfl
    obtain ⟨t, hsteps, ht, hsame⟩ := ih (k := k ++ [b])
      (s := { s with script := Script.pop bs.length ++ p, outq := s.outq.drop 1, taken := s.taken ++ s.outq.take 1 })
      ⟨h.ready, h.rst, h.inDepth, h.outDepth, rfl, h.inq, by simp [h.outq], by simp [h.outq, h.taken]⟩
    rw [List.append_assoc] at ht
    exact ⟨t, .head (step_of_idle hacted h.ready.1) hsteps, ht, ⟨hsame.freq, hsame.total, hsame.node, hsame.root, hsame.code⟩⟩

/-- POP of all that OUT holds. -/
theorem AtRest.pop_all {bs : List Byte} (h : AtRest (Script.pop bs.length ++ p) q bs k s) :
    ∃ t, Steps s t ∧ AtRest p q [] (k ++ bs) t ∧ SameTables s t :=
  AtRest.pop ((List.append_nil bs).symm ▸ h)

/-- The host's side goes on and the bus answers. -/
theorem AtRest.hosted {p' : List HostAction} (h : AtRest p q o k s) (r : BusResp) (n : Nat) :
    AtRest p' q o k { s with script := p', resp := r, draws := n } :=
  ⟨h.ready, h.rst, h.inDepth, h.outDepth, rfl, h.inq, h.outq, h.taken⟩

/-- R99: RD. -/
theorem AtRest.rd {off : Nat} (h : AtRest (Script.rd off ++ p) q o k s) :
    ∃ t, Steps s t ∧ AtRest p q o k t ∧ SameTables s t := by
  obtain ⟨r, n, hread⟩ := busRead_eq { s with script := p } (Access.full off)
  have hacted : acted s = { s with script := p, resp := r, draws := n } := (acted_rd h.script).trans hread
  exact ⟨_, .single (step_of_idle hacted h.ready.1), h.hosted r n, ⟨rfl, rfl, rfl, rfl, rfl⟩⟩

/-- R99: WAIT on an idle block is one read of STATUS. -/
theorem AtRest.wait (h : AtRest (Script.wait ++ p) q o k s) :
    ∃ t, Steps s t ∧ AtRest p q o k t ∧ SameTables s t := by
  have hidle : ¬(s.readValue .status).getLsbD 0 = true := by
    rw [Driver.readValue_status_busy, h.ready.1]
    decide
  have hread := busRead_legal (s := s) (a := Access.full 0x0010) h.rst rfl
  have hacted : acted s = { s.busRead (Access.full 0x0010) with script := p } := by
    rw [acted_wait h.script, waitIdle, hread]
    exact if_neg hidle
  rw [hread] at hacted
  exact ⟨_, .single (step_of_idle hacted h.ready.1), h.hosted _ _, ⟨rfl, rfl, rfl, rfl, rfl⟩⟩

/-- R25, R99: the LEN operand. -/
theorem AtRest.len {l : Word} (h : AtRest (Script.wr 0x020 l ++ p) q o k s) :
    ∃ t, Steps s t ∧ AtRest p q o k t ∧ SameTables s t ∧ t.len = l := by
  have hacted : acted s = { s with script := p, resp := .written, len := l } :=
    acted_wr_reg h.script h.rst (legalWrite_full (by decide) (by decide)) (by decide)
  exact ⟨_, .single (step_of_idle hacted h.ready.1),
    ⟨h.ready, h.rst, h.inDepth, h.outDepth, rfl, h.inq, h.outq, h.taken⟩, ⟨rfl, rfl, rfl, rfl, rfl⟩, rfl⟩

/-- R93, R99: a command write is the command's execution. -/
theorem AtRest.command {i : Instr} {t : State} (h : AtRest (Script.wr 0x018 (encode i) ++ p) q o k s)
    (hexec : exec i { s with script := p, resp := .written } = .next t) : Steps s t :=
  .single ((stepRunsDecodedCommand s _ _ p i h.rst h.script rfl rfl rfl (decode_encode i)).trans hexec)

/-- R99, R111: CLRF. -/
theorem AtRest.clrf (h : AtRest (Script.clrf ++ p) q o k s) :
    ∃ t, Steps s t ∧ AtRest p q o k t ∧ t.freq = zeroFreq ∧ t.total = 0 := by
  have hexec := exec_clrf (s := { s with script := p, resp := .written }) h.ready
  exact ⟨_, h.command hexec, ⟨⟨rfl, h.ready.2⟩, h.rst, h.inDepth, h.outDepth, rfl, h.inq, h.outq, h.taken⟩, rfl, rfl⟩

/-- R99, R112: HIST of all bytes in IN. -/
theorem AtRest.hist {cur : List Byte} (h : AtRest (Script.hist (Script.lenWord cur) ++ p) cur o k s)
    (hcur : cur.length < 2 ^ 64) (htotal : s.total = 0) :
    ∃ t, Steps s t ∧ AtRest p [] o k t ∧ t.freq = countBytes s.freq cur := by
  rw [Script.hist, List.append_assoc] at h
  obtain ⟨u, hsteps, hu, hsame, hlen⟩ := h.len
  have hinput : u.len.toNat = u.inq.length := by rw [hlen, hu.inq, Script.lenWord, toNat_ofNat_length hcur]
  have hfits : u.total.toNat + u.len.toNat < 2 ^ 64 := by
    rw [hsame.total, htotal]
    exact (Nat.zero_add _).symm ▸ u.len.isLt
  have hexec := exec_hist (s := { u with script := p, resp := .written }) hu.ready hfits hinput.le
  refine ⟨_, hsteps.trans (hu.command hexec), ⟨⟨rfl, hu.ready.2⟩, hu.rst, hu.inDepth, hu.outDepth, rfl, ?_, hu.outq, hu.taken⟩,
    ?_⟩
  · exact List.drop_eq_nil_of_le hinput.ge
  · show countBytes u.freq (u.inq.take u.len.toNat) = _
    rw [hinput, List.take_length, hsame.freq, hu.inq]

/-- R99, R121: BUILD. -/
theorem AtRest.build (h : AtRest (Script.build ++ p) q o k s) :
    ∃ t, Steps s t ∧ AtRest p q o k t ∧ t.node = (buildTree s.freq).node ∧ t.root = (buildTree s.freq).root := by
  have hexec := exec_build (s := { s with script := p, resp := .written }) h.ready
  exact ⟨_, h.command hexec, ⟨⟨rfl, h.ready.2⟩, h.rst, h.inDepth, h.outDepth, rfl, h.inq, h.outq, h.taken⟩, rfl, rfl⟩

/-- R99, R131: GENCODE. -/
theorem AtRest.gencode (h : AtRest (Script.gencode ++ p) q o k s) :
    ∃ t, Steps s t ∧ AtRest p q o k t ∧ t.node = s.node ∧ t.root = s.root ∧ t.code = genCodes s.node s.root := by
  have hexec := exec_gencode (s := { s with script := p, resp := .written }) h.ready
  exact ⟨_, h.command hexec, ⟨⟨rfl, h.ready.2⟩, h.rst, h.inDepth, h.outDepth, rfl, h.inq, h.outq, h.taken⟩, rfl, rfl, rfl⟩

/-- R99, R141: PACK of all bytes in IN, which have codes. -/
theorem AtRest.pack {cur : List Byte} (h : AtRest (Script.pack (Script.lenWord cur) ++ p) cur o k s)
    (hcur : cur.length < 2 ^ 64) (hcov : covers s.code cur = true) :
    ∃ t, Steps s t ∧ AtRest p [] (o ++ payloadOfStream (streamOf s.code cur)) k t ∧ t.node = s.node ∧ t.root = s.root := by
  rw [Script.pack, List.append_assoc] at h
  obtain ⟨u, hsteps, hu, hsame, hlen⟩ := h.len
  have hinput : u.len.toNat = u.inq.length := by rw [hlen, hu.inq, Script.lenWord, toNat_ofNat_length hcur]
  have hcov' : covers u.code u.inq = true := by rwa [hsame.code, hu.inq]
  have hexec := exec_pack_whole (s := { u with script := p, resp := .written }) hu.ready hinput hu.outDepth hcov'
  refine ⟨_, hsteps.trans (hu.command hexec), ⟨⟨rfl, hu.ready.2⟩, hu.rst, hu.inDepth, hu.outDepth, rfl, rfl, ?_, hu.taken⟩,
    hsame.node, hsame.root⟩
  show u.outq ++ payloadOfStream (streamOf u.code u.inq) = _
  rw [hu.outq, hsame.code, hu.inq]

/-- R99, R161: SER. -/
theorem AtRest.ser (h : AtRest (Script.ser ++ p) q o k s) :
    ∃ t, Steps s t ∧ AtRest p q (o ++ s.tree.ser) k t := by
  have hexec := exec_ser (s := { s with script := p, resp := .written }) h.ready (outTakes_of_unbounded h.outDepth _)
  exact ⟨_, h.command hexec, ⟨⟨rfl, h.ready.2⟩, h.rst, h.inDepth, h.outDepth, rfl, h.inq, congrArg (· ++ s.tree.ser) h.outq,
    h.taken⟩⟩

end

/-! ## The encode pass -/

section
variable {p : List HostAction} {o k cur : List Byte} {s : State}

/-- R185, R100: the lines up to GENCODE leave the tree and the codes of the pure pass. -/
theorem AtRest.tables (hcur : cur.length < 2 ^ 64)
    (h : AtRest (Script.clrf ++ (Script.wait ++ (Script.push cur ++ (Script.hist (Script.lenWord cur) ++ (Script.wait ++
      (Script.build ++ (Script.wait ++ (Script.gencode ++ (Script.wait ++ p))))))))) [] o k s) :
    ∃ t, Steps s t ∧ AtRest p [] o k t ∧ t.node = (Firmware.passTree cur).node ∧ t.root = (Firmware.passTree cur).root ∧
      t.code = Firmware.passCodes cur := by
  obtain ⟨c, hc, rc, hzero, htotal⟩ := h.clrf
  obtain ⟨c', hc', rc', samec⟩ := rc.wait
  obtain ⟨i, hi, ri, samei⟩ := rc'.push
  obtain ⟨h', hh, rh, hcounted⟩ := ri.hist hcur (samei.total.trans (samec.total.trans htotal))
  rw [samei.freq, samec.freq, hzero] at hcounted
  obtain ⟨h'', hh', rh', sameh⟩ := rh.wait
  obtain ⟨b, hb, rb, hnode, hroot⟩ := rh'.build
  rw [sameh.freq, hcounted] at hnode hroot
  obtain ⟨b', hb', rb', sameb⟩ := rb.wait
  obtain ⟨g, hg, rg, hgnode, hgroot, hcode⟩ := rb'.gencode
  rw [sameb.node, sameb.root, hnode, hroot] at hcode
  obtain ⟨t, ht, rt, samet⟩ := rg.wait
  have hsteps := hc.trans (hc'.trans (hi.trans (hh.trans (hh'.trans (hb.trans (hb'.trans (hg.trans ht)))))))
  exact ⟨t, hsteps, rt, samet.node.trans (hgnode.trans (sameb.node.trans hnode)),
    samet.root.trans (hgroot.trans (sameb.root.trans hroot)), samet.code.trans hcode⟩

/-- R185, R100: the lines from PACK on hand over the payload and the tree bytes of the pure pass. -/
theorem AtRest.streams (hcur : cur.length < 2 ^ 64) (hnode : s.node = (Firmware.passTree cur).node)
    (hroot : s.root = (Firmware.passTree cur).root) (hcode : s.code = Firmware.passCodes cur)
    (h : AtRest (Script.push cur ++ (Script.pack (Script.lenWord cur) ++ (Script.wait ++ (Script.rd 0x030 ++
      (Script.pop (Firmware.passPayload cur).length ++ (Script.ser ++ (Script.wait ++ (Script.rd 0x030 ++
        (Script.pop (Firmware.passTreeBytes cur).length ++ p))))))))) [] [] k s) :
    ∃ t, Steps s t ∧ AtRest p [] [] (k ++ Firmware.passPayload cur ++ Firmware.passTreeBytes cur) t := by
  have hcov := covers_passCodes hcur
  obtain ⟨i, hi, ri, samei⟩ := h.push
  have hicode := samei.code.trans hcode
  obtain ⟨a, ha, ra, hanode, haroot⟩ := ri.pack hcur (hicode ▸ hcov)
  rw [hicode, payload_eq_passPayload hcov, List.nil_append] at ra
  obtain ⟨b, hb, rb, sameb⟩ := ra.wait
  obtain ⟨c, hc, rc, samec⟩ := rb.rd
  obtain ⟨d, hd, rd, samed⟩ := rc.pop_all
  have htree : d.tree = treeOf (Firmware.passTree cur).node (Firmware.passTree cur).root := by
    rw [State.tree, samed.node, samed.root, samec.node, samec.root, sameb.node, sameb.root, hanode, haroot, samei.node, samei.root,
      hnode, hroot]
  obtain ⟨e, he, re⟩ := rd.ser
  rw [htree, ser_passTree, List.nil_append] at re
  obtain ⟨f, hf, rf, -⟩ := re.wait
  obtain ⟨g, hg, rg, -⟩ := rf.rd
  obtain ⟨t, ht, rt, -⟩ := rg.pop_all
  exact ⟨t, hi.trans (ha.trans (hb.trans (hc.trans (hd.trans (he.trans (hf.trans (hg.trans ht))))))), rt⟩

end

/-- R185, R100: the whole script. -/
theorem AtRest.encodePass {cur : List Byte} {s : State} (hcur : cur.length < 2 ^ 64)
    (h : AtRest (Script.encodePass cur (Firmware.passPayload cur).length (Firmware.passTreeBytes cur).length) [] [] [] s) :
    ∃ t, Steps s t ∧ AtRest [] [] [] (Firmware.passPayload cur ++ Firmware.passTreeBytes cur) t := by
  rw [Script.encodePass, ← List.append_nil (Script.pop (Firmware.passTreeBytes cur).length)] at h
  simp only [List.append_assoc] at h
  obtain ⟨g, hg, rg, hnode, hroot, hcode⟩ := h.tables hcur
  obtain ⟨t, ht, rt⟩ := rg.streams hcur hnode hroot hcode
  exact ⟨t, hg.trans ht, rt⟩

/-- Settles O58: `AtRest.encodePass`. -/
theorem encodePassScriptDeliversFrameParts : Obligations.EncodePassScriptDeliversFrameParts := by
  unfold Obligations.EncodePassScriptDeliversFrameParts
  intro s buf hready hrst hinq houtq htaken hin hout hbuf
  obtain ⟨t, hsteps, ht⟩ := AtRest.encodePass (cur := buf)
    (s := { s with script := Script.encodePass buf (Firmware.passPayload buf).length (Firmware.passTreeBytes buf).length }) hbuf
    ⟨hready, hrst, hin, hout, rfl, hinq, houtq, htaken⟩
  obtain ⟨n, hn⟩ := Steps.exists_run hsteps
  exact ⟨n, t, hn, ht.script, ht.ready.2.1, ht.ready.1, ht.inq, ht.outq, ht.taken⟩

end Sys2Proof.Machine
end
